-- ==== Sys2Proof/Word.lean ====
section
/-! DEFINITION. Word.lean: the one fixed-width word of the block, the byte (R8). Every other quantity is a natural number (R7). -/

namespace Sys2Proof

/-- A byte, 0..255 (R8). -/
abbrev Byte := BitVec 8

end Sys2Proof
end

