-- ==== Sys2Proof/Config.lean ====
section
/-! DEFINITION. Config.lean: the constants of the block and of the file layout (R6, R57, R79, R151). There is no free value in this model. -/

namespace Sys2Proof.Config

/-- The default of the largest code width implemented (R6, R34, D5). `MAXW` itself is a field of State. -/
abbrev maxwDefault : Nat := 12

/-- The image separator (R79). -/
abbrev separator : Byte := 0x2C

/-- Length of the header and screen descriptor in bytes (R57, R151). -/
abbrev headerLength : Nat := 13

/-- Length of the signature in bytes (R151). -/
abbrev signatureLength : Nat := 6

/-- Offset of the packed byte of the screen descriptor (R57, R77). -/
abbrev pk10Offset : Nat := 10

/-- Distance from the separator to the packed byte of the image descriptor (R57, R78). -/
abbrev pk9Distance : Nat := 9

/-- Distance from the separator to the minimum-code-size byte (R57, R80). -/
abbrev mcsDistance : Nat := 10

/-- Distance from the separator to the first sub-block length byte (R57, R111, C2). -/
abbrev recordsDistance : Nat := 11

/-- The longest sub-block record: a length byte and 255 payload bytes (R71). -/
abbrev longestRecord : Nat := 256

/-- The largest byte that is valid ASCII (R151, D18, G1). -/
abbrev asciiMax : Nat := 0x7F

end Sys2Proof.Config
end

