-- ==== Sys2Proof/Syntax.lean ====
section
/-! DEFINITION. Syntax.lean: one constructor of `Instr` per row of spec/opcode_table.json, and the contexts in which an encoded item is read (R70, R75). -/

namespace Sys2Proof

/-- The instructions of the block, as 00_scope.md R3 reads the word: codes, sub-block records, header bytes, Field
Reader commands, block commands and the host's sequences. -/
inductive Instr where
  /-- CLEAR: the code `N` (R125). -/
  | clear
  /-- EOI: the code `N + 1` (R126). -/
  | eoi
  /-- KNOWN: a code below the table length that is no sentinel (R127). -/
  | known (code : Nat)
  /-- KWKWK: the code equal to the table length (R129). -/
  | kwkwk (code : Nat)
  /-- CORRUPT: a code above the table length (R130). -/
  | corrupt (code : Nat)
  /-- DATA: a sub-block record with its 1 to 255 payload bytes (R112). -/
  | data (payload : List Byte)
  /-- TERM: the sub-block record of length 0 (R114). -/
  | term
  /-- PK10: the packed byte of the screen descriptor, `GRRRSEEE` (R77). -/
  | pk10 (g : BitVec 1) (r : BitVec 3) (st : BitVec 1) (e : BitVec 3)
  /-- PK9: the packed byte of the image descriptor, `LISrrEEE` (R78, C1). -/
  | pk9 (lct : BitVec 1) (il : BitVec 1) (st : BitVec 1) (rs : BitVec 2) (e : BitVec 3)
  /-- SEP: the image separator `0x2C` (R79). -/
  | sep
  /-- MCS: the minimum-code-size byte (R80). -/
  | mcs (m : Byte)
  /-- RD8 a (R101). -/
  | rd8 (a : Nat)
  /-- RD16LE a (R102). -/
  | rd16le (a : Nat)
  /-- RDBITS a, s, n (R103). -/
  | rdbits (a : Nat) (st : Nat) (n : Nat)
  /-- ASSEMBLE p (R111). -/
  | assemble (p : Nat)
  /-- DECODE bits, mcs, N (R121). -/
  | decode (bits : List Bool) (m : Byte) (n : Nat)
  /-- RUN S, N (R133). -/
  | run (sp : Nat) (n : Nat)
  /-- PARSE_HEADER (R151, R152). -/
  | parseHeader
  /-- EXTRACT_GCT e (R154). -/
  | extractGct (e : BitVec 3)
  /-- LOCATE_IMAGE G (R156, R157). -/
  | locateImage (g : Nat)
  /-- BUILD_GRID out, w (R159). -/
  | buildGrid (colors : List Nat) (w : Nat)
  /-- DECODE_FILE (R161). -/
  | decodeFile
  deriving DecidableEq, Repr

/-- The five classes of the code map (R75), in the order of its tests. -/
inductive CodeClass where
  | clear | eoi | known | kwkwk | corrupt
  deriving DecidableEq, Repr

/-- The header bytes the Field Reader is applied to on the host's command (R70, R77 to R80). -/
inductive HeaderKind where
  | pk10 | pk9 | sep | mcs
  deriving DecidableEq, Repr

/-- Who reads an encoded item, with what the reader knows. The same bits mean different things to different readers
(R54, R70), and the class of a code depends on the width `cw`, on `N` and on the table length (R74, R75). -/
inductive Ctx where
  | record
  | code (cw : Nat) (n : Nat) (tlen : Nat)
  | header (k : HeaderKind)
  deriving DecidableEq, Repr

/-- What a reader is given: whole bytes of `BUF`, or bits of `BS` in stream order (R50, R70). -/
inductive Item where
  | bytes (bs : List Byte)
  | bits (bs : List Bool)
  deriving DecidableEq, Repr

end Sys2Proof
end

