-- ==== Sys2Proof/WellFormed.lean ====
section
/-! DEFINITION. WellFormed.lean: the operands an instruction may have (R71, R83, R103, R6), and which instructions a context can encode (R72, R75). -/

namespace Sys2Proof

/-- Legal operands of RDBITS: a non-empty range inside the byte (R103, D9). -/
def legalRange (st n : Nat) : Bool := decide (1 ≤ n ∧ st + n ≤ 8)

/-- Legal payload length of a DATA record: 1 to 255 bytes (R71, R72). -/
def legalPayload (payload : List Byte) : Bool := decide (1 ≤ payload.length ∧ payload.length ≤ 255)

/-- Legal color count: at least 1 (R6, D16). -/
def legalColorCount (n : Nat) : Bool := decide (1 ≤ n)

/-- The operands are in the instruction's domain, whatever the machine's state. -/
def Instr.wf : Instr → Bool
  | .data payload => legalPayload payload
  | .rdbits _ st n => legalRange st n
  | .decode _ _ n => legalColorCount n
  | .run _ n => legalColorCount n
  | .clear | .eoi | .known _ | .kwkwk _ | .corrupt _ | .term | .pk10 _ _ _ _ | .pk9 _ _ _ _ _ | .sep | .mcs _
  | .rd8 _ | .rd16le _ | .assemble _ | .parseHeader | .extractGct _ | .locateImage _ | .buildGrid _ _ | .decodeFile => true

/-- The rows the host issues with operands and no encoding: formats FRCMD, BLKCMD and PSEUDO (R83, R85). -/
def Instr.isCommand : Instr → Bool
  | .rd8 _ | .rd16le _ | .rdbits _ _ _ | .assemble _ | .decode _ _ _ | .run _ _ | .parseHeader | .extractGct _
  | .locateImage _ | .buildGrid _ _ | .decodeFile => true
  | .clear | .eoi | .known _ | .kwkwk _ | .corrupt _ | .data _ | .term | .pk10 _ _ _ _ | .pk9 _ _ _ _ _ | .sep
  | .mcs _ => false

/-- The start commands: they begin a run (R190, R191; DECODE_FILE issues RUN, R161). -/
def Instr.isStart : Instr → Bool
  | .assemble _ | .decode _ _ _ | .run _ _ | .decodeFile => true
  | .clear | .eoi | .known _ | .kwkwk _ | .corrupt _ | .data _ | .term | .pk10 _ _ _ _ | .pk9 _ _ _ _ _ | .sep
  | .mcs _ | .rd8 _ | .rd16le _ | .rdbits _ _ _ | .parseHeader | .extractGct _ | .locateImage _
  | .buildGrid _ _ => false

/-- The instruction is one that the context can hold: a record of legal length, a code that the code map gives this
class and that fits in `cw` bits (R75, R125: a value of `2^cw` or more cannot be fetched at that width), a header byte
of that format. -/
def Instr.wfIn : Ctx → Instr → Bool
  | .record, .data payload => legalPayload payload
  | .record, .term => true
  | .code cw n _, .clear => decide (n < 2 ^ cw)
  | .code cw n _, .eoi => decide (n + 1 < 2 ^ cw)
  | .code cw n tlen, .known c => decide (c ≠ n ∧ c ≠ n + 1 ∧ c < tlen ∧ c < 2 ^ cw)
  | .code cw n tlen, .kwkwk c => decide (c ≠ n ∧ c ≠ n + 1 ∧ c = tlen ∧ c < 2 ^ cw)
  | .code cw n tlen, .corrupt c => decide (c ≠ n ∧ c ≠ n + 1 ∧ tlen < c ∧ c < 2 ^ cw)
  | .header .pk10, .pk10 _ _ _ _ => true
  | .header .pk9, .pk9 _ _ _ _ _ => true
  | .header .sep, .sep => true
  | .header .mcs, .mcs _ => true
  | _, _ => false

end Sys2Proof
end

