-- ==== Sys2Proof/Decode.lean ====
section
/-! DEFINITION. Decode.lean: the two bit numberings, operand assembly from encoded bits (R8, R51 to R54, R81), the decoder of every encoded item (R70 to R80), total and rejecting by name, and the encoder (R87). -/

namespace Sys2Proof

/-- Stream bit `j` of a byte: `(b div 2^j) mod 2` (R8). -/
def sbit (b : Byte) (j : Nat) : Bool := decide (b.toNat / 2 ^ j % 2 = 1)

/-- Field bit `i` of a byte, bit 0 the most significant: `(b div 2^(7-i)) mod 2` (R8). -/
def fbit (b : Byte) (i : Nat) : Bool := decide (b.toNat / 2 ^ (7 - i) % 2 = 1)

/-- The 8 bits of a payload byte, least significant first (R52). -/
def byteBits (b : Byte) : List Bool := (List.range 8).map (sbit b)

/-- The bits of a payload, bytes in order (R52). -/
def bytesBits (bs : List Byte) : List Bool := bs.flatMap byteBits

/-- The number whose bits are listed least significant first: `sum of b_i * 2^i` (R53). -/
def bitsValue : List Bool → Nat
  | [] => 0
  | b :: bs => b.toNat + 2 * bitsValue bs

/-- The `w` low bits of a number, least significant first (R87). -/
def valueBits : Nat → Nat → List Bool
  | 0, _ => []
  | w + 1, v => decide (v % 2 = 1) :: valueBits w (v / 2)

/-- The bit range of a byte that starts at field bit `st` and is `n` bits long: `(b div 2^(8-st-n)) mod 2^n` (R81, R103). -/
def byteField (b : Byte) (st n : Nat) : Nat := b.toNat / 2 ^ (8 - st - n) % 2 ^ n

/-- The little-endian 16-bit integer of two bytes, the lower address first (R51, R81). -/
def le16 (lo hi : Byte) : Nat := lo.toNat + 256 * hi.toNat

/-- The code map: the five ordered tests on a code value (R75, R124). -/
def classify (n tlen code : Nat) : CodeClass :=
  if code = n then .clear
  else if code = n + 1 then .eoi
  else if code < tlen then .known
  else if code = tlen then .kwkwk
  else .corrupt

/-- The instruction of a code value in its class. -/
def codeInstr (n tlen code : Nat) : Instr :=
  match classify n tlen code with
  | .clear => .clear
  | .eoi => .eoi
  | .known => .known code
  | .kwkwk => .kwkwk code
  | .corrupt => .corrupt code

/-- Why a reader gives no instruction, or the encoder no bits. -/
inductive Reject where
  /-- No length byte at the cursor (R113 b). -/
  | noLengthByte
  /-- The declared length runs past the bytes there are (R113 a). -/
  | recordTruncated
  /-- Fewer bits left than the code width (R123). -/
  | codeTruncated
  /-- No byte where a header byte is read (R101). -/
  | noHeaderByte
  /-- The byte is not the image separator (R79). -/
  | notSeparator
  /-- The reader of this context is not given this kind of item (R50). -/
  | wrongItem
  /-- The instruction is not one this context can hold (R72, R75). -/
  | notInContext
  deriving DecidableEq, Repr

/-- A sub-block record at the head of a byte sequence (R71, R72, R113). -/
def decodeRecord : List Byte → Except Reject Instr
  | [] => .error .noLengthByte
  | n :: rest =>
    if n = 0 then .ok .term
    else if rest.length < n.toNat then .error .recordTruncated
    else .ok (.data (rest.take n.toNat))

/-- A code at the head of a bit sequence: `cw` bits, first-read bit least significant, then the code map (R73, R75, R123). -/
def decodeCode (cw n tlen : Nat) (bs : List Bool) : Except Reject Instr :=
  if bs.length < cw then .error .codeTruncated
  else .ok (codeInstr n tlen (bitsValue (bs.take cw)))

/-- A header byte of a given format, its fields cut out as RDBITS cuts them (R77 to R80). -/
def decodeHeader : HeaderKind → Byte → Except Reject Instr
  | .pk10, b => .ok (.pk10 (.ofNat 1 (byteField b 0 1)) (.ofNat 3 (byteField b 1 3)) (.ofNat 1 (byteField b 4 1))
      (.ofNat 3 (byteField b 5 3)))
  | .pk9, b => .ok (.pk9 (.ofNat 1 (byteField b 0 1)) (.ofNat 1 (byteField b 1 1)) (.ofNat 1 (byteField b 2 1))
      (.ofNat 2 (byteField b 3 2)) (.ofNat 3 (byteField b 5 3)))
  | .sep, b => if b = Config.separator then .ok .sep else .error .notSeparator
  | .mcs, b => .ok (.mcs b)

/-- The decoder: what the reader of a context makes of an item. It looks at the head of the item alone; what follows
the instruction is left for the next one. -/
def decode : Ctx → Item → Except Reject Instr
  | .record, .bytes bs => decodeRecord bs
  | .code cw n tlen, .bits bs => decodeCode cw n tlen bs
  | .header k, .bytes (b :: _) => decodeHeader k b
  | .header _, .bytes [] => .error .noHeaderByte
  | .record, .bits _ => .error .wrongItem
  | .code _ _ _, .bytes _ => .error .wrongItem
  | .header _, .bits _ => .error .wrongItem

/-- The bytes of a DATA record: its length byte, then its payload (R71, R87). -/
def recordBytes (payload : List Byte) : List Byte := BitVec.ofNat 8 payload.length :: payload

/-- The packed byte `GRRRSEEE` (R77). -/
def pk10Byte (g : BitVec 1) (r : BitVec 3) (st : BitVec 1) (e : BitVec 3) : Byte :=
  BitVec.ofNat 8 (128 * g.toNat + 16 * r.toNat + 8 * st.toNat + e.toNat)

/-- The packed byte `LISrrEEE` (R78). -/
def pk9Byte (lct il st : BitVec 1) (rs : BitVec 2) (e : BitVec 3) : Byte :=
  BitVec.ofNat 8 (128 * lct.toNat + 64 * il.toNat + 32 * st.toNat + 8 * rs.toNat + e.toNat)

/-- The encoder: the item a context holds for an instruction; rejected by name where the context cannot hold it. -/
def encode (c : Ctx) (i : Instr) : Except Reject Item :=
  if i.wfIn c then
    match c, i with
    | .record, .data payload => .ok (.bytes (recordBytes payload))
    | .record, .term => .ok (.bytes [0])
    | .code cw n _, .clear => .ok (.bits (valueBits cw n))
    | .code cw n _, .eoi => .ok (.bits (valueBits cw (n + 1)))
    | .code cw _ _, .known v => .ok (.bits (valueBits cw v))
    | .code cw _ _, .kwkwk v => .ok (.bits (valueBits cw v))
    | .code cw _ _, .corrupt v => .ok (.bits (valueBits cw v))
    | .header _, .pk10 g r st e => .ok (.bytes [pk10Byte g r st e])
    | .header _, .pk9 lct il st rs e => .ok (.bytes [pk9Byte lct il st rs e])
    | .header _, .sep => .ok (.bytes [Config.separator])
    | .header _, .mcs m => .ok (.bytes [m])
    | _, _ => .error .notInContext
  else .error .notInContext

/-- The bits of a listing of codes, each `(value, width)`, in order (R87). -/
def listingBits (codes : List (Nat × Nat)) : List Bool := codes.flatMap fun c => valueBits c.2 c.1

/-- Bits packed into payload bytes, the last one filled up with zero bits (R87). -/
def packBytes (bs : List Bool) : List Byte :=
  (List.range ((bs.length + 7) / 8)).map fun k => BitVec.ofNat 8 (bitsValue ((bs.drop (8 * k)).take 8))

/-- A chain of sub-block records and its terminator (R71, R87). -/
def chainBytes (records : List (List Byte)) : List Byte := records.flatMap recordBytes ++ [0]

/-- The bytes of an opcode-table word of `nbits` bits, the first byte the least significant, and zero bytes behind them
up to the length of the record that its first byte begins. -/
def tableBytes (nbits w : Nat) : List Byte :=
  (List.range (nbits / 8)).map (fun k => BitVec.ofNat 8 (w / 256 ^ k)) ++ List.replicate (1 + w % 256 - nbits / 8) 0

/-- An opcode-table word is the separator: one byte, `0x2C` (R79). -/
def isSeparatorWord (nbits w : Nat) : Bool := decide (nbits = 8 ∧ w % 256 = Config.separator.toNat)

/-- The instruction of an opcode-table word. The table gives fixed bits to two rows alone, SEP (`0x2C`, read by the
host's scan) and TERM (`0x00`, read by the assembler); a one-byte word `0x2C` is read as the scan reads it and every
other word as the assembler reads a record (log entry 4). -/
def decodeTableWord (nbits w : Nat) : Option Instr :=
  if nbits = 0 then none
  else if isSeparatorWord nbits w then (decode (.header .sep) (.bytes (tableBytes nbits w))).toOption
  else (decode .record (.bytes (tableBytes nbits w))).toOption

end Sys2Proof
end

