-- ==== Sys2Proof/Machine/State.lean ====
section
/-! DEFINITION. Machine/State.lean: the block's architectural state (10_state.md), the host's registers (43_host_pipeline.md), the ways a step can stop, and the state after reset. Plain data. -/

namespace Sys2Proof.Machine

/-- The fault reasons a run of the block can end with (R170). -/
inductive Reason where
  | malformedHeader | truncatedStream | corruptCodeStream | codeWidthOverflow
  deriving DecidableEq, Repr

/-- The typed errors a host stage reports to its caller (R170): a reason of the block, or one of the host's own. -/
inductive HostError where
  /-- A fault of the block or of a Field Reader command, passed on (R158, R161). -/
  | block (r : Reason)
  /-- The input collaborator has no file (R162). -/
  | fileNotFound
  /-- The buffer is shorter than the color table (R155). -/
  | invalidColorTableSize
  /-- No separator byte located (R156). -/
  | imageDescriptorNotFound
  /-- The color count is no multiple of the width (R160). -/
  | dimensionMismatch
  deriving DecidableEq, Repr

/-- The status register (R35). -/
inductive Status where
  | idle | assembling | decoding | done
  | fault (r : Reason)
  deriving DecidableEq, Repr

/-- A run is in progress (R21): the statuses in which the host has no move (R198). -/
def Status.running : Status → Bool
  | .assembling | .decoding => true
  | .idle | .done | .fault _ => false

/-- The terminal statuses (R35). -/
def Status.terminal : Status → Bool
  | .done | .fault _ => true
  | .idle | .assembling | .decoding => false

/-- An entry of the code table: the three variants (R37). -/
inductive Entry where
  | color (colors : List Nat)
  | clearSentinel
  | eoiSentinel
  deriving DecidableEq, Repr

/-- The input buffer's bytes by address, strictly rising, no byte that reads as an unlisted address does (zero). -/
abbrev Memory := List Host.Cell

/-- What a command returned to the host (R195, R100, R150). -/
inductive Reply where
  | none
  /-- A Field Reader value (R100). -/
  | value (v : Nat)
  /-- The bit sequence of a bare ASSEMBLE (R195). -/
  | bits (bs : List Bool)
  /-- A stage or header byte is done; its results stand in the host's registers. -/
  | stageDone
  /-- The typed error of a stage or command (R150). -/
  | error (e : HostError)
  deriving DecidableEq, Repr

/-- What the host's sequence DECODE_FILE still has to do (R158, R161). -/
inductive Job where
  | none
  /-- RUN has been issued; at its end BUILD_GRID follows, or the run's fault is passed on. -/
  | awaitRun
  deriving DecidableEq, Repr

/-- One thing the host does between runs (R194, R195). -/
inductive Request where
  /-- The input collaborator supplies the whole file, or signals that there is none (R162). -/
  | load (file : Option (List Byte))
  /-- Apply the Field Reader to a header byte of this format (R70). -/
  | header (k : HeaderKind)
  /-- Issue a command (R83, R85). -/
  | command (i : Instr)
  deriving DecidableEq, Repr

/-- An RGB triple of the global color table (R154). -/
structure Rgb where
  red : Byte
  green : Byte
  blue : Byte
  deriving DecidableEq, Repr

/-- The screen descriptor (R152). -/
structure Screen where
  width : BitVec 16
  height : BitVec 16
  gctFlag : BitVec 1
  colorRes : BitVec 3
  sortFlag : BitVec 1
  e : BitVec 3
  background : Byte
  aspect : Byte
  deriving DecidableEq, Repr

/-- The image descriptor (R157). -/
structure Image where
  left : BitVec 16
  top : BitVec 16
  width : BitVec 16
  height : BitVec 16
  lctFlag : BitVec 1
  interlace : BitVec 1
  sortFlag : BitVec 1
  reserved : BitVec 2
  lctExp : BitVec 3
  deriving DecidableEq, Repr

/-- The host's side: its script, what it waits for, what it was told, and what its stages have parsed (R150 to R161). -/
structure HostState where
  queue : List Request
  job : Job
  reply : Reply
  sig : List Byte
  screen : Screen
  N : Nat
  G : Nat
  gct : List Rgb
  S : Nat
  image : Image
  grid : List (List Nat)
  deriving DecidableEq, Repr

/-- The whole machine. Names are the manual's (10_state.md). `BL` is the length of `BS` (R39). -/
structure State where
  /-- The largest code width implemented (R34). -/
  MAXW : Nat
  /-- The input buffer (R38). -/
  BUF : Memory
  /-- Its length in bytes (R30). -/
  L : Nat
  /-- Separator offset, latched by RUN (R31). -/
  S : Nat
  /-- Color count, latched by RUN and DECODE (R32). -/
  N : Nat
  /-- Minimum code size (R33). -/
  mcs : Byte
  /-- Phase of the run (R35). -/
  status : Status
  /-- The run was started by RUN, so its TERM starts the decoder (R114). -/
  inRun : Bool
  /-- The assembler's byte cursor (R27). -/
  ap : Nat
  /-- The bit-stream memory (R39). -/
  BS : List Bool
  /-- Current code width (R22). -/
  cw : Nat
  /-- Counted codes at this width (R23). -/
  cnt : Nat
  /-- The previous code, or unwritten (R24). -/
  prev : Option Nat
  /-- First code after reset (R25). -/
  first : Bool
  /-- The code table (R37). -/
  T : List Entry
  /-- The decoder's bit cursor (R28). -/
  bp : Nat
  /-- The output accumulator (R40). -/
  out : List Nat
  /-- The host's side (R150, R195). -/
  host : HostState
  deriving DecidableEq, Repr

/-- How the machine stops where no rule gives it a next step. -/
inductive Fault where
  /-- Raised by `step`: no run is in progress and the host asks for nothing (R35: "no step is enabled in them"; R177). Safe. -/
  | noStepEnabled
  /-- Raised by KNOWN and KWKWK: `prev` is read while unwritten (R24, U3). No reachable state raises it (R26). Safe. -/
  | prevUnwritten
  /-- Raised by KNOWN and KWKWK: a table index that holds no color entry is read (R9, R124). No reachable state raises it (R26). Safe. -/
  | noColorEntry
  deriving DecidableEq, Repr

/-- What the machine refuses: forms to which the spec gives no meaning. -/
inductive Refusal where
  /-- Raised by `exec` for an instruction that has no meaning yet. Safe. No instruction raises it now. -/
  | notModelled (mnemonic : String)
  /-- Raised by RDBITS with an empty range or one that leaves the byte (R103, D9: "Not a command"). Safe. -/
  | rangeNotACommand
  /-- Raised by DECODE and RUN with `N = 0`, outside the domain `N >= 1` (R6). Safe. -/
  | colorCountZero
  /-- Raised by the start commands and MCS while a run is in progress: the host must not issue them (R198). Safe. -/
  | runInProgress
  /-- Raised by DATA and TERM where no A-step is enabled (R112, R114). Safe. -/
  | assemblerNotEnabled
  /-- Raised by the code classes where no D-step is enabled (R120). Safe. -/
  | decoderNotEnabled
  /-- Raised by the code classes for a code value that the code map gives to another class (R75). Safe. -/
  | notThisClass
  /-- Raised by DATA with a payload of no byte or of more than 255 (R71). Safe. -/
  | illegalPayload
  /-- Raised by `step` when the host's script issues what is no command: a code, a record or a header byte (R83). Safe. -/
  | notACommand
  deriving DecidableEq, Repr

/-- The screen descriptor before any was parsed (log entry 7). -/
def Screen.zero : Screen := ⟨0, 0, 0, 0, 0, 0, 0, 0⟩

/-- The image descriptor before any was parsed (log entry 7). -/
def Image.zero : Image := ⟨0, 0, 0, 0, 0, 0, 0, 0, 0⟩

/-- The host before any request (log entry 7). -/
def HostState.initial : HostState :=
  { queue := [], job := .none, reply := .none, sig := [], screen := .zero, N := 0, G := 0, gct := [], S := 0,
    image := .zero, grid := [] }

/-- The machine after power-on: `status` IDLE (R35, R45), `MAXW` at its default (R34), and the elements the spec gives
no power-on value at the values of log entry 7: the inputs zero and empty, and the run's elements at what R45 gives
them at DECODE start for those inputs. A command issued before any load acts on that empty buffer, `L = 0` (DESIGN CHOICE,
log entry 25; R30: "a run cannot start without it"). -/
def State.reset : State :=
  { MAXW := Config.maxwDefault, BUF := [], L := 0, S := 0, N := 0, mcs := 0, status := .idle, inRun := false,
    ap := 0, BS := [], cw := 1, cnt := 0, prev := none, first := true, T := [.clearSentinel, .eoiSentinel], bp := 0,
    out := [], host := .initial }

end Sys2Proof.Machine
end

