-- ==== Sys2Proof/Machine/Ops.lean ====
section
/-! DEFINITION. Machine/Ops.lean: the named operations over the four memories (R50), the taking of a fault (R178) and the starts that leave one (R179, R191), the host's replies, and the primitives RESET_TABLE and APPEND (R122, R128). -/

namespace Sys2Proof.Machine

/-! ## The input buffer (R38, R50) -/

/-- The byte at an address; an unlisted address reads zero (log entry 5). -/
def Memory.read : Memory → Nat → Byte
  | [], _ => 0
  | (k, b) :: m, a => if k = a then b else Memory.read m a

/-- The buffer holding a byte sequence from address `a` on. -/
def Memory.ofBytes (a : Nat) : List Byte → Memory
  | [] => []
  | b :: bs => if b = 0 then Memory.ofBytes (a + 1) bs else (a, b) :: Memory.ofBytes (a + 1) bs

/-- One byte replaced; the block never does this (R11), the placing of a word to fetch does. -/
def Memory.write : Memory → Nat → Byte → Memory
  | [], a, b => if b = 0 then [] else [(a, b)]
  | (k, c) :: m, a, b =>
    if a < k then (if b = 0 then (k, c) :: m else (a, b) :: (k, c) :: m)
    else if a = k then (if b = 0 then m else (a, b) :: m)
    else (k, c) :: Memory.write m a b

/-- A byte sequence written from address `a` on. -/
def Memory.writeBytes (m : Memory) (a : Nat) : List Byte → Memory
  | [] => m
  | b :: bs => Memory.writeBytes (m.write a b) (a + 1) bs

/-- The canonical form: addresses strictly rising, no entry equal to what an unlisted address reads as. -/
abbrev Memory.wf (m : Memory) : Prop := m.Pairwise (fun x y => x.1 < y.1) ∧ ∀ c ∈ m, c.2 ≠ 0

/-- Up to `n` bytes of the buffer from offset `a`, as many as lie below `L` (R58). -/
def State.bytesAt (s : State) (a n : Nat) : List Byte :=
  (List.range (min n (s.L - a))).map fun k => s.BUF.read (a + k)

/-- The input collaborator's load: the whole file, with its true length (R162, R194, R196). What the host has parsed of an
earlier file (signature, descriptors, `N`, `G`, `gct`, `S`, grid) stays until its stages parse the new one; the spec does
not say what becomes of it (DESIGN CHOICE, log entry 24). -/
def State.loadBuffer (s : State) (file : List Byte) : State :=
  { s with BUF := Memory.ofBytes 0 file, L := file.length }

/-! ## The bit-stream memory and the code table (R36, R37, R39) -/

/-- The number of bits in the bit-stream memory (R39). -/
abbrev State.BL (s : State) : Nat := s.BS.length

/-- Up to `n` bits of the stream from the bit cursor (R28). -/
def State.bitsAt (s : State) (b n : Nat) : List Bool := (s.BS.drop b).take n

/-- The Clear code value (R36). -/
abbrev State.CLR (s : State) : Nat := s.N

/-- The End-of-Information code value (R36). -/
abbrev State.EOIC (s : State) : Nat := s.N + 1

/-- The table length after any reset (R36). -/
abbrev State.T0 (s : State) : Nat := s.N + 2

/-- The code width after any reset (R36). -/
abbrev State.W0 (s : State) : Nat := s.mcs.toNat + 1

/-- The initial table: one singleton per color, then the two sentinels (R37, R122). -/
def initialTable (n : Nat) : List Entry :=
  (List.range n).map (fun i => Entry.color [i]) ++ [.clearSentinel, .eoiSentinel]

/-- RESET_TABLE (R122). It does not write `prev`, `bp` or `out`. -/
def State.resetTable (s : State) : State :=
  { s with T := initialTable s.N, cw := s.W0, cnt := 0, first := true }

/-- APPEND, the only way the table grows (R128). -/
def State.append (s : State) (colors : List Nat) : State := { s with T := s.T ++ [.color colors] }

/-- What the decoder knows when it classifies a code (R75). -/
def State.codeCtx (s : State) : Ctx := .code s.cw s.N s.T.length

/-! ## Ending a step (R178) -/

/-- Why a meaning does not simply end in the state it built. -/
inductive Stop where
  /-- The block raises a fault (R178): a next state. -/
  | raise (r : Reason)
  /-- A host stage or command fails with a typed error (R150, R161): a next state. -/
  | hostFail (e : HostError)
  /-- The machine stops. -/
  | fault (f : Fault)
  /-- The form is refused. -/
  | refuse (r : Refusal)
  deriving DecidableEq, Repr

/-- `raise E` (R178): the status holds the reason; every other write of the step is discarded, so it is applied to the
state before the step. Nothing is saved, no vector is consulted. -/
def State.raise (s : State) (r : Reason) : State := { s with status := .fault r }

/-- The host is told something (R195). -/
def State.replyWith (s : State) (r : Reply) : State := { s with host := { s.host with reply := r } }

/-- A host stage or command, or a load, reports its typed error (R150). No later stage of the same sequence runs (R161):
the wait of DECODE_FILE ends. The rest of the host's script stays, and its next request is the next step; what the host
does after a failure is left open by the spec (DESIGN CHOICE, log entry 23). -/
def State.hostFail (s : State) (e : HostError) : State :=
  { s with host := { s.host with reply := .error e, job := .none } }

/-- A meaning as a transaction on the state before the step: what it built, or what its stop leaves of that state. -/
def commit (s : State) : Except Stop State → Host.Outcome State Fault Refusal
  | .ok t => .next t
  | .error (.raise r) => .next (s.raise r)
  | .error (.hostFail e) => .next (s.hostFail e)
  | .error (.fault f) => .fault f
  | .error (.refuse r) => .refused r

/-- A fault of a Field Reader command issued on the block's own behalf becomes the run's fault (R100). -/
def onBlock {α : Type} : Except Reason α → Except Stop α
  | .ok a => .ok a
  | .error r => .error (.raise r)

/-- A fault of a Field Reader command issued by the host is the command's result; the host's stage fails with it (R100). -/
def onHost {α : Type} : Except Reason α → Except Stop α
  | .ok a => .ok a
  | .error r => .error (.hostFail (.block r))

/-! ## The starts: the only way out of FAULT and DONE (R179, R190, R191) -/

/-- A start command during a run is a move the host does not have (R198). -/
def State.whenNotRunning (s : State) (act : Except Stop State) : Except Stop State :=
  if s.status.running then .error (.refuse .runInProgress) else act

/-- ASSEMBLE start (R111): status, cursor and an empty bit stream. -/
def State.startAssemble (s : State) (p : Nat) (inRun : Bool) : State :=
  { (s.replyWith .none) with status := .assembling, inRun := inRun, ap := p, BS := [] }

/-- DECODE start on the bits in `BS` (R121): the width check, then the decoder's state created anew (R45). -/
def State.startDecode (s : State) : Except Stop State :=
  if s.MAXW < s.W0 then .error (.raise .codeWidthOverflow)
  else .ok { s.resetTable with status := .decoding, prev := none, bp := 0, out := [] }

end Sys2Proof.Machine
end

