-- ==== Sys2Proof/Machine/Operands.lean ====
section
/-! DEFINITION. Machine/Operands.lean: every way an operand is read: the Field Reader's three reads (R101 to R103), the header bytes (R77 to R80), the table entries a D-step reads (R124), and the fetch of a code (R123). -/

namespace Sys2Proof.Machine

/-! ## The Field Reader (R100): functions of `BUF`, `L` and the operands -/

/-- RD8 (R101). -/
def State.readByte (s : State) (a : Nat) : Except Reason Byte :=
  if s.L ≤ a then .error .malformedHeader else .ok (s.BUF.read a)

/-- RD16LE (R102): no partial value when only the first byte is there. -/
def State.readWord (s : State) (a : Nat) : Except Reason Nat :=
  if s.L ≤ a + 1 then .error .malformedHeader else .ok (le16 (s.BUF.read a) (s.BUF.read (a + 1)))

/-- RDBITS on a legal range (R103). -/
def State.readField (s : State) (a st n : Nat) : Except Reason Nat :=
  if s.L ≤ a then .error .malformedHeader else .ok (byteField (s.BUF.read a) st n)

/-! ## The header bytes (R57, R77 to R80) -/

/-- The first offset from `a` on, among the next `fuel`, that holds the separator (R156). -/
def Memory.findSeparator (m : Memory) : Nat → Nat → Option Nat
  | 0, _ => none
  | fuel + 1, a => if m.read a = Config.separator then some a else Memory.findSeparator m fuel (a + 1)

/-- The least `a` with `start <= a < L` and `BUF[a] = 0x2C` (R156). -/
def State.findSeparator (s : State) (start : Nat) : Option Nat := s.BUF.findSeparator (s.L - start) start

/-- Where the host has the Field Reader look for a header byte of each format (R57); for SEP the scan starts after the
color table the host has extracted (R79). -/
def State.headerOffset (s : State) : HeaderKind → Option Nat
  | .pk10 => some Config.pk10Offset
  | .pk9 => some (s.host.S + Config.pk9Distance)
  | .sep => s.findSeparator (Config.headerLength + s.host.G)
  | .mcs => some (s.host.S + Config.mcsDistance)

/-- The screen descriptor's packed byte, field by field (R77, R152). -/
def Screen.withPk10 (d : Screen) (g : BitVec 1) (r : BitVec 3) (st : BitVec 1) (e : BitVec 3) : Screen :=
  { d with gctFlag := g, colorRes := r, sortFlag := st, e := e }

/-- The image descriptor's packed byte, field by field (R78, R157). -/
def Image.withPk9 (d : Image) (lct il st : BitVec 1) (rs : BitVec 2) (e : BitVec 3) : Image :=
  { d with lctFlag := lct, interlace := il, sortFlag := st, reserved := rs, lctExp := e }

/-! ## What a D-step reads (R123, R124) -/

/-- The color sequence of a table entry, as its first color and the rest; the spec's rules read color entries alone
(R124), which hold at least one color (R37). -/
def State.colorsAt (s : State) (c : Nat) : Except Stop (Nat × List Nat) :=
  match s.T[c]? with
  | some (.color (x :: xs)) => .ok (x, xs)
  | some (.color []) => .error (.fault .noColorEntry)
  | some .clearSentinel => .error (.fault .noColorEntry)
  | some .eoiSentinel => .error (.fault .noColorEntry)
  | none => .error (.fault .noColorEntry)

/-- The color sequence of the previous code (R127, R129); reading it while unwritten stops (U3). -/
def State.prevColors (s : State) : Except Stop (Nat × List Nat) :=
  match s.prev with
  | none => .error (.fault .prevUnwritten)
  | some p => s.colorsAt p

/-- A D-step around its class rule (R132): enabled when `status = DECODING` (R120); FETCH moves the bit cursor by the
width in force, or raises when the bits do not suffice (R123); then the class the code map gives the value (R124). -/
def State.dStep (s : State) (cls : CodeClass) (code : Nat) (body : State → Except Stop State) : Except Stop State :=
  if s.status ≠ .decoding then .error (.refuse .decoderNotEnabled)
  else if s.BL < s.bp + s.cw then .error (.raise .truncatedStream)
  else if classify s.N s.T.length code ≠ cls then .error (.refuse .notThisClass)
  else body { s with bp := s.bp + s.cw }

/-- An A-step around its record rule: enabled when `status = ASSEMBLING` (R112, R114); a record that runs past the
buffer, or has no length byte, raises (R113). `len` is the whole record's length in bytes. -/
def State.aStep (s : State) (len : Nat) (body : State → Except Stop State) : Except Stop State :=
  if s.status ≠ .assembling then .error (.refuse .assemblerNotEnabled)
  else if s.L < s.ap + len then .error (.raise .truncatedStream)
  else body { s with ap := s.ap + len }

end Sys2Proof.Machine
end

