-- ==== Sys2Proof/Machine/BlockCommands.lean ====
section
/-! DEFINITION. Machine/BlockCommands.lean: the start commands ASSEMBLE, DECODE and RUN (R111, R121, R133). Each makes the state its run starts from; the A-steps and D-steps it repeats are the steps that follow (D2, log entry 1). -/

namespace Sys2Proof.Machine

/-- ASSEMBLE p (R111): `p` is not checked against `L` here. Nor is it checked that a file was ever loaded: before any load
the run starts on the empty buffer of power-on, `L = 0`, and its first A-step raises TruncatedStream (R30; DESIGN CHOICE,
log entry 25). -/
def execAssemble (p : Nat) (s : State) : Host.Outcome State Fault Refusal :=
  commit s (s.whenNotRunning (.ok (s.startAssemble p false)))

/-- DECODE bits, mcs, N (R121). Any bit sequence is taken, of a length that is no multiple of 8 too, although `BL` after the
assembler always is one (R39): the spec leaves that open for a bare DECODE (DESIGN CHOICE, log entry 22). -/
def execDecode (bits : List Bool) (m : Byte) (n : Nat) (s : State) : Host.Outcome State Fault Refusal :=
  commit s (s.whenNotRunning (
    if legalColorCount n then
      State.startDecode { (s.replyWith .none) with BS := bits, mcs := m, N := n, inRun := false }
    else .error (.refuse .colorCountZero)))

/-- The start of RUN (R133): the inputs latched, `mcs` read by the Field Reader on the block's behalf (R33, D7), the
assembler started at `S + 11`. -/
def State.startRun (s : State) (sp n : Nat) : Except Stop State :=
  match onBlock (s.readByte (sp + Config.mcsDistance)) with
  | .ok m => .ok (State.startAssemble { s with S := sp, N := n, mcs := m } (sp + Config.recordsDistance) true)
  | .error e => .error e

/-- RUN S, N (R133). Before any load its read of the minimum code size meets `L = 0` (DESIGN CHOICE, log entry 25). -/
def execRun (sp n : Nat) (s : State) : Host.Outcome State Fault Refusal :=
  commit s (s.whenNotRunning (
    if legalColorCount n then s.startRun sp n else .error (.refuse .colorCountZero)))

end Sys2Proof.Machine
end

