-- ==== Sys2Proof/Machine/Flags.lean ====
section
/-! DEFINITION. Machine/Flags.lean: the decoder's one flag `first` (R25) and the tail that keeps `cnt`, `prev` and `cw` (R131). -/

namespace Sys2Proof.Machine

/-- The flag is cleared by a KNOWN step that finds it set (R25, R127). -/
def State.clearFirst (s : State) : State := { s with first := false }

/-- The count at which the width grows: `2^(cw-1)` (R13, R131). -/
def State.threshold (s : State) : Nat := 2 ^ (s.cw - 1)

/-- TAIL (R131): count the code, remember it, and grow the width when the count reaches the threshold of the width
before the growth; growing past `MAXW` raises (D5). -/
def State.tail (s : State) (code : Nat) : Except Stop State :=
  if s.cnt + 1 = s.threshold then
    if s.cw = s.MAXW then .error (.raise .codeWidthOverflow)
    else .ok { s with cnt := 0, prev := some code, cw := s.cw + 1 }
  else .ok { s with cnt := s.cnt + 1, prev := some code }

end Sys2Proof.Machine
end

