-- ==== Sys2Proof/Machine/Codes.lean ====
section
/-! DEFINITION. Machine/Codes.lean: the five code classes of the LZW Decoder (R125 to R130). -/

namespace Sys2Proof.Machine

/-- CLEAR (R125): RESET_TABLE; no output, no append, `prev` unchanged, no tail. -/
def execClear (s : State) : Host.Outcome State Fault Refusal :=
  commit s (s.dStep .clear s.CLR fun t => .ok t.resetTable)

/-- EOI (R126): the run ends successfully; `out` is the result. -/
def execEoi (s : State) : Host.Outcome State Fault Refusal :=
  commit s (s.dStep .eoi s.EOIC fun t => .ok { t with status := .done })

/-- The table extension of a KNOWN step (R127): none on the first code after a reset, which clears the flag; else the
previous code's sequence with `x`, the first color of this code's sequence. -/
def State.extendKnown (t : State) (x : Nat) : Except Stop State :=
  if t.first then .ok t.clearFirst
  else match t.prevColors with
    | .ok (y, ys) => .ok (t.append (y :: ys ++ [x]))
    | .error e => .error e

/-- The class rule of KNOWN past the fetch (R127): emit the entry, extend the table from the table as it stood at the
start of the step (R128), then the tail. -/
def State.knownStep (code : Nat) (t : State) : Except Stop State :=
  match t.colorsAt code with
  | .error e => .error e
  | .ok (x, xs) =>
    match t.extendKnown x with
    | .error e => .error e
    | .ok u => State.tail { u with out := u.out ++ x :: xs } code

/-- KNOWN (R127). -/
def execKnown (code : Nat) (s : State) : Host.Outcome State Fault Refusal :=
  commit s (s.dStep .known code (State.knownStep code))

/-- The class rule of KWKWK past the fetch (R129): the code names the entry this step creates; directly after a reset
it is corrupt (D4). -/
def State.kwkwkStep (code : Nat) (t : State) : Except Stop State :=
  if t.first then .error (.raise .corruptCodeStream)
  else match t.prevColors with
    | .error e => .error e
    | .ok (x, xs) => State.tail (State.append { t with out := t.out ++ (x :: xs ++ [x]) } (x :: xs ++ [x])) code

/-- KWKWK (R129). -/
def execKwkwk (code : Nat) (s : State) : Host.Outcome State Fault Refusal :=
  commit s (s.dStep .kwkwk code (State.kwkwkStep code))

/-- CORRUPT (R130): always the fault CorruptCodeStream. -/
def execCorrupt (code : Nat) (s : State) : Host.Outcome State Fault Refusal :=
  commit s (s.dStep .corrupt code fun _ => .error (.raise .corruptCodeStream))

end Sys2Proof.Machine
end

