-- ==== Sys2Proof/Machine/FieldReader.lean ====
section
/-! DEFINITION. Machine/FieldReader.lean: the three Field Reader commands as the host issues them (R100 to R104): a value or MalformedHeader, and no state of the block changed. -/

namespace Sys2Proof.Machine

/-- A Field Reader result handed to the host (R195). -/
def State.replyValue (s : State) (x : Except Reason Nat) : Except Stop State :=
  match onHost x with
  | .ok v => .ok (s.replyWith (.value v))
  | .error e => .error e

/-- RD8 (R101). -/
def execRd8 (a : Nat) (s : State) : Host.Outcome State Fault Refusal :=
  commit s (s.replyValue ((s.readByte a).map BitVec.toNat))

/-- RD16LE (R102). -/
def execRd16le (a : Nat) (s : State) : Host.Outcome State Fault Refusal :=
  commit s (s.replyValue (s.readWord a))

/-- RDBITS (R103); a range that is empty or leaves the byte is not a command (D9). -/
def execRdbits (a st n : Nat) (s : State) : Host.Outcome State Fault Refusal :=
  commit s (if legalRange st n then s.replyValue (s.readField a st n) else .error (.refuse .rangeNotACommand))

end Sys2Proof.Machine
end

