-- ==== Sys2Proof/Machine/HeaderBytes.lean ====
section
/-! DEFINITION. Machine/HeaderBytes.lean: the header bytes the Field Reader is applied to on the host's command (R70, R77 to R80): what each, once decoded, leaves in the registers (log entry 17). -/

namespace Sys2Proof.Machine

/-- PK10 (R77, R152): the four fields of the screen descriptor's packed byte. -/
def execPk10 (g : BitVec 1) (r : BitVec 3) (st : BitVec 1) (e : BitVec 3) (s : State) : Host.Outcome State Fault Refusal :=
  .next ({ s with host := { s.host with screen := s.host.screen.withPk10 g r st e } }.replyWith .stageDone)

/-- PK9 (R78, R157): the five fields of the image descriptor's packed byte. The reserved bits may have any value. -/
def execPk9 (lct il st : BitVec 1) (rs : BitVec 2) (e : BitVec 3) (s : State) : Host.Outcome State Fault Refusal :=
  .next ({ s with host := { s.host with image := s.host.image.withPk9 lct il st rs e } }.replyWith .stageDone)

/-- SEP (R79): a marker; the host keeps its offset `S`, the first such byte at or after `13 + G`. -/
def execSep (s : State) : Host.Outcome State Fault Refusal :=
  commit s (match s.findSeparator (Config.headerLength + s.host.G) with
    | none => .error (.hostFail .imageDescriptorNotFound)
    | some a => .ok ({ s with host := { s.host with S := a } }.replyWith (.value a)))

/-- MCS (R80, R33): all 8 bits are the minimum code size. The register is read-only during a run. -/
def execMcs (m : Byte) (s : State) : Host.Outcome State Fault Refusal :=
  commit s (s.whenNotRunning (.ok ({ s with mcs := m }.replyWith (.value m.toNat))))

end Sys2Proof.Machine
end

