-- ==== Sys2Proof/Machine/HostSequences.lean ====
section
/-! DEFINITION. Machine/HostSequences.lean: the host's sequences of Field Reader commands (43_host_pipeline.md R151 to R161). A stage that fails leaves its typed error and nothing else (log entry 15). -/

namespace Sys2Proof.Machine

/-- A 16-bit field read by the host. -/
def State.hostWord (s : State) (a : Nat) : Except Stop (BitVec 16) := (onHost (s.readWord a)).map (BitVec.ofNat 16)

/-- A byte read by the host. -/
def State.hostByte (s : State) (a : Nat) : Except Stop Byte := onHost (s.readByte a)

/-- A bit range read by the host. -/
def State.hostField (s : State) (w a st : Nat) : Except Stop (BitVec w) :=
  (onHost (s.readField a st w)).map (BitVec.ofNat w)

/-- The signature is valid ASCII: every byte at most `0x7F` (R151, D18). -/
def asciiBytes (bs : List Byte) : Bool := bs.all fun b => decide (b.toNat ≤ Config.asciiMax)

/-- The screen descriptor, read by its commands (R152). -/
def State.readScreen (s : State) : Except Stop Screen := do
  let width ← s.hostWord 6
  let height ← s.hostWord 8
  let g ← s.hostField 1 Config.pk10Offset 0
  let r ← s.hostField 3 Config.pk10Offset 1
  let st ← s.hostField 1 Config.pk10Offset 4
  let e ← s.hostField 3 Config.pk10Offset 5
  let background ← s.hostByte 11
  let aspect ← s.hostByte 12
  return ⟨width, height, g, r, st, e, background, aspect⟩

/-- The stage PARSE_HEADER (R151, R152). -/
def State.parseHeader (s : State) : Except Stop State :=
  if s.L < Config.headerLength then .error (.hostFail (.block .malformedHeader))
  else if asciiBytes (s.bytesAt 0 Config.signatureLength) then
    s.readScreen.map fun d =>
      { s with host := { s.host with sig := s.bytesAt 0 Config.signatureLength, screen := d } }
  else .error (.hostFail (.block .malformedHeader))

/-- The number of colors of a table-size exponent: `2^(e+1)` (R154). -/
def colorCount (e : BitVec 3) : Nat := 2 ^ (e.toNat + 1)

/-- The RGB triples of a table of `n` colors, from offset 13 (R154). -/
def State.triples (s : State) (n : Nat) : List Rgb :=
  (List.range n).map fun i =>
    ⟨s.BUF.read (Config.headerLength + 3 * i), s.BUF.read (Config.headerLength + 3 * i + 1),
      s.BUF.read (Config.headerLength + 3 * i + 2)⟩

/-- The stage EXTRACT_GCT (R154, R155). -/
def State.extractGct (s : State) (e : BitVec 3) : Except Stop State :=
  if s.L < Config.headerLength + 3 * colorCount e then .error (.hostFail .invalidColorTableSize)
  else .ok { s with host := { s.host with
    N := colorCount e, G := 3 * colorCount e, gct := s.triples (colorCount e) } }

/-- The image descriptor behind the separator at `a`, read by its commands (R157). -/
def State.readImage (s : State) (a : Nat) : Except Stop Image := do
  let left ← s.hostWord (a + 1)
  let top ← s.hostWord (a + 3)
  let width ← s.hostWord (a + 5)
  let height ← s.hostWord (a + 7)
  let lct ← s.hostField 1 (a + Config.pk9Distance) 0
  let il ← s.hostField 1 (a + Config.pk9Distance) 1
  let st ← s.hostField 1 (a + Config.pk9Distance) 2
  let rs ← s.hostField 2 (a + Config.pk9Distance) 3
  let e ← s.hostField 3 (a + Config.pk9Distance) 5
  return ⟨left, top, width, height, lct, il, st, rs, e⟩

/-- The stage LOCATE_IMAGE: the scan of R156, then the reads of R157, as the opcode table expands the row LOCATE_IMAGE.
A stage that fails leaves none of its registers (log entry 15), so a truncated descriptor leaves `S` as it was. -/
def State.locateImage (s : State) (g : Nat) : Except Stop State :=
  match s.findSeparator (Config.headerLength + g) with
  | none => .error (.hostFail .imageDescriptorNotFound)
  | some a => (s.readImage a).map fun d => { s with host := { s.host with S := a, image := d } }

/-- The rows of a flat color sequence (R159). -/
def gridRows (colors : List Nat) (w : Nat) : List (List Nat) :=
  (List.range (colors.length / w)).map fun r => (colors.drop (r * w)).take w

/-- The stage BUILD_GRID (R159, R160). -/
def State.buildGrid (s : State) (colors : List Nat) (w : Nat) : Except Stop State :=
  if w = 0 ∨ colors.length % w ≠ 0 then .error (.hostFail .dimensionMismatch)
  else .ok { s with host := { s.host with grid := gridRows colors w } }

/-! ## Resolving colors (R163): the host's view of its indices through its color table -/

/-- The RGB triple `GCT[i]` of a color index (R163); none where the table has no such entry. -/
def HostState.colorOf (h : HostState) (i : Nat) : Option Rgb := h.gct[i]?

/-- A sequence of color indices resolved, if each of them is in the table (R163). -/
def HostState.resolve (h : HostState) : List Nat → Option (List Rgb)
  | [] => some []
  | i :: is =>
    match h.colorOf i, h.resolve is with
    | some c, some cs => some (c :: cs)
    | _, _ => none

/-- Rows of color indices resolved. -/
def HostState.resolveRows (h : HostState) : List (List Nat) → Option (List (List Rgb))
  | [] => some []
  | row :: rows =>
    match h.resolve row, h.resolveRows rows with
    | some r, some rs => some (r :: rs)
    | _, _ => none

/-- The pixel grid as RGB triples (R161: "each resolvable to an RGB triple via the global color table"; R163). -/
def HostState.rgbGrid (h : HostState) : Option (List (List Rgb)) := h.resolveRows h.grid

/-- A stage that succeeds tells the host so. -/
def stageDone (x : Except Stop State) : Except Stop State := x.map (·.replyWith .stageDone)

/-- PARSE_HEADER (R151, R152). -/
def execParseHeader (s : State) : Host.Outcome State Fault Refusal := commit s (stageDone s.parseHeader)

/-- EXTRACT_GCT e (R154). -/
def execExtractGct (e : BitVec 3) (s : State) : Host.Outcome State Fault Refusal := commit s (stageDone (s.extractGct e))

/-- LOCATE_IMAGE G (R156, R157). -/
def execLocateImage (g : Nat) (s : State) : Host.Outcome State Fault Refusal := commit s (stageDone (s.locateImage g))

/-- BUILD_GRID out, w (R159). -/
def execBuildGrid (colors : List Nat) (w : Nat) (s : State) : Host.Outcome State Fault Refusal :=
  commit s (stageDone (s.buildGrid colors w))

/-- RUN issued by the host's sequence (R158): if its start raises, the run is over with that fault. -/
def State.issueRun (s : State) : State :=
  match s.startRun s.host.S s.host.N with
  | .ok t => t
  | .error (.raise r) => (s.replyWith .none).raise r
  | .error (.hostFail _) | .error (.fault _) | .error (.refuse _) => s

/-- The stages of DECODE_FILE up to the hand-off, in order, each only if all before it succeeded (R161). -/
def State.fileStages (s : State) : Except Stop State :=
  match s.parseHeader with
  | .error e => .error e
  | .ok s1 =>
    match s1.extractGct s1.host.screen.e with
    | .error e => .error e
    | .ok s2 => s2.locateImage s2.host.G

/-- DECODE_FILE (R161): the host's stages, then RUN is issued and the host waits (R158). BUILD_GRID, or the passing on
of the run's fault, is the step that follows the end of the run (`fetchHost`; log entry 16). -/
def execDecodeFile (s : State) : Host.Outcome State Fault Refusal :=
  commit s (s.whenNotRunning (s.fileStages.map fun t =>
    { t.issueRun with host := { t.issueRun.host with job := .awaitRun } }))

end Sys2Proof.Machine
end

