-- ==== Sys2Proof/Machine/Records.lean ====
section
/-! DEFINITION. Machine/Records.lean: the two sub-block records of the Sub-block Assembler (R112 to R114). -/

namespace Sys2Proof.Machine

/-- DATA (R112): the payload's bits appended, least significant first in each byte, and the cursor past the record. -/
def execData (payload : List Byte) (s : State) : Host.Outcome State Fault Refusal :=
  commit s (if legalPayload payload then
      s.aStep (1 + payload.length) fun t => .ok { t with BS := t.BS ++ bytesBits payload }
    else .error (.refuse .illegalPayload))

/-- The end of the assembler's work (R114): inside RUN the decoder starts on the assembled bits (R133); a bare ASSEMBLE
hands its bits to the host and leaves no run (R195; the status is log entry 8). -/
def State.finishAssemble (t : State) : Except Stop State :=
  if t.inRun then t.startDecode else .ok { (t.replyWith (.bits t.BS)) with status := .idle }

/-- TERM (R114): the cursor past the terminator, and the phase ends. -/
def execTerm (s : State) : Host.Outcome State Fault Refusal :=
  commit s (s.aStep 1 State.finishAssemble)

end Sys2Proof.Machine
end

