-- ==== Sys2Proof/Machine/Dispatch.lean ====
section
/-! DEFINITION. Machine/Dispatch.lean: one arm per constructor of Instr. -/

namespace Sys2Proof.Machine

def exec (i : Instr) (s : State) : Host.Outcome State Fault Refusal :=
  match i with
  -- the LZW Decoder's code classes
  | .clear => Sys2Proof.Machine.execClear s
  | .eoi => Sys2Proof.Machine.execEoi s
  | .known code => Sys2Proof.Machine.execKnown code s
  | .kwkwk code => Sys2Proof.Machine.execKwkwk code s
  | .corrupt code => Sys2Proof.Machine.execCorrupt code s
  -- the Sub-block Assembler's records
  | .data payload => Sys2Proof.Machine.execData payload s
  | .term => Sys2Proof.Machine.execTerm s
  -- the header bytes
  | .pk10 g r st e => Sys2Proof.Machine.execPk10 g r st e s
  | .pk9 lct il st rs e => Sys2Proof.Machine.execPk9 lct il st rs e s
  | .sep => Sys2Proof.Machine.execSep s
  | .mcs m => Sys2Proof.Machine.execMcs m s
  -- the Field Reader's commands
  | .rd8 a => Sys2Proof.Machine.execRd8 a s
  | .rd16le a => Sys2Proof.Machine.execRd16le a s
  | .rdbits a st n => Sys2Proof.Machine.execRdbits a st n s
  -- the block's commands
  | .assemble p => Sys2Proof.Machine.execAssemble p s
  | .decode bits m n => Sys2Proof.Machine.execDecode bits m n s
  | .run sp n => Sys2Proof.Machine.execRun sp n s
  -- the host's sequences
  | .parseHeader => Sys2Proof.Machine.execParseHeader s
  | .extractGct e => Sys2Proof.Machine.execExtractGct e s
  | .locateImage g => Sys2Proof.Machine.execLocateImage g s
  | .buildGrid colors w => Sys2Proof.Machine.execBuildGrid colors w s
  | .decodeFile => Sys2Proof.Machine.execDecodeFile s

end Sys2Proof.Machine
end

