-- ==== Sys2Proof/Machine/Fetch.lean ====
section
/-! DEFINITION. Machine/Fetch.lean: which step is next (R21, R35, R198): a record at `ap`, a code at `bp`, the host's waiting sequence, or the next request of the host's script. -/

namespace Sys2Proof.Machine

/-- What the next step is. -/
inductive Fetched where
  /-- The instruction to run, and the state to run it on. -/
  | run (i : Instr) (s : State)
  /-- The next state, where the fetch itself raises, or the host does something that is no instruction. -/
  | done (s : State)
  /-- What the host asks for is refused. -/
  | refuse (r : Refusal)
  /-- No step is enabled. -/
  | nothing

/-- The next A-step (R112 to R114): the record at `ap`; no length byte, or a length that runs past the buffer, raises
TruncatedStream (R113). -/
def fetchRecord (s : State) : Fetched :=
  match decode .record (.bytes (s.bytesAt s.ap Config.longestRecord)) with
  | .ok i => .run i s
  | .error _ => .done (s.raise .truncatedStream)

/-- The next D-step (R123, R124): the code at `bp`, classified; too few bits raise TruncatedStream. -/
def fetchCode (s : State) : Fetched :=
  match decode s.codeCtx (.bits (s.bitsAt s.bp s.cw)) with
  | .ok i => .run i s
  | .error _ => .done (s.raise .truncatedStream)

/-- A header byte read and decoded by the Field Reader on the host's command (R70, R100). -/
def fetchHeader (k : HeaderKind) (s : State) : Fetched :=
  match s.headerOffset k with
  | none => .done (s.hostFail .imageDescriptorNotFound)
  | some a =>
    match decode (.header k) (.bytes (s.bytesAt a 1)) with
    | .ok i => .run i s
    | .error _ => .done (s.hostFail (.block .malformedHeader))

/-- One request of the host, on the state that no longer holds it. -/
def fetchRequest (r : Request) (s : State) : Fetched :=
  match r with
  | .load none => .done (s.hostFail .fileNotFound)
  | .load (some file) => .done ((s.loadBuffer file).replyWith .stageDone)
  | .header k => fetchHeader k s
  | .command i => if i.isCommand then .run i s else .refuse .notACommand

/-- The rest of DECODE_FILE has been taken up (R158). -/
def State.endJob (s : State) : State := { s with host := { s.host with job := .none } }

/-- The host's script without its first request. -/
def State.popQueue (s : State) : State := { s with host := { s.host with queue := s.host.queue.tail } }

/-- The next request of the host's script, in order. -/
def fetchQueue (s : State) : Fetched :=
  match s.host.queue with
  | [] => .nothing
  | r :: _ => fetchRequest r s.popQueue

/-- The host's move between runs. DECODE_FILE's wait is over when the run has ended: on DONE it takes `out` and builds
the grid, on FAULT it fails with the reason (R158, R161). Otherwise the script goes on. -/
def fetchHost (s : State) : Fetched :=
  match s.host.job, s.status with
  | .awaitRun, .done => .run (.buildGrid s.out s.host.image.width.toNat) s.endJob
  | .awaitRun, .fault r => .done (s.hostFail (.block r))
  | .awaitRun, .idle => fetchQueue s
  | .awaitRun, .assembling => fetchQueue s
  | .awaitRun, .decoding => fetchQueue s
  | .none, _ => fetchQueue s

/-- The next step: A-steps while ASSEMBLING, D-steps while DECODING, the host's move otherwise (R21, R35, R198). -/
def fetch (s : State) : Fetched :=
  match s.status with
  | .assembling => fetchRecord s
  | .decoding => fetchCode s
  | .idle => fetchHost s
  | .done => fetchHost s
  | .fault _ => fetchHost s

/-- The table word's bytes stored at the assembler's cursor, in a buffer long enough to hold them, with the assembler
at work: its next A-step reads them. -/
def State.placeRecord (s : State) (bytes : List Byte) : State :=
  { s with BUF := s.BUF.writeBytes s.ap bytes, L := max s.L (s.ap + bytes.length), status := .assembling }

/-- The byte stored where the host's scan starts, in a buffer long enough to hold it, no run in progress, and the
host's next request that the scan be made. -/
def State.placeSeparator (s : State) (b : Byte) : State :=
  { s with
    BUF := s.BUF.write (Config.headerLength + s.host.G) b
    L := max s.L (Config.headerLength + s.host.G + 1)
    status := .idle
    host := { s.host with job := .none, queue := .header .sep :: s.host.queue } }

/-- An opcode-table word placed where the machine reads its next instruction (log entry 4). -/
def State.placeWord (s : State) (nbits w : Nat) : State :=
  if isSeparatorWord nbits w then s.placeSeparator Config.separator else s.placeRecord (tableBytes nbits w)

end Sys2Proof.Machine
end

