-- ==== Sys2Proof/Machine/Step.lean ====
section
/-! DEFINITION. Machine/Step.lean: one step of the machine, and the placing of an instruction where the next step reads it. -/

namespace Sys2Proof.Machine

/-- One step: what `fetch` finds is run by `exec`. -/
def step (s : State) : Host.Outcome State Fault Refusal :=
  match fetch s with
  | .run i t => exec i t
  | .done t => .next t
  | .refuse r => .refused r
  | .nothing => .fault .noStepEnabled

/-- The state in which the very next step runs the instruction of this opcode-table word (log entry 4). -/
def State.withFetchWord (s : State) (nbits w : Nat) : State := s.placeWord nbits w

end Sys2Proof.Machine
end

