-- ==== Sys2Proof/Safety.lean ====
section
/-! DEFINITION. Safety.lean: the invariant of the machine (R26, R37, R40, R135), what the host can observe (R44), what two machines have in common for the host (R42, R191), and the bounds on the length of a run (R115, R134, R204). -/

namespace Sys2Proof

/-- An item with more of its kind behind it, as it stands in a stream. -/
def Item.followedBy : Item → Item → Item
  | .bytes x, .bytes y => .bytes (x ++ y)
  | .bits x, .bits y => .bits (x ++ y)
  | .bytes x, .bits _ => .bytes x
  | .bits x, .bytes _ => .bits x

end Sys2Proof

namespace Sys2Proof.Machine

/-- A color sequence over `n` colors (R37, R40). -/
def colorsBelow (n : Nat) (colors : List Nat) : Prop := ∀ c ∈ colors, c < n

/-- The table is the initial entries followed by color entries of at least two colors each, all below `N` (R37). -/
def State.tableOk (s : State) : Prop :=
  ∃ ext : List (List Nat), s.T = initialTable s.N ++ ext.map Entry.color ∧
    ∀ x ∈ ext, 2 ≤ x.length ∧ colorsBelow s.N x

/-- How many codes have been counted since the last reset of the table: `2^(v-1)` at each width `v` below `cw`, from
`mcs + 1` on, and `cnt` at `cw` (R76, R135). -/
def State.counted (s : State) : Nat := s.cnt + 2 ^ (s.cw - 1) - 2 ^ s.mcs.toNat

/-- What holds of the decoder at DECODE start and at the end of every D-step (R26, R37, R135). -/
structure State.DecoderInv (s : State) : Prop where
  /-- R6. -/
  colorCount : 1 ≤ s.N
  /-- R37. -/
  table : s.tableOk
  /-- R22, R135: `mcs + 1 <= cw <= MAXW`. -/
  widthLow : s.W0 ≤ s.cw
  widthHigh : s.cw ≤ s.MAXW
  /-- R23, R135: `cnt < 2^(cw-1)`. -/
  count : s.cnt < s.threshold
  /-- R28, R29. -/
  cursor : s.bp ≤ s.BL
  /-- R40, R135. -/
  emitted : colorsBelow s.N s.out
  /-- R26. -/
  previous : s.first = false → ∃ p, s.prev = some p ∧ p < s.T.length ∧ p ≠ s.CLR ∧ p ≠ s.EOIC
  /-- R25, R135: nothing counted, nothing appended. -/
  fresh : s.first = true → s.counted = 0 ∧ s.T.length = s.T0
  /-- R135: `|T| = N + 2 + (k - 1)` for `k >= 1` counted codes. -/
  grown : s.first = false → 1 ≤ s.counted ∧ s.T.length + 1 = s.T0 + s.counted

/-- A status of the fault kind (R35). -/
def Status.isFault : Status → Bool
  | .fault _ => true
  | .idle | .assembling | .decoding | .done => false

/-- The invariant of the whole machine. -/
structure State.Inv (s : State) : Prop where
  /-- The buffer is in canonical form (log entry 5). -/
  memory : s.BUF.wf
  /-- The buffer holds nothing at or above `L` (R38). -/
  bounded : ∀ c ∈ s.BUF, c.1 < s.L
  /-- R39: whole bytes have been assembled. -/
  wholeBytes : s.status = .assembling → s.BL % 8 = 0
  /-- R6: RUN has latched a legal color count. -/
  runColors : s.status = .assembling → s.inRun = true → 1 ≤ s.N
  decoder : s.status = .decoding → s.DecoderInv
  /-- R40: what is handed to the host. -/
  result : s.status = .done → colorsBelow s.N s.out
  /-- R154, R163: the host's color table has one triple for each of its `N` colors. -/
  tableSize : s.host.gct.length = s.host.N
  /-- R158: while the host waits for the run it issued, there is one, or its end, and it was issued with the host's `N`. -/
  waiting : s.host.job = .awaitRun →
    s.status ≠ .idle ∧ (s.status = .assembling → s.inRun = true) ∧ (s.status.isFault = false → s.N = s.host.N)

/-- What the host can observe of the block (R44). -/
inductive Observation where
  /-- No run. -/
  | idle
  /-- A run is in progress: the host observes nothing. -/
  | nothing
  /-- After DONE the host reads `out`, whole. -/
  | result (out : List Nat)
  /-- After FAULT the host reads the reason and nothing else. -/
  | failed (r : Reason)
  deriving DecidableEq, Repr

/-- R44. -/
def State.observe (s : State) : Observation :=
  match s.status with
  | .idle => .idle
  | .assembling => .nothing
  | .decoding => .nothing
  | .done => .result s.out
  | .fault r => .failed r

/-- Two machines the host cannot tell apart: the same instance parameter and buffer (R41), the same host, and the same
observation of the block (R44). -/
structure SameToHost (s t : State) : Prop where
  maxw : s.MAXW = t.MAXW
  buf : s.BUF = t.BUF
  len : s.L = t.L
  host : s.host = t.host
  seen : s.observe = t.observe

/-- Two outcomes the host cannot tell apart. -/
def SameOutcome : Host.Outcome State Fault Refusal → Host.Outcome State Fault Refusal → Prop
  | .next s, .next t => SameToHost s t
  | .fault f, .fault g => f = g
  | .refused r, .refused q => r = q
  | _, _ => False

/-- The most A-steps a run still takes (R115). -/
def State.aStepsLeft (s : State) : Nat := s.L - s.ap + 1

/-- The most steps a run in progress still takes (R115, R134, R204): the A-steps, then one D-step for each bit there
can be, and one more. -/
def State.stepsLeft (s : State) : Nat :=
  match s.status with
  | .assembling => s.aStepsLeft + (s.BL + 8 * (s.L - s.ap) + 1)
  | .decoding => s.BL - s.bp + 1
  | .idle => 0
  | .done => 0
  | .fault _ => 0

end Sys2Proof.Machine
end

