-- ==== Sys2Proof/Certificates/Slice0/Obligations.lean ====
section
/-! DEFINITION. Certificates/Slice0/Obligations.lean: the statements for the provers, from the numbered rules of spec/. The registers of the host's side, `host.reply` among them, are the model's place for what the spec says is returned to the host (log entry 19). -/

open Sys2Proof Sys2Proof.Machine

/-! ## The Field Reader -/

/-- R101, R100: RD8 gives the unsigned byte when `a < L` and MalformedHeader when `a >= L`, and only then; no state of
the block is written. Where the answer stands, and that an error ends the host's job, are the model's choice (log entry
19, DESIGN CHOICE). -/
def Obligations.Rd8GivesByteOrMalformedHeader : Prop :=
  ∀ (s : State) (a : Nat),
    (a < s.L → exec (.rd8 a) s = .next { s with host := { s.host with
      reply := .value (s.BUF.read a).toNat } }) ∧
    (s.L ≤ a → exec (.rd8 a) s = .next { s with host := { s.host with
      reply := .error (.block .malformedHeader), job := .none } })

/-- R102, R100: RD16LE gives `BUF[a] + 256 * BUF[a+1]` when both bytes are in range, else MalformedHeader and no
partial value; no state of the block is written. Where the answer stands, and that an error ends the host's job, are the
model's choice (log entry 19, DESIGN CHOICE). -/
def Obligations.Rd16leGivesWordOrMalformedHeader : Prop :=
  ∀ (s : State) (a : Nat),
    (a + 2 ≤ s.L → exec (.rd16le a) s = .next { s with host := { s.host with
      reply := .value ((s.BUF.read a).toNat + 256 * (s.BUF.read (a + 1)).toNat) } }) ∧
    (s.L < a + 2 → exec (.rd16le a) s = .next { s with host := { s.host with
      reply := .error (.block .malformedHeader), job := .none } })

/-- R103, R100: on a legal range RDBITS gives `(b div 2^(8-s-n)) mod 2^n`, which is the sum of the field bits with the
lower-numbered bit the more significant; out of bounds it is MalformedHeader; other ranges are no command (refused by
name, log entry 11). Where the answer stands, and that an error ends the host's job, are the model's choice (log entry
19, DESIGN CHOICE). -/
def Obligations.RdbitsGivesFieldOrMalformedHeader : Prop :=
  ∀ (s : State) (a st n : Nat),
    (1 ≤ n → st + n ≤ 8 → a < s.L → ∃ v : Nat,
      exec (.rdbits a st n) s = .next { s with host := { s.host with
      reply := .value v } } ∧
      v = (s.BUF.read a).toNat / 2 ^ (8 - st - n) % 2 ^ n ∧
      v = ((List.range n).map fun i => (fbit (s.BUF.read a) (st + i)).toNat * 2 ^ (n - 1 - i)).sum) ∧
    (1 ≤ n → st + n ≤ 8 → s.L ≤ a → exec (.rdbits a st n) s = .next { s with host := { s.host with
      reply := .error (.block .malformedHeader), job := .none } }) ∧
    (n = 0 ∨ 8 < st + n → exec (.rdbits a st n) s = .refused .rangeNotACommand)

/-- R105: how the three reads of one buffer are related. -/
def Obligations.FieldReaderReadsAgree : Prop :=
  ∀ (b c : Byte),
    le16 b c = b.toNat + 256 * c.toNat ∧ byteField b 0 8 = b.toNat ∧
    (∀ st n m : Nat, st + n + m ≤ 8 →
      byteField b st (n + m) = byteField b st n * 2 ^ m + byteField b (st + n) m) ∧
    b.toNat = 128 * byteField b 0 1 + 16 * byteField b 1 3 + 8 * byteField b 4 1 + byteField b 5 3 ∧
    b.toNat = 128 * byteField b 0 1 + 64 * byteField b 1 1 + 32 * byteField b 2 1 + 8 * byteField b 3 2 +
      byteField b 5 3

/-- R100: a Field Reader command changes nothing but what the host is told, and what it tells depends on `BUF`, `L` and
the operands alone. -/
def Obligations.FieldReaderIsPure : Prop :=
  ∀ (i : Instr) (s t : State), (∃ a, i = .rd8 a) ∨ (∃ a, i = .rd16le a) ∨ (∃ a st n, i = .rdbits a st n) →
    exec i s = .next t →
    t = { s with host := { s.host with
      reply := t.host.reply, job := t.host.job } } ∧
    (∀ a, t.BUF.read a = s.BUF.read a) ∧
    ∀ s' : State, s'.BUF = s.BUF → s'.L = s.L → ∃ t', exec i s' = .next t' ∧ t'.host.reply = t.host.reply

/-! ## Encodings -/

/-- R70 to R80, R87: for every context and every instruction it can hold, with every operand the encoding admits, the
encoder gives an item, and the decoder reads the instruction back from it, whatever follows it in the stream. -/
def Obligations.DecodeOfEncodeIsTheInstruction : Prop :=
  ∀ (c : Ctx) (i : Instr), i.wfIn c = true →
    ∃ x : Item, encode c i = .ok x ∧ decode c x = .ok i ∧ ∀ y : Item, decode c (x.followedBy y) = .ok i

/-- R75, whole: a code value, the first `cw` bits with the first-read bit least significant, selects its class by the five
tests in order against `N`, `N + 1` and `|T|`: exhaustive, and in order exclusive. Where `|T| >= N + 2` the sentinel values
are below `|T|`. The length that counts is the one at the start of the D-step: a step runs the class selected there. And
the instruction encodes back to exactly those bits. -/
def Obligations.EveryCodeDecodesAndEncodesBack : Prop :=
  (∀ (cw n tlen : Nat) (bs : List Bool), cw ≤ bs.length →
    ∃ (v : Nat) (i : Instr), decode (.code cw n tlen) (.bits bs) = .ok i ∧
      v = ((List.range cw).map fun k => (bs[k]?.getD false).toNat * 2 ^ k).sum ∧ v < 2 ^ cw ∧
      i = (if v = n then .clear else if v = n + 1 then .eoi else if v < tlen then .known v
        else if v = tlen then .kwkwk v else .corrupt v) ∧
      (n + 2 ≤ tlen → v = n ∨ v = n + 1 → v < tlen) ∧
      i.wfIn (.code cw n tlen) = true ∧ encode (.code cw n tlen) i = .ok (.bits (bs.take cw))) ∧
  (∀ s : State, s.status = .decoding → s.bp + s.cw ≤ s.BL →
    ∃ i : Instr, decode (.code s.cw s.N s.T.length) (.bits (s.BS.drop s.bp)) = .ok i ∧ step s = exec i s)

/-- R72, whole: the length byte selects the record kind, 0 TERM and any other DATA, and every value of it is legal: with at
least that many bytes behind it, it decodes, to a record that encodes to exactly those bytes. So does every header byte
(R77 to R80) but, where the separator is sought, a byte other than `0x2C`. -/
def Obligations.EveryRecordAndHeaderByteDecodesAndEncodesBack : Prop :=
  (∀ (n : Byte) (rest : List Byte), n.toNat ≤ rest.length →
    ∃ i : Instr, decode .record (.bytes (n :: rest)) = .ok i ∧ i.wfIn .record = true ∧
      encode .record i = .ok (.bytes (n :: rest.take n.toNat)) ∧ (n = 0 → i = .term) ∧
      (n ≠ 0 → i = .data (rest.take n.toNat))) ∧
  (∀ (k : HeaderKind) (b : Byte), (k = .sep → b = 0x2C) →
    ∃ i : Instr, decode (.header k) (.bytes [b]) = .ok i ∧ encode (.header k) i = .ok (.bytes [b])) ∧
  (∀ b : Byte, b ≠ 0x2C → decode (.header .sep) (.bytes [b]) = .error .notSeparator)

/-- R52, R53, R87: packing a bit sequence into payload bytes and unpacking them least significant bit first gives the
sequence back, followed by 0 to 7 zero bits; a code of width `w` keeps its value. -/
def Obligations.PackedBitsUnpackAndCodesKeepTheirValue : Prop :=
  (∀ bs : List Bool, bytesBits (packBytes bs) =
    bs ++ List.replicate (8 * ((bs.length + 7) / 8) - bs.length) false) ∧
  (∀ w v : Nat, v < 2 ^ w → bitsValue (valueBits w v) = v ∧ (valueBits w v).length = w)

/-- Words written out from the spec's encodings decode to the instructions they stand for (R72, R75, R77, R78, R79,
R80; the codes are those of 95_test_vectors.md, with `N = 4`). -/
def Obligations.DecodesSpecWords : Prop :=
  decode .record (.bytes [0x00]) = .ok .term ∧
  decode .record (.bytes [0x03, 0x44, 0xB4, 0x02, 0x00]) = .ok (.data [0x44, 0xB4, 0x02]) ∧
  decode (.code 3 4 6) (.bits [false, false, true]) = .ok .clear ∧
  decode (.code 4 4 9) (.bits [true, false, true, false]) = .ok .eoi ∧
  decode (.code 3 4 6) (.bits [true, true, false]) = .ok (.known 3) ∧
  decode (.code 4 4 9) (.bits [true, false, false, true]) = .ok (.kwkwk 9) ∧
  decode (.code 4 4 9) (.bits [true, true, false, true]) = .ok (.corrupt 11) ∧
  decode (.header .pk10) (.bytes [0xE5]) = .ok (.pk10 1 6 0 5) ∧
  decode (.header .pk9) (.bytes [0x9A]) = .ok (.pk9 1 0 0 3 2) ∧
  decode (.header .sep) (.bytes [0x2C]) = .ok .sep ∧
  decode (.header .mcs) (.bytes [0x0C]) = .ok (.mcs 12)

/-! ## A step runs the decoded instruction -/

/-- R21, R112, R114, R132, R70, R83: a step is `exec` of the instruction decoded at `ap` while ASSEMBLING, at `bp` while
DECODING, and of the host's next command or header byte otherwise (the host's script is the model's, log entry 3). -/
def Obligations.StepRunsDecodedInstruction : Prop :=
  (∀ (s : State) (i : Instr), s.status = .assembling →
    decode .record (.bytes (s.bytesAt s.ap 256)) = .ok i → step s = exec i s) ∧
  (∀ (s : State) (i : Instr), s.status = .decoding →
    decode (.code s.cw s.N s.T.length) (.bits (s.bitsAt s.bp s.cw)) = .ok i → step s = exec i s) ∧
  (∀ (s : State) (i : Instr) (q : List Request), s.status.running = false → s.host.job = .none →
    s.host.queue = .command i :: q → i.isCommand = true →
    step s = exec i { s with host := { s.host with queue := q } }) ∧
  (∀ (s : State) (k : HeaderKind) (a : Nat) (i : Instr) (q : List Request), s.status.running = false →
    s.host.job = .none → s.host.queue = .header k :: q → s.headerOffset k = some a →
    decode (.header k) (.bytes (s.bytesAt a 1)) = .ok i →
    step s = exec i { s with host := { s.host with queue := q } })

/-- R35, R179, R177: with no run in progress and a host that asks for nothing no step is enabled; the model stops there
by name. -/
def Obligations.NoStepWithoutRunOrRequest : Prop :=
  ∀ s : State, s.status.running = false → s.host.job = .none → s.host.queue = [] →
    step s = .fault .noStepEnabled

/-! ## The Sub-block Assembler -/

/-- R111: ASSEMBLE sets the status, the cursor and an empty stream, and does not check `p`. During a run it is no
move of the host (R198), and the model refuses it by name (log entry 12); the reply register is log entry 19. -/
def Obligations.AssembleStartsAtOperand : Prop :=
  ∀ (s : State) (p : Nat),
    (s.status.running = false → exec (.assemble p) s = .next { s with
      status := .assembling, inRun := false, ap := p, BS := [], host := { s.host with
      reply := .none } }) ∧
    (s.status.running = true → exec (.assemble p) s = .refused .runInProgress)

/-- R112: DATA appends the payload's bits, least significant first in each byte, and moves `ap` past the record; a
record that would run past `L` raises TruncatedStream and appends nothing (that a fault leaves `ap` and every other
register as they were is R178's discarded form, log entry 9). -/
def Obligations.DataAppendsPayloadBits : Prop :=
  ∀ (s : State) (payload : List Byte), s.status = .assembling → 1 ≤ payload.length → payload.length ≤ 255 →
    (s.ap + 1 + payload.length ≤ s.L → exec (.data payload) s = .next { s with
      BS := s.BS ++ payload.flatMap (fun b => (List.range 8).map fun j => decide (b.toNat / 2 ^ j % 2 = 1)),
      ap := s.ap + 1 + payload.length }) ∧
    (s.L < s.ap + 1 + payload.length → exec (.data payload) s = .next { s with status := .fault .truncatedStream })

/-- R112, R71, at the level of a step, from the bytes of the buffer: the record at `ap` is consumed whole. -/
def Obligations.StepConsumesRecordOfTheBuffer : Prop :=
  ∀ s : State, s.status = .assembling → s.ap < s.L → s.BUF.read s.ap ≠ 0 →
    s.ap + 1 + (s.BUF.read s.ap).toNat ≤ s.L →
    step s = .next { s with
      BS := s.BS ++ (List.range (s.BUF.read s.ap).toNat).flatMap fun k => byteBits (s.BUF.read (s.ap + 1 + k)),
      ap := s.ap + 1 + (s.BUF.read s.ap).toNat }

/-- R113, R172 a and b: no length byte, or a declared length past the end of the buffer, raises TruncatedStream; the
registers stay as they were (R178 in its discarded form, log entry 9). -/
def Obligations.TruncatedRecordRaises : Prop :=
  ∀ s : State, s.status = .assembling →
    (s.L ≤ s.ap ∨ (s.BUF.read s.ap ≠ 0 ∧ s.L < s.ap + 1 + (s.BUF.read s.ap).toNat)) →
    step s = .next { s with status := .fault .truncatedStream }

/-- R114, R133, R174 a: TERM moves `ap` by one and ends the phase: inside RUN the decoder starts on the assembled bits,
or raises when `mcs + 1 > MAXW`, the terminator then not passed (R178 in its discarded form, log entries 9 and 20). A
bare ASSEMBLE hands `BS` to the host; that its status is then IDLE is the model's choice (log entry 8). -/
def Obligations.TermEndsAssembly : Prop :=
  ∀ s : State, s.status = .assembling → s.ap + 1 ≤ s.L →
    (s.inRun = true → s.mcs.toNat + 1 ≤ s.MAXW → exec .term s = .next { s with
      ap := s.ap + 1, status := .decoding, T := initialTable s.N, cw := s.mcs.toNat + 1, cnt := 0, first := true,
      prev := none, bp := 0, out := [] }) ∧
    (s.inRun = true → s.MAXW < s.mcs.toNat + 1 →
      exec .term s = .next { s with status := .fault .codeWidthOverflow }) ∧
    (s.inRun = false → exec .term s = .next { s with
      ap := s.ap + 1, status := .idle, host := { s.host with
      reply := .bits s.BS } })

/-- R116, R65, R52: from a state whose buffer holds, at `ap`, a chain of records and its terminator, one step for each
record and one for the terminator bring `ap` past the chain and append exactly the bits of the payloads in order: the
split into records does not show. In a bare ASSEMBLE the host then has the bits (log entry 8); inside RUN the decoder
stands at its start (R121). -/
def Obligations.AssembleConcatenatesChain : Prop :=
  ∀ (records : List (List Byte)) (s : State), (∀ r ∈ records, 1 ≤ r.length ∧ r.length ≤ 255) →
    s.status = .assembling → s.bytesAt s.ap (chainBytes records).length = chainBytes records →
    (s.inRun = false → core.run (records.length + 1) s = .next { s with
      status := .idle, ap := s.ap + records.length + 1 + records.flatten.length,
      BS := s.BS ++ bytesBits records.flatten,
      host := { s.host with
      reply := .bits (s.BS ++ bytesBits records.flatten) } }) ∧
    (s.inRun = true → s.mcs.toNat + 1 ≤ s.MAXW → core.run (records.length + 1) s = .next { s with
      status := .decoding, ap := s.ap + records.length + 1 + records.flatten.length,
      BS := s.BS ++ bytesBits records.flatten, T := initialTable s.N, cw := s.mcs.toNat + 1, cnt := 0, first := true,
      prev := none, bp := 0, out := [] })

/-! ## The LZW Decoder: starts -/

/-- R121, R45: DECODE creates the decoder's state, or raises CodeWidthOverflow when `mcs + 1 > MAXW`. A color count of 0
is outside the domain of the operand (R6), and a start command during a run is no move of the host (R198); the model
refuses both by name (log entries 11 and 12). That the
fault leaves `BS` and the latched inputs as they were is R178's discarded form (log entries 9 and 20); that `bits` may
have any length is log entry 22. -/
def Obligations.DecodeCreatesDecoderState : Prop :=
  ∀ (s : State) (bits : List Bool) (m : Byte) (n : Nat),
    (s.status.running = false → 1 ≤ n → m.toNat + 1 ≤ s.MAXW → exec (.decode bits m n) s = .next { s with
      BS := bits, mcs := m, N := n, inRun := false, status := .decoding, T := initialTable n, cw := m.toNat + 1,
      cnt := 0, first := true, prev := none, bp := 0, out := [], host := { s.host with
      reply := .none } }) ∧
    (s.status.running = false → 1 ≤ n → s.MAXW < m.toNat + 1 →
      exec (.decode bits m n) s = .next { s with status := .fault .codeWidthOverflow }) ∧
    (s.status.running = false → n = 0 → exec (.decode bits m n) s = .refused .colorCountZero) ∧
    (s.status.running = true → exec (.decode bits m n) s = .refused .runInProgress)

/-- R133, R192, R171: RUN reads `mcs` at `S + 10` and starts the assembler at `S + 11`; it raises MalformedHeader exactly
when `S + 10 >= L`, and then latches nothing (R178 in its discarded form, log entry 9). `N = 0`
and a start during a run are refused by name (R6, R198, log entries 11 and 12). -/
def Obligations.RunLatchesInputsAndStartsAssembler : Prop :=
  ∀ (s : State) (sp n : Nat),
    (s.status.running = false → 1 ≤ n → sp + 10 < s.L → exec (.run sp n) s = .next { s with
      S := sp, N := n, mcs := s.BUF.read (sp + 10), status := .assembling, inRun := true, ap := sp + 11, BS := [],
      host := { s.host with
      reply := .none } }) ∧
    (s.status.running = false → 1 ≤ n → s.L ≤ sp + 10 →
      exec (.run sp n) s = .next { s with status := .fault .malformedHeader }) ∧
    (s.status.running = false → n = 0 → exec (.run sp n) s = .refused .colorCountZero) ∧
    (s.status.running = true → exec (.run sp n) s = .refused .runInProgress)

/-! ## The LZW Decoder: the code classes -/

/-- R125, R122: CLEAR resets the table, the width, the counter and the flag, and changes nothing else but `bp`: `prev`
and `out` stay. -/
def Obligations.ClearResetsTableAndWidth : Prop :=
  ∀ s : State, s.status = .decoding → s.bp + s.cw ≤ s.BL →
    exec .clear s = .next { s with
      bp := s.bp + s.cw, T := initialTable s.N, cw := s.mcs.toNat + 1, cnt := 0, first := true }

/-- R122, R125, R135: where the decoder's invariant holds, the table after CLEAR is the old one truncated to `N + 2`
entries, and the width is `mcs + 1`. -/
def Obligations.ClearTruncatesTable : Prop :=
  ∀ s t : State, s.DecoderInv → exec .clear s = .next t → t.status = .decoding →
    t.T = s.T.take (s.N + 2) ∧ t.T.length = s.N + 2 ∧ t.cw = s.mcs.toNat + 1 ∧ t.out = s.out

/-- R126, whole: EOI, the code of value `N + 1` read at the current width, ends the run successfully: no output, no table
change, no tail; legal as any code, the first included, and whatever bits follow. It is the only way to DONE: any other
step of the decoder leaves it DECODING or ends in TruncatedStream, CorruptCodeStream or CodeWidthOverflow, and from every
state with the invariant the decoder does end, within `BL - bp + 1` steps, in DONE or in one of the three. -/
def Obligations.EoiEndsRun : Prop :=
  (∀ s : State, s.status = .decoding → s.bp + s.cw ≤ s.BL →
    exec .eoi s = .next { s with bp := s.bp + s.cw, status := .done } ∧
    (((List.range s.cw).map fun k => (s.BS[s.bp + k]?.getD false).toNat * 2 ^ k).sum = s.N + 1 →
      step s = .next { s with bp := s.bp + s.cw, status := .done })) ∧
  (∀ s t : State, step s = .next t → t.status = .done → s.status ≠ .done →
    s.status = .decoding ∧
      ((List.range s.cw).map fun k => (s.BS[s.bp + k]?.getD false).toNat * 2 ^ k).sum = s.N + 1) ∧
  (∀ s t : State, s.status = .decoding → step s = .next t →
    t.status = .decoding ∨ t.status = .done ∨ t.status = .fault .truncatedStream ∨
      t.status = .fault .corruptCodeStream ∨ t.status = .fault .codeWidthOverflow) ∧
  (∀ s : State, s.Inv → s.status = .decoding →
    ∃ (k : Nat) (t : State), k ≤ s.BL - s.bp + 1 ∧ core.run k s = .next t ∧
      (t.status = .done ∨ t.status = .fault .truncatedStream ∨ t.status = .fault .corruptCodeStream ∨
        t.status = .fault .codeWidthOverflow))

/-- R127, R131: a KNOWN code that is the first after a reset emits its entry, appends nothing, clears the flag, and is
counted; the width grows when the count reaches `2^(cw-1)`. -/
def Obligations.KnownFirstEmitsWithoutExtending : Prop :=
  ∀ (s : State) (c x : Nat) (xs : List Nat), s.status = .decoding → s.bp + s.cw ≤ s.BL → c ≠ s.N → c ≠ s.N + 1 →
    s.T[c]? = some (.color (x :: xs)) → s.first = true → (s.cnt + 1 = 2 ^ (s.cw - 1) → s.cw ≠ s.MAXW) →
    exec (.known c) s = .next { s with
      bp := s.bp + s.cw, out := s.out ++ x :: xs, first := false, prev := some c,
      cnt := if s.cnt + 1 = 2 ^ (s.cw - 1) then 0 else s.cnt + 1,
      cw := if s.cnt + 1 = 2 ^ (s.cw - 1) then s.cw + 1 else s.cw }

/-- R127, R128, R131: any later KNOWN code emits its entry and appends the previous code's sequence with the first color
of its own, both read from the table as it stood. -/
def Obligations.KnownEmitsAndExtends : Prop :=
  ∀ (s : State) (c x p y : Nat) (xs ys : List Nat), s.status = .decoding → s.bp + s.cw ≤ s.BL → c ≠ s.N →
    c ≠ s.N + 1 → s.T[c]? = some (.color (x :: xs)) → s.first = false → s.prev = some p →
    s.T[p]? = some (.color (y :: ys)) → (s.cnt + 1 = 2 ^ (s.cw - 1) → s.cw ≠ s.MAXW) →
    exec (.known c) s = .next { s with
      bp := s.bp + s.cw, out := s.out ++ x :: xs, T := s.T ++ [.color (y :: ys ++ [x])], prev := some c,
      cnt := if s.cnt + 1 = 2 ^ (s.cw - 1) then 0 else s.cnt + 1,
      cw := if s.cnt + 1 = 2 ^ (s.cw - 1) then s.cw + 1 else s.cw }

/-- R129, R131: KWKWK emits the previous code's sequence with its own first color behind it, and appends that same
sequence; the new entry has the index that the code names. -/
def Obligations.KwkwkEmitsAndAppendsSameSequence : Prop :=
  ∀ (s : State) (p x : Nat) (xs : List Nat), s.status = .decoding → s.bp + s.cw ≤ s.BL → s.N + 2 ≤ s.T.length →
    s.first = false → s.prev = some p → s.T[p]? = some (.color (x :: xs)) →
    (s.cnt + 1 = 2 ^ (s.cw - 1) → s.cw ≠ s.MAXW) →
    ∃ t : State, exec (.kwkwk s.T.length) s = .next t ∧ t.T[s.T.length]? = some (.color (x :: xs ++ [x])) ∧
      t = { s with
        bp := s.bp + s.cw, out := s.out ++ (x :: xs ++ [x]), T := s.T ++ [.color (x :: xs ++ [x])],
        prev := some s.T.length,
        cnt := if s.cnt + 1 = 2 ^ (s.cw - 1) then 0 else s.cnt + 1,
        cw := if s.cnt + 1 = 2 ^ (s.cw - 1) then s.cw + 1 else s.cw }

/-- R130, R129, R173: a code above the table length is always CorruptCodeStream; so is the code equal to it directly
after a reset (D4). The fault discards everything else, `bp` included (R178 in its discarded form, log entry 9). -/
def Obligations.CorruptCodesRaise : Prop :=
  ∀ s : State, s.status = .decoding → s.bp + s.cw ≤ s.BL → s.N + 2 ≤ s.T.length →
    (∀ c : Nat, s.T.length < c → exec (.corrupt c) s = .next { s with status := .fault .corruptCodeStream }) ∧
    (s.first = true → exec (.kwkwk s.T.length) s = .next { s with status := .fault .corruptCodeStream })

/-- R131, R174 b: a KNOWN or KWKWK step whose count reaches `2^(cw-1)` at `cw = MAXW` raises CodeWidthOverflow; nothing
it built remains, and `bp` is not moved (R178 in its discarded form, log entry 9). -/
def Obligations.TailRaisesCodeWidthOverflow : Prop :=
  ∀ (s : State) (p y : Nat) (ys : List Nat), s.status = .decoding → s.bp + s.cw ≤ s.BL →
    s.cnt + 1 = 2 ^ (s.cw - 1) → s.cw = s.MAXW →
    (s.first = false → s.prev = some p) → s.T[p]? = some (.color (y :: ys)) →
    (∀ (c x : Nat) (xs : List Nat), c ≠ s.N → c ≠ s.N + 1 → s.T[c]? = some (.color (x :: xs)) →
      exec (.known c) s = .next { s with status := .fault .codeWidthOverflow }) ∧
    (s.first = false → s.N + 2 ≤ s.T.length →
      exec (.kwkwk s.T.length) s = .next { s with status := .fault .codeWidthOverflow })

/-- R123, R172 c: with fewer than `cw` bits left the fetch raises TruncatedStream; the leftover bits are never read as a
shorter code, and no register changes (R178 in its discarded form, log entry 9). -/
def Obligations.FetchBeyondStreamRaises : Prop :=
  ∀ s : State, s.status = .decoding → s.BL < s.bp + s.cw →
    step s = .next { s with status := .fault .truncatedStream }

/-- R202, R26, R125: after a reset `prev` is not read: whatever it holds, a KNOWN step with `first = true` that goes on
gives the same state. -/
def Obligations.StalePrevIsNeverRead : Prop :=
  ∀ (s t : State) (c : Nat) (q : Option Nat), s.first = true → exec (.known c) s = .next t → t.status = .decoding →
    exec (.known c) { s with prev := q } = .next t

/-- R193: what CLEAR leaves does not depend on the table, the counter or the flag before it, so a stream that begins
with CLEAR does not depend on the start values that D3 decides for them. -/
def Obligations.ClearForgetsStartState : Prop :=
  ∀ (s t : State) (n : Nat) (f : Bool) (tab : List Entry), exec .clear s = .next t → t.status = .decoding →
    exec .clear { s with cnt := n, first := f, T := tab } = .next t

/-- R135, R22: the width never decreases but by CLEAR: no other instruction run while DECODING lowers it. -/
def Obligations.WidthNeverDecreasesButByClear : Prop :=
  ∀ (i : Instr) (s t : State), i ≠ .clear → s.status = .decoding → exec i s = .next t → s.cw ≤ t.cw

/-- R76, R135: the width schedule. Where the decoder's invariant holds and `k - 1` codes have been counted since the
last reset, the `k`-th is read at the width `w` with `2^(w-1) - 2^mcs < k <= 2^w - 2^mcs`; each KNOWN or KWKWK step that
goes on counts one more, and CLEAR none. -/
def Obligations.WidthFollowsCountedCodes : Prop :=
  ∀ s : State, s.DecoderInv → s.status = .decoding →
    (2 ^ (s.cw - 1) < s.counted + 1 + 2 ^ s.mcs.toNat ∧ s.counted + 1 + 2 ^ s.mcs.toNat ≤ 2 ^ s.cw) ∧
    (∀ (c : Nat) (t : State), exec (.known c) s = .next t ∨ exec (.kwkwk c) s = .next t → t.status = .decoding →
      t.counted = s.counted + 1) ∧
    (∀ t : State, exec .clear s = .next t → t.status = .decoding → t.counted = 0)

/-- R37: the capacity of the code table: `|T| <= N + 1 + 2^MAXW - 2^mcs`, and no fewer than `N + 2`. -/
def Obligations.TableWithinCapacity : Prop :=
  ∀ s : State, s.DecoderInv →
    s.N + 2 ≤ s.T.length ∧ s.T.length + 2 ^ s.mcs.toNat ≤ s.N + 1 + 2 ^ s.MAXW

/-! ## The header bytes -/

/-- R77, R78, R79, R80, R33: what a header byte leaves once decoded: PK10 and PK9 their fields in the host's
descriptors, SEP its offset, the least at or after `13 + G`, or ImageDescriptorNotFound where there is none (R156), MCS
the register `mcs`. What these rows do when run alone is the model's reading of them as instructions (log entry 17), that MCS is refused during a run log entry 12, and what a
failing SEP leaves log entry 15. -/
def Obligations.HeaderBytesFillRegisters : Prop :=
  ∀ s : State,
    (∀ g r st e, exec (.pk10 g r st e) s = .next { s with host := { s.host with
      reply := .stageDone,
      screen := { s.host.screen with gctFlag := g, colorRes := r, sortFlag := st, e := e } } }) ∧
    (∀ lct il st rs e, exec (.pk9 lct il st rs e) s = .next { s with host := { s.host with
      reply := .stageDone,
      image := { s.host.image with lctFlag := lct, interlace := il, sortFlag := st, reserved := rs, lctExp := e } } }) ∧
    (∀ a, 13 + s.host.G ≤ a → a < s.L → s.BUF.read a = 0x2C →
      (∀ k, 13 + s.host.G ≤ k → k < a → s.BUF.read k ≠ 0x2C) →
      exec .sep s = .next { s with host := { s.host with S := a, reply := .value a } }) ∧
    ((∀ k, 13 + s.host.G ≤ k → k < s.L → s.BUF.read k ≠ 0x2C) → exec .sep s = .next { s with host := { s.host with
      reply := .error .imageDescriptorNotFound, job := .none } }) ∧
    (∀ m, s.status.running = false →
      exec (.mcs m) s = .next { s with mcs := m, host := { s.host with
      reply := .value m.toNat } }) ∧
    (∀ m, s.status.running = true → exec (.mcs m) s = .refused .runInProgress)

/-- R101, R104, R57: a header byte that the host asks for at an offset beyond the buffer (10 for PK10, `S + 9` for PK9,
`S + 10` for MCS) is MalformedHeader; R156: a separator that is not there is ImageDescriptorNotFound. The request is gone
from the host's script, which then goes on (the script is the model's, log entries 3 and 23). -/
def Obligations.HeaderRequestBeyondBufferFails : Prop :=
  ∀ (s : State) (k : HeaderKind) (q : List Request), s.status.running = false → s.host.job = .none →
    s.host.queue = .header k :: q →
    ((k = .pk10 ∧ s.L ≤ 10) ∨ (k = .pk9 ∧ s.L ≤ s.host.S + 9) ∨ (k = .mcs ∧ s.L ≤ s.host.S + 10) →
      step s = .next { s with host := { s.host with
        queue := q, reply := .error (.block .malformedHeader), job := .none } }) ∧
    (k = .sep → (∀ a, 13 + s.host.G ≤ a → a < s.L → s.BUF.read a ≠ 0x2C) →
      step s = .next { s with host := { s.host with
        queue := q, reply := .error .imageDescriptorNotFound, job := .none } })

/-! ## The host's sequences -/

/-- R151, R152, R153: PARSE_HEADER on at least 13 bytes with an ASCII signature reads the descriptor's fields from their
offsets (the packed byte by its numeric bits, R77); otherwise it fails with MalformedHeader. That it then leaves `sig`
and the descriptor as they were is the model's choice (log entry 15, DESIGN CHOICE). -/
def Obligations.ParseHeaderReadsDescriptor : Prop :=
  ∀ s : State,
    (13 ≤ s.L → (∀ k < 6, (s.BUF.read k).toNat ≤ 0x7F) → exec .parseHeader s = .next { s with host := { s.host with
      reply := .stageDone
      sig := [s.BUF.read 0, s.BUF.read 1, s.BUF.read 2, s.BUF.read 3, s.BUF.read 4, s.BUF.read 5]
      screen := {
        width := s.BUF.read 7 ++ s.BUF.read 6
        height := s.BUF.read 9 ++ s.BUF.read 8
        gctFlag := (s.BUF.read 10).extractLsb' 7 1
        colorRes := (s.BUF.read 10).extractLsb' 4 3
        sortFlag := (s.BUF.read 10).extractLsb' 3 1
        e := (s.BUF.read 10).extractLsb' 0 3
        background := s.BUF.read 11
        aspect := s.BUF.read 12 } } }) ∧
    (s.L < 13 ∨ (∃ k < 6, 0x7F < (s.BUF.read k).toNat) → exec .parseHeader s = .next { s with host := { s.host with
      reply := .error (.block .malformedHeader), job := .none } })

/-- R154, R155: EXTRACT_GCT computes `N = 2^(e+1)` and `G = 3 * N` and takes the `N` triples from offset 13, or fails
with InvalidColorTableSize exactly when `L < 13 + G`. That `N`, `G` and `gct` then stay as they were, although R154's
expansion writes `N` and `G` before it fails, is the model's choice (log entry 15, DESIGN CHOICE). -/
def Obligations.ExtractGctTakesTriples : Prop :=
  ∀ (s : State) (e : BitVec 3),
    (13 + 3 * 2 ^ (e.toNat + 1) ≤ s.L → ∃ table : List Rgb,
      exec (.extractGct e) s = .next { s with host := { s.host with
        reply := .stageDone, N := 2 ^ (e.toNat + 1), G := 3 * 2 ^ (e.toNat + 1), gct := table } } ∧
      table.length = 2 ^ (e.toNat + 1) ∧
      ∀ i < 2 ^ (e.toNat + 1), table[i]? = some
        ⟨s.BUF.read (13 + 3 * i), s.BUF.read (13 + 3 * i + 1), s.BUF.read (13 + 3 * i + 2)⟩) ∧
    (s.L < 13 + 3 * 2 ^ (e.toNat + 1) → exec (.extractGct e) s = .next { s with host := { s.host with
      reply := .error .invalidColorTableSize, job := .none } })

/-- R155: EXTRACT_GCT reports InvalidColorTableSize when `L < 13 + G` and not otherwise, for each of the eight
exponents, and no other instruction newly reports it but DECODE_FILE, whose stage EXTRACT_GCT is, on the same condition.
The register that holds the report is the model's (log entry 19, DESIGN CHOICE). -/
def Obligations.InvalidColorTableSizeOnlyWhenTooShort : Prop :=
  (∀ (s : State) (e : BitVec 3), ∃ t : State, exec (.extractGct e) s = .next t ∧
    (t.host.reply = .error .invalidColorTableSize ↔ s.L < 13 + 3 * 2 ^ (e.toNat + 1))) ∧
  (∀ (i : Instr) (s t : State), exec i s = .next t → t.host.reply = .error .invalidColorTableSize →
    s.host.reply ≠ .error .invalidColorTableSize →
    (∃ e : BitVec 3, i = .extractGct e ∧ s.L < 13 + 3 * 2 ^ (e.toNat + 1)) ∨
    (i = .decodeFile ∧ s.L < 13 + 3 * 2 ^ ((s.BUF.read 10).toNat % 8 + 1)))

/-- R156, R157: LOCATE_IMAGE finds the least separator at or after `13 + G` and reads the descriptor behind it (the
packed byte by its numeric bits, R78, C1); no separator is ImageDescriptorNotFound, a descriptor that runs past the
buffer is MalformedHeader. That `S` and the descriptor then stay as they were is the model's choice (log entry 15,
DESIGN CHOICE). -/
def Obligations.LocateImageFindsFirstSeparator : Prop :=
  ∀ (s : State) (g : Nat),
    (∀ a, 13 + g ≤ a → a < s.L → s.BUF.read a = 0x2C → (∀ k, 13 + g ≤ k → k < a → s.BUF.read k ≠ 0x2C) →
      (a + 9 < s.L → exec (.locateImage g) s = .next { s with host := { s.host with
        reply := .stageDone
        S := a
        image := {
          left := s.BUF.read (a + 2) ++ s.BUF.read (a + 1)
          top := s.BUF.read (a + 4) ++ s.BUF.read (a + 3)
          width := s.BUF.read (a + 6) ++ s.BUF.read (a + 5)
          height := s.BUF.read (a + 8) ++ s.BUF.read (a + 7)
          lctFlag := (s.BUF.read (a + 9)).extractLsb' 7 1
          interlace := (s.BUF.read (a + 9)).extractLsb' 6 1
          sortFlag := (s.BUF.read (a + 9)).extractLsb' 5 1
          reserved := (s.BUF.read (a + 9)).extractLsb' 3 2
          lctExp := (s.BUF.read (a + 9)).extractLsb' 0 3 } } }) ∧
      (s.L ≤ a + 9 → exec (.locateImage g) s = .next { s with host := { s.host with
        reply := .error (.block .malformedHeader), job := .none } })) ∧
    ((∀ k, 13 + g ≤ k → k < s.L → s.BUF.read k ≠ 0x2C) → exec (.locateImage g) s = .next { s with host := { s.host with
      reply := .error .imageDescriptorNotFound, job := .none } })

/-- R159, R160: BUILD_GRID gives `|out| div w` rows of `w` colors with `grid[r][c] = out[r * w + c]`, or fails with
DimensionMismatch exactly when `w = 0` or `w` does not divide `|out|`. That a failure leaves the old grid is the model's
choice (log entry 15, DESIGN CHOICE). -/
def Obligations.BuildGridReshapesRows : Prop :=
  ∀ (s : State) (colors : List Nat) (w : Nat),
    (w ≠ 0 → colors.length % w = 0 → ∃ grid : List (List Nat),
      exec (.buildGrid colors w) s = .next { s with host := { s.host with
      reply := .stageDone, grid := grid } } ∧
      grid.length = colors.length / w ∧ (∀ row ∈ grid, row.length = w) ∧ grid.flatten = colors ∧
      ∀ r < colors.length / w, ∀ c < w, (grid[r]?.bind fun row => row[c]?) = colors[r * w + c]?) ∧
    (w = 0 ∨ colors.length % w ≠ 0 → exec (.buildGrid colors w) s = .next { s with host := { s.host with
      reply := .error .dimensionMismatch, job := .none } })

/-- R161, R158: DECODE_FILE is its stages in order, the earliest that fails giving the error, and then RUN with the `S`
and `N` the stages found, after which the host waits; if RUN's own start raises, the host waits for that fault. Stated
over the `exec` of the stages. That it is refused by name during a run, where the host has no move (R198), is the model's
choice (log entry 12, DESIGN CHOICE); so are the job register that holds the wait (log entry 16, DESIGN CHOICE) and that a
failing stage leaves none of the earlier stages' registers (log entry 15, DESIGN CHOICE). -/
def Obligations.DecodeFileRunsStagesInOrder : Prop :=
  ∀ s : State,
    (s.status.running = true → exec .decodeFile s = .refused .runInProgress) ∧
    (s.status.running = false →
      (∀ t e, exec .parseHeader s = .next t → t.host.reply = .error e → exec .decodeFile s = .next { s with host :=
        { s.host with reply := .error e, job := .none } }) ∧
      (∀ t1, exec .parseHeader s = .next t1 → t1.host.reply = .stageDone →
        (∀ t e, exec (.extractGct t1.host.screen.e) t1 = .next t → t.host.reply = .error e →
          exec .decodeFile s = .next { s with host := { s.host with
      reply := .error e, job := .none } }) ∧
        (∀ t2, exec (.extractGct t1.host.screen.e) t1 = .next t2 → t2.host.reply = .stageDone →
          (∀ t e, exec (.locateImage t2.host.G) t2 = .next t → t.host.reply = .error e →
            exec .decodeFile s = .next { s with host := { s.host with
      reply := .error e, job := .none } }) ∧
          (∀ t3, exec (.locateImage t2.host.G) t2 = .next t3 → t3.host.reply = .stageDone →
            ∃ t4, exec (.run t3.host.S t3.host.N) t3 = .next t4 ∧ exec .decodeFile s = .next { t4 with host :=
              { t4.host with job := .awaitRun, reply := .none } }))))

/-- R161, R151 to R157, R192: DECODE_FILE completes on a file whose stages succeed: the block is then ASSEMBLING at
`S + 11` with `N = 2^(e+1)` and `mcs` from `S + 10`, and the host waits for the end of the run. That DECODE_FILE's own step
is complete when RUN has been started, with the wait in the job register, is the model's choice (log entry 16, DESIGN
CHOICE), and so is the reply register, then empty (log entry 19, DESIGN CHOICE). -/
def Obligations.DecodeFileStartsRunOnWellFormedFile : Prop :=
  ∀ (s : State) (a : Nat), s.status.running = false → (∀ k < 6, (s.BUF.read k).toNat ≤ 0x7F) →
    13 + 3 * 2 ^ ((s.BUF.read 10).toNat % 8 + 1) ≤ a → s.BUF.read a = 0x2C →
    (∀ k, 13 + 3 * 2 ^ ((s.BUF.read 10).toNat % 8 + 1) ≤ k → k < a → s.BUF.read k ≠ 0x2C) → a + 10 < s.L →
    ∃ h : HostState,
      exec .decodeFile s = .next { s with
        S := a, N := 2 ^ ((s.BUF.read 10).toNat % 8 + 1), mcs := s.BUF.read (a + 10), status := .assembling,
        inRun := true, ap := a + 11, BS := [], host := h } ∧
      h.job = .awaitRun ∧ h.reply = .none ∧ h.queue = s.host.queue ∧ h.S = a ∧ h.image.width =
        s.BUF.read (a + 6) ++ s.BUF.read (a + 5)

/-- R158, R161: when the run that DECODE_FILE issued has ended, the next step is BUILD_GRID on `out` and the image
width after DONE, and after FAULT the host fails with the reason. -/
def Obligations.DecodeFileEndsWithItsRun : Prop :=
  ∀ s : State, s.host.job = .awaitRun →
    (s.status = .done → step s = exec (.buildGrid s.out s.host.image.width.toNat)
      { s with host := { s.host with job := .none } }) ∧
    (∀ r, s.status = .fault r → step s = .next { s with host := { s.host with
      reply := .error (.block r), job := .none } })

/-- R163, R135, R154: when DECODE_FILE's run has ended in DONE and the grid is built, the color table has `N` triples,
every index of the grid is below `N`, and the grid resolves, index by index, to the triples `GCT[i]`: the lookup is never
out of range. -/
def Obligations.ResolvedColorsAreInRange : Prop :=
  ∀ s t : State, s.Inv → s.host.job = .awaitRun → s.status = .done → step s = .next t → t.host.reply = .stageDone →
    t.host.gct.length = t.host.N ∧ (∀ row ∈ t.host.grid, ∀ i ∈ row, i < t.host.N) ∧
    ∃ g : List (List Rgb), t.host.rgbGrid = some g ∧ g.length = t.host.grid.length ∧
      ∀ (r : Nat) (row : List Nat), t.host.grid[r]? = some row → ∃ cs : List Rgb, g[r]? = some cs ∧
        cs.length = row.length ∧ ∀ c i : Nat, row[c]? = some i → cs[c]? = t.host.gct[i]?

/-- R162, R194, R196: the load of a file makes `BUF` hold exactly its bytes, in canonical form, and `L` its length; the
"not found" signal is the error FileNotFound. The script that holds the request is the model's (log entry 18), and so is
it that what the host has parsed of an earlier file stays (log entry 24). -/
def Obligations.LoadSuppliesWholeFile : Prop :=
  ∀ (s : State) (q : List Request), s.status.running = false → s.host.job = .none →
    (∀ file : List Byte, s.host.queue = .load (some file) :: q → ∃ m : Memory,
      step s = .next { s with BUF := m, L := file.length, host := { s.host with queue := q, reply := .stageDone } } ∧
      m.wf ∧ (∀ c ∈ m, c.1 < file.length) ∧ ∀ k < file.length, file[k]? = some (m.read k)) ∧
    (s.host.queue = .load none :: q → step s = .next { s with host := { s.host with
      queue := q, reply := .error .fileNotFound } })

/-! ## Frames -/

/-- R120, R125 to R131: a D-step writes `bp`, `cw`, `cnt`, `prev`, `first`, `T`, `out` and `status` alone. CLEAR leaves
`prev` and `out`; EOI leaves all but `bp` and `status`; KNOWN and KWKWK only add at the end of `T` and `out`; no byte of
`BUF` and no bit of `BS` changes. That a fault, CORRUPT's among them, changes the status alone is R178's discarded form
(log entry 9). -/
def Obligations.CodeStepsFrame : Prop :=
  ∀ (i : Instr) (s t : State),
    i = .clear ∨ i = .eoi ∨ (∃ c, i = .known c) ∨ (∃ c, i = .kwkwk c) ∨ (∃ c, i = .corrupt c) → exec i s = .next t →
    t = { s with
      bp := t.bp, cw := t.cw, cnt := t.cnt, prev := t.prev, first := t.first, T := t.T, out := t.out,
      status := t.status } ∧
    (∀ a, t.BUF.read a = s.BUF.read a) ∧ t.BS = s.BS ∧
    (i = .clear → t.prev = s.prev ∧ t.out = s.out) ∧
    (i = .eoi → t = { s with bp := t.bp, status := t.status }) ∧
    (i ≠ .clear → (∃ e, t.T = s.T ++ e ∧ e.length ≤ 1) ∧ ∃ o, t.out = s.out ++ o) ∧
    ((∃ c, i = .corrupt c) → t = { s with status := t.status })

/-- R110, R112, R114: an A-step writes `BS`, `ap` and `status`, and at the end of a bare ASSEMBLE what the host is told;
only a TERM inside RUN also creates the decoder's state. What `BS` held stays; no byte of `BUF` changes. -/
def Obligations.RecordStepsFrame : Prop :=
  ∀ (i : Instr) (s t : State), (∃ p, i = .data p) ∨ i = .term → exec i s = .next t →
    (∀ a, t.BUF.read a = s.BUF.read a) ∧ (∃ more, t.BS = s.BS ++ more) ∧
    ((∃ p, i = .data p) → t = { s with BS := t.BS, ap := t.ap, status := t.status }) ∧
    (i = .term → t.BS = s.BS ∧
      t = { s with
        ap := t.ap, status := t.status, T := t.T, cw := t.cw, cnt := t.cnt, first := t.first,
        prev := t.prev, bp := t.bp, out := t.out, host := { s.host with
      reply := t.host.reply } }) ∧
    (i = .term → s.inRun = false →
      t = { s with ap := t.ap, status := t.status, host := { s.host with
      reply := t.host.reply } })

/-- R190, R191, R11: a start command writes no byte of `BUF` and not `L` or `MAXW`; ASSEMBLE writes only what it owns,
RUN also its latched inputs, DECODE only the decoder's state, the stream and its operands. -/
def Obligations.StartCommandsFrame : Prop :=
  ∀ (i : Instr) (s t : State),
    (∃ p, i = .assemble p) ∨ (∃ b m n, i = .decode b m n) ∨ (∃ sp n, i = .run sp n) → exec i s = .next t →
    (∀ a, t.BUF.read a = s.BUF.read a) ∧
    ((∃ p, i = .assemble p) → t = { s with
      status := t.status, inRun := t.inRun, ap := t.ap, BS := t.BS,
      host := { s.host with
      reply := t.host.reply } }) ∧
    ((∃ sp n, i = .run sp n) → t = { s with
      status := t.status, inRun := t.inRun, ap := t.ap, BS := t.BS, S := t.S,
      N := t.N, mcs := t.mcs, host := { s.host with
      reply := t.host.reply } }) ∧
    ((∃ b m n, i = .decode b m n) → t = { s with
      status := t.status, inRun := t.inRun, BS := t.BS, N := t.N,
      mcs := t.mcs, cw := t.cw, cnt := t.cnt, prev := t.prev, first := t.first, T := t.T, bp := t.bp, out := t.out,
      host := { s.host with
      reply := t.host.reply } })

/-- R150, R5, R77 to R79: the host's stages and the header bytes PK10, PK9 and SEP touch nothing of the block; MCS
touches `mcs` alone. Each stage writes only its own registers of the host, with the reply and, on failure, the job. -/
def Obligations.HostStagesFrame : Prop :=
  ∀ (i : Instr) (s t : State),
    i = .parseHeader ∨ (∃ e, i = .extractGct e) ∨ (∃ g, i = .locateImage g) ∨ (∃ o w, i = .buildGrid o w) ∨
      (∃ g r st e, i = .pk10 g r st e) ∨ (∃ lct il st rs e, i = .pk9 lct il st rs e) ∨ i = .sep ∨ (∃ m, i = .mcs m) →
    exec i s = .next t →
    t = { s with host := t.host, mcs := t.mcs } ∧ (∀ a, t.BUF.read a = s.BUF.read a) ∧
    ((∀ m, i ≠ .mcs m) → t.mcs = s.mcs) ∧
    t.host = { s.host with
      reply := t.host.reply, job := t.host.job, sig := t.host.sig, screen := t.host.screen,
      N := t.host.N, G := t.host.G, gct := t.host.gct, S := t.host.S, image := t.host.image, grid := t.host.grid } ∧
    (i = .parseHeader → t.host = { s.host with
      reply := t.host.reply, job := t.host.job, sig := t.host.sig,
      screen := t.host.screen }) ∧
    ((∃ e, i = .extractGct e) → t.host = { s.host with
      reply := t.host.reply, job := t.host.job, N := t.host.N,
      G := t.host.G, gct := t.host.gct }) ∧
    ((∃ g, i = .locateImage g) → t.host = { s.host with
      reply := t.host.reply, job := t.host.job, S := t.host.S,
      image := t.host.image }) ∧
    ((∃ o w, i = .buildGrid o w) → t.host = { s.host with
      reply := t.host.reply, job := t.host.job,
      grid := t.host.grid })

/-! ## Rules of the whole machine -/

/-- R11, R34, R198: no instruction writes `BUF`, `L` or `MAXW`, and no step changes them but the load of a file, which
is no move while a run is in progress. -/
def Obligations.InputBufferIsImmutable : Prop :=
  (∀ (i : Instr) (s t : State), exec i s = .next t → t.BUF = s.BUF ∧ t.L = s.L ∧ t.MAXW = s.MAXW) ∧
  (∀ s t : State, step s = .next t → t.MAXW = s.MAXW ∧ ((t.BUF = s.BUF ∧ t.L = s.L) ∨
    (s.status.running = false ∧ ∃ file q, s.host.queue = .load (some file) :: q)))

/-- R21, R35, R126: DONE is reached by EOI alone; DECODING by DECODE or by the TERM of a RUN; a terminal status is left
by a start command alone. -/
def Obligations.PhasesChangeOnlyInOrder : Prop :=
  ∀ (i : Instr) (s t : State), exec i s = .next t →
    (t.status = .done → s.status = .done ∨ (i = .eoi ∧ s.status = .decoding)) ∧
    (t.status = .decoding → s.status = .decoding ∨ (i = .term ∧ s.status = .assembling ∧ s.inRun = true) ∨
      ∃ b m n, i = .decode b m n) ∧
    (s.status.terminal = true → t.status ≠ s.status → i.isStart = true)

/-- R178: a fault of a run in progress changes the status and nothing else: every other write of the step is discarded.
R178 lets the writes be discarded or made unobservable; that the registers themselves stay is the model's form of it
(log entry 9). -/
def Obligations.FaultDiscardsTheStep : Prop :=
  ∀ (s t : State) (r : Reason), s.status.running = true → step s = .next t → t.status = .fault r →
    t = { s with status := .fault r }

/-- R134, R170, R9: while a run is in progress and the invariant holds, the step gives a next state: no stop of the
model's own is met, so the spec's faults are the only ways a run goes wrong. -/
def Obligations.RunningStepAlwaysHasNext : Prop :=
  ∀ s : State, s.Inv → s.status.running = true → ∃ t : State, step s = .next t

/-- R26, R37, R40, R22, R23, R39, R135, R163: every step keeps the invariant, from every state that has it. -/
def Obligations.EveryStepKeepsInvariant : Prop :=
  ∀ s t : State, s.Inv → step s = .next t → t.Inv

/-- The invariant holds at reset, where the status is IDLE and `MAXW` is 12 (R35, R34, R45). -/
def Obligations.ResetIsIdleAndHasInvariant : Prop :=
  State.reset.Inv ∧ State.reset.status = .idle ∧ State.reset.MAXW = 12 ∧ State.reset.BUF = [] ∧ State.reset.L = 0

/-- R115, R134, R204: every run ends: from a state with the invariant in which a run is in progress, at most
`(L - ap + 1) + (B + 1)` steps lead to a state in which none is, with `B` the bits there can be: while ASSEMBLING those
in `BS` and 8 for each byte from `ap` on; while DECODING the bound is `BL - bp + 1`. -/
def Obligations.EveryRunEnds : Prop :=
  ∀ s : State, s.Inv → s.status.running = true →
    ∃ (k : Nat) (t : State), k ≤ s.stepsLeft ∧ core.run k s = .next t ∧ t.status.running = false

/-- R161, R158, R159: DECODE_FILE ends with an answer: from a state with the invariant and no run in progress, the state
it gives leads, within the run's bound and one more step, to one in which the host has the grid of `out` and the image
width, all its colors below `N`; or DimensionMismatch, with a width that does not divide `|out|`; or the fault of the
run; or, at once, the error of a stage before RUN. Job and reply are the model's registers (log entries 16 and 19). -/
def Obligations.DecodeFileEndsWithGridOrError : Prop :=
  ∀ s t : State, s.Inv → s.status.running = false → exec .decodeFile s = .next t →
    ∃ (k : Nat) (u : State), k ≤ t.stepsLeft + 1 ∧ core.run k t = .next u ∧ u.host.job = .none ∧
      ((u.status = .done ∧ u.host.reply = .stageDone ∧ t.host.image.width.toNat ≠ 0 ∧
          u.out.length % t.host.image.width.toNat = 0 ∧ u.host.grid = gridRows u.out t.host.image.width.toNat ∧
          colorsBelow u.host.N u.out ∧ u.host.gct = t.host.gct ∧ u.host.N = t.host.N) ∨
        (u.status = .done ∧ u.host.reply = .error .dimensionMismatch ∧
          (t.host.image.width.toNat = 0 ∨ u.out.length % t.host.image.width.toNat ≠ 0)) ∨
        (∃ r, u.status = .fault r ∧ u.host.reply = .error (.block r)) ∨
        (u = t ∧ (u.host.reply = .error (.block .malformedHeader) ∨ u.host.reply = .error .imageDescriptorNotFound ∨
          (u.host.reply = .error .invalidColorTableSize ∧
            s.L < 13 + 3 * 2 ^ ((s.BUF.read 10).toNat % 8 + 1)))))

/-- R42, R43, R191, R44: nothing survives from one run to the next that the host could notice: two machines between runs
that the host cannot tell apart (same `MAXW`, `BUF`, `L`, host and observation; any table, width, `prev`, cursors,
stream, latched inputs) can never be told apart, however many steps they take. -/
def Obligations.NothingSurvivesARun : Prop :=
  ∀ (k : Nat) (s t : State), s.status.running = false → t.status.running = false → SameToHost s t →
    SameOutcome (core.run k s) (core.run k t)

/-- R38, R50: the buffer's representation: a write keeps the canonical form and changes the byte at its address alone,
and two buffers in canonical form that read alike are the same data (the form is the model's, log entry 5). -/
def Obligations.BufferFormIsCanonical : Prop :=
  (∀ (m : Memory) (a : Nat) (b : Byte), m.wf →
    (m.write a b).wf ∧ ∀ k, (m.write a b).read k = if k = a then b else m.read k) ∧
  (∀ m n : Memory, m.wf → n.wf → (∀ a, m.read a = n.read a) → m = n)
end

