-- ==== Sys2Proof/Laws/State.lean ====
section
/-! SUPPORT. Laws/State.lean: what each named update of the state does to each field, by rfl, so that no later proof unfolds a record update. -/

namespace Sys2Proof.Machine

/-! ## `State.raise` -/

@[simp] theorem State.raise_MAXW (s : State) (r : Reason) : (s.raise r).MAXW = s.MAXW := rfl
@[simp] theorem State.raise_BUF (s : State) (r : Reason) : (s.raise r).BUF = s.BUF := rfl
@[simp] theorem State.raise_L (s : State) (r : Reason) : (s.raise r).L = s.L := rfl
@[simp] theorem State.raise_S (s : State) (r : Reason) : (s.raise r).S = s.S := rfl
@[simp] theorem State.raise_N (s : State) (r : Reason) : (s.raise r).N = s.N := rfl
@[simp] theorem State.raise_mcs (s : State) (r : Reason) : (s.raise r).mcs = s.mcs := rfl
@[simp] theorem State.raise_status (s : State) (r : Reason) : (s.raise r).status = .fault r := rfl
@[simp] theorem State.raise_inRun (s : State) (r : Reason) : (s.raise r).inRun = s.inRun := rfl
@[simp] theorem State.raise_ap (s : State) (r : Reason) : (s.raise r).ap = s.ap := rfl
@[simp] theorem State.raise_BS (s : State) (r : Reason) : (s.raise r).BS = s.BS := rfl
@[simp] theorem State.raise_cw (s : State) (r : Reason) : (s.raise r).cw = s.cw := rfl
@[simp] theorem State.raise_cnt (s : State) (r : Reason) : (s.raise r).cnt = s.cnt := rfl
@[simp] theorem State.raise_prev (s : State) (r : Reason) : (s.raise r).prev = s.prev := rfl
@[simp] theorem State.raise_first (s : State) (r : Reason) : (s.raise r).first = s.first := rfl
@[simp] theorem State.raise_T (s : State) (r : Reason) : (s.raise r).T = s.T := rfl
@[simp] theorem State.raise_bp (s : State) (r : Reason) : (s.raise r).bp = s.bp := rfl
@[simp] theorem State.raise_out (s : State) (r : Reason) : (s.raise r).out = s.out := rfl
@[simp] theorem State.raise_host (s : State) (r : Reason) : (s.raise r).host = s.host := rfl

/-! ## `State.replyWith` -/

@[simp] theorem State.replyWith_MAXW (s : State) (r : Reply) : (s.replyWith r).MAXW = s.MAXW := rfl
@[simp] theorem State.replyWith_BUF (s : State) (r : Reply) : (s.replyWith r).BUF = s.BUF := rfl
@[simp] theorem State.replyWith_L (s : State) (r : Reply) : (s.replyWith r).L = s.L := rfl
@[simp] theorem State.replyWith_S (s : State) (r : Reply) : (s.replyWith r).S = s.S := rfl
@[simp] theorem State.replyWith_N (s : State) (r : Reply) : (s.replyWith r).N = s.N := rfl
@[simp] theorem State.replyWith_mcs (s : State) (r : Reply) : (s.replyWith r).mcs = s.mcs := rfl
@[simp] theorem State.replyWith_status (s : State) (r : Reply) : (s.replyWith r).status = s.status := rfl
@[simp] theorem State.replyWith_inRun (s : State) (r : Reply) : (s.replyWith r).inRun = s.inRun := rfl
@[simp] theorem State.replyWith_ap (s : State) (r : Reply) : (s.replyWith r).ap = s.ap := rfl
@[simp] theorem State.replyWith_BS (s : State) (r : Reply) : (s.replyWith r).BS = s.BS := rfl
@[simp] theorem State.replyWith_cw (s : State) (r : Reply) : (s.replyWith r).cw = s.cw := rfl
@[simp] theorem State.replyWith_cnt (s : State) (r : Reply) : (s.replyWith r).cnt = s.cnt := rfl
@[simp] theorem State.replyWith_prev (s : State) (r : Reply) : (s.replyWith r).prev = s.prev := rfl
@[simp] theorem State.replyWith_first (s : State) (r : Reply) : (s.replyWith r).first = s.first := rfl
@[simp] theorem State.replyWith_T (s : State) (r : Reply) : (s.replyWith r).T = s.T := rfl
@[simp] theorem State.replyWith_bp (s : State) (r : Reply) : (s.replyWith r).bp = s.bp := rfl
@[simp] theorem State.replyWith_out (s : State) (r : Reply) : (s.replyWith r).out = s.out := rfl
@[simp] theorem State.replyWith_host (s : State) (r : Reply) : (s.replyWith r).host = { s.host with reply := r } := rfl

/-! ## `State.hostFail` -/

@[simp] theorem State.hostFail_MAXW (s : State) (e : HostError) : (s.hostFail e).MAXW = s.MAXW := rfl
@[simp] theorem State.hostFail_BUF (s : State) (e : HostError) : (s.hostFail e).BUF = s.BUF := rfl
@[simp] theorem State.hostFail_L (s : State) (e : HostError) : (s.hostFail e).L = s.L := rfl
@[simp] theorem State.hostFail_S (s : State) (e : HostError) : (s.hostFail e).S = s.S := rfl
@[simp] theorem State.hostFail_N (s : State) (e : HostError) : (s.hostFail e).N = s.N := rfl
@[simp] theorem State.hostFail_mcs (s : State) (e : HostError) : (s.hostFail e).mcs = s.mcs := rfl
@[simp] theorem State.hostFail_status (s : State) (e : HostError) : (s.hostFail e).status = s.status := rfl
@[simp] theorem State.hostFail_inRun (s : State) (e : HostError) : (s.hostFail e).inRun = s.inRun := rfl
@[simp] theorem State.hostFail_ap (s : State) (e : HostError) : (s.hostFail e).ap = s.ap := rfl
@[simp] theorem State.hostFail_BS (s : State) (e : HostError) : (s.hostFail e).BS = s.BS := rfl
@[simp] theorem State.hostFail_cw (s : State) (e : HostError) : (s.hostFail e).cw = s.cw := rfl
@[simp] theorem State.hostFail_cnt (s : State) (e : HostError) : (s.hostFail e).cnt = s.cnt := rfl
@[simp] theorem State.hostFail_prev (s : State) (e : HostError) : (s.hostFail e).prev = s.prev := rfl
@[simp] theorem State.hostFail_first (s : State) (e : HostError) : (s.hostFail e).first = s.first := rfl
@[simp] theorem State.hostFail_T (s : State) (e : HostError) : (s.hostFail e).T = s.T := rfl
@[simp] theorem State.hostFail_bp (s : State) (e : HostError) : (s.hostFail e).bp = s.bp := rfl
@[simp] theorem State.hostFail_out (s : State) (e : HostError) : (s.hostFail e).out = s.out := rfl
@[simp] theorem State.hostFail_host (s : State) (e : HostError) : (s.hostFail e).host = { s.host with reply := .error e, job := .none } := rfl

/-! ## `State.resetTable` -/

@[simp] theorem State.resetTable_MAXW (s : State) : (s.resetTable).MAXW = s.MAXW := rfl
@[simp] theorem State.resetTable_BUF (s : State) : (s.resetTable).BUF = s.BUF := rfl
@[simp] theorem State.resetTable_L (s : State) : (s.resetTable).L = s.L := rfl
@[simp] theorem State.resetTable_S (s : State) : (s.resetTable).S = s.S := rfl
@[simp] theorem State.resetTable_N (s : State) : (s.resetTable).N = s.N := rfl
@[simp] theorem State.resetTable_mcs (s : State) : (s.resetTable).mcs = s.mcs := rfl
@[simp] theorem State.resetTable_status (s : State) : (s.resetTable).status = s.status := rfl
@[simp] theorem State.resetTable_inRun (s : State) : (s.resetTable).inRun = s.inRun := rfl
@[simp] theorem State.resetTable_ap (s : State) : (s.resetTable).ap = s.ap := rfl
@[simp] theorem State.resetTable_BS (s : State) : (s.resetTable).BS = s.BS := rfl
@[simp] theorem State.resetTable_cw (s : State) : (s.resetTable).cw = s.mcs.toNat + 1 := rfl
@[simp] theorem State.resetTable_cnt (s : State) : (s.resetTable).cnt = 0 := rfl
@[simp] theorem State.resetTable_prev (s : State) : (s.resetTable).prev = s.prev := rfl
@[simp] theorem State.resetTable_first (s : State) : (s.resetTable).first = true := rfl
@[simp] theorem State.resetTable_T (s : State) : (s.resetTable).T = initialTable s.N := rfl
@[simp] theorem State.resetTable_bp (s : State) : (s.resetTable).bp = s.bp := rfl
@[simp] theorem State.resetTable_out (s : State) : (s.resetTable).out = s.out := rfl
@[simp] theorem State.resetTable_host (s : State) : (s.resetTable).host = s.host := rfl

/-! ## `State.append` -/

@[simp] theorem State.append_MAXW (s : State) (c : List Nat) : (s.append c).MAXW = s.MAXW := rfl
@[simp] theorem State.append_BUF (s : State) (c : List Nat) : (s.append c).BUF = s.BUF := rfl
@[simp] theorem State.append_L (s : State) (c : List Nat) : (s.append c).L = s.L := rfl
@[simp] theorem State.append_S (s : State) (c : List Nat) : (s.append c).S = s.S := rfl
@[simp] theorem State.append_N (s : State) (c : List Nat) : (s.append c).N = s.N := rfl
@[simp] theorem State.append_mcs (s : State) (c : List Nat) : (s.append c).mcs = s.mcs := rfl
@[simp] theorem State.append_status (s : State) (c : List Nat) : (s.append c).status = s.status := rfl
@[simp] theorem State.append_inRun (s : State) (c : List Nat) : (s.append c).inRun = s.inRun := rfl
@[simp] theorem State.append_ap (s : State) (c : List Nat) : (s.append c).ap = s.ap := rfl
@[simp] theorem State.append_BS (s : State) (c : List Nat) : (s.append c).BS = s.BS := rfl
@[simp] theorem State.append_cw (s : State) (c : List Nat) : (s.append c).cw = s.cw := rfl
@[simp] theorem State.append_cnt (s : State) (c : List Nat) : (s.append c).cnt = s.cnt := rfl
@[simp] theorem State.append_prev (s : State) (c : List Nat) : (s.append c).prev = s.prev := rfl
@[simp] theorem State.append_first (s : State) (c : List Nat) : (s.append c).first = s.first := rfl
@[simp] theorem State.append_T (s : State) (c : List Nat) : (s.append c).T = s.T ++ [.color c] := rfl
@[simp] theorem State.append_bp (s : State) (c : List Nat) : (s.append c).bp = s.bp := rfl
@[simp] theorem State.append_out (s : State) (c : List Nat) : (s.append c).out = s.out := rfl
@[simp] theorem State.append_host (s : State) (c : List Nat) : (s.append c).host = s.host := rfl

/-! ## `State.clearFirst` -/

@[simp] theorem State.clearFirst_MAXW (s : State) : (s.clearFirst).MAXW = s.MAXW := rfl
@[simp] theorem State.clearFirst_BUF (s : State) : (s.clearFirst).BUF = s.BUF := rfl
@[simp] theorem State.clearFirst_L (s : State) : (s.clearFirst).L = s.L := rfl
@[simp] theorem State.clearFirst_S (s : State) : (s.clearFirst).S = s.S := rfl
@[simp] theorem State.clearFirst_N (s : State) : (s.clearFirst).N = s.N := rfl
@[simp] theorem State.clearFirst_mcs (s : State) : (s.clearFirst).mcs = s.mcs := rfl
@[simp] theorem State.clearFirst_status (s : State) : (s.clearFirst).status = s.status := rfl
@[simp] theorem State.clearFirst_inRun (s : State) : (s.clearFirst).inRun = s.inRun := rfl
@[simp] theorem State.clearFirst_ap (s : State) : (s.clearFirst).ap = s.ap := rfl
@[simp] theorem State.clearFirst_BS (s : State) : (s.clearFirst).BS = s.BS := rfl
@[simp] theorem State.clearFirst_cw (s : State) : (s.clearFirst).cw = s.cw := rfl
@[simp] theorem State.clearFirst_cnt (s : State) : (s.clearFirst).cnt = s.cnt := rfl
@[simp] theorem State.clearFirst_prev (s : State) : (s.clearFirst).prev = s.prev := rfl
@[simp] theorem State.clearFirst_first (s : State) : (s.clearFirst).first = false := rfl
@[simp] theorem State.clearFirst_T (s : State) : (s.clearFirst).T = s.T := rfl
@[simp] theorem State.clearFirst_bp (s : State) : (s.clearFirst).bp = s.bp := rfl
@[simp] theorem State.clearFirst_out (s : State) : (s.clearFirst).out = s.out := rfl
@[simp] theorem State.clearFirst_host (s : State) : (s.clearFirst).host = s.host := rfl

/-! ## `State.startAssemble` -/

@[simp] theorem State.startAssemble_MAXW (s : State) (p : Nat) (b : Bool) : (s.startAssemble p b).MAXW = s.MAXW := rfl
@[simp] theorem State.startAssemble_BUF (s : State) (p : Nat) (b : Bool) : (s.startAssemble p b).BUF = s.BUF := rfl
@[simp] theorem State.startAssemble_L (s : State) (p : Nat) (b : Bool) : (s.startAssemble p b).L = s.L := rfl
@[simp] theorem State.startAssemble_S (s : State) (p : Nat) (b : Bool) : (s.startAssemble p b).S = s.S := rfl
@[simp] theorem State.startAssemble_N (s : State) (p : Nat) (b : Bool) : (s.startAssemble p b).N = s.N := rfl
@[simp] theorem State.startAssemble_mcs (s : State) (p : Nat) (b : Bool) : (s.startAssemble p b).mcs = s.mcs := rfl
@[simp] theorem State.startAssemble_status (s : State) (p : Nat) (b : Bool) : (s.startAssemble p b).status = .assembling := rfl
@[simp] theorem State.startAssemble_inRun (s : State) (p : Nat) (b : Bool) : (s.startAssemble p b).inRun = b := rfl
@[simp] theorem State.startAssemble_ap (s : State) (p : Nat) (b : Bool) : (s.startAssemble p b).ap = p := rfl
@[simp] theorem State.startAssemble_BS (s : State) (p : Nat) (b : Bool) : (s.startAssemble p b).BS = [] := rfl
@[simp] theorem State.startAssemble_cw (s : State) (p : Nat) (b : Bool) : (s.startAssemble p b).cw = s.cw := rfl
@[simp] theorem State.startAssemble_cnt (s : State) (p : Nat) (b : Bool) : (s.startAssemble p b).cnt = s.cnt := rfl
@[simp] theorem State.startAssemble_prev (s : State) (p : Nat) (b : Bool) : (s.startAssemble p b).prev = s.prev := rfl
@[simp] theorem State.startAssemble_first (s : State) (p : Nat) (b : Bool) : (s.startAssemble p b).first = s.first := rfl
@[simp] theorem State.startAssemble_T (s : State) (p : Nat) (b : Bool) : (s.startAssemble p b).T = s.T := rfl
@[simp] theorem State.startAssemble_bp (s : State) (p : Nat) (b : Bool) : (s.startAssemble p b).bp = s.bp := rfl
@[simp] theorem State.startAssemble_out (s : State) (p : Nat) (b : Bool) : (s.startAssemble p b).out = s.out := rfl
@[simp] theorem State.startAssemble_host (s : State) (p : Nat) (b : Bool) : (s.startAssemble p b).host = { s.host with reply := .none } := rfl

/-! ## `State.loadBuffer` -/

@[simp] theorem State.loadBuffer_MAXW (s : State) (f : List Byte) : (s.loadBuffer f).MAXW = s.MAXW := rfl
@[simp] theorem State.loadBuffer_BUF (s : State) (f : List Byte) : (s.loadBuffer f).BUF = Memory.ofBytes 0 f := rfl
@[simp] theorem State.loadBuffer_L (s : State) (f : List Byte) : (s.loadBuffer f).L = f.length := rfl
@[simp] theorem State.loadBuffer_S (s : State) (f : List Byte) : (s.loadBuffer f).S = s.S := rfl
@[simp] theorem State.loadBuffer_N (s : State) (f : List Byte) : (s.loadBuffer f).N = s.N := rfl
@[simp] theorem State.loadBuffer_mcs (s : State) (f : List Byte) : (s.loadBuffer f).mcs = s.mcs := rfl
@[simp] theorem State.loadBuffer_status (s : State) (f : List Byte) : (s.loadBuffer f).status = s.status := rfl
@[simp] theorem State.loadBuffer_inRun (s : State) (f : List Byte) : (s.loadBuffer f).inRun = s.inRun := rfl
@[simp] theorem State.loadBuffer_ap (s : State) (f : List Byte) : (s.loadBuffer f).ap = s.ap := rfl
@[simp] theorem State.loadBuffer_BS (s : State) (f : List Byte) : (s.loadBuffer f).BS = s.BS := rfl
@[simp] theorem State.loadBuffer_cw (s : State) (f : List Byte) : (s.loadBuffer f).cw = s.cw := rfl
@[simp] theorem State.loadBuffer_cnt (s : State) (f : List Byte) : (s.loadBuffer f).cnt = s.cnt := rfl
@[simp] theorem State.loadBuffer_prev (s : State) (f : List Byte) : (s.loadBuffer f).prev = s.prev := rfl
@[simp] theorem State.loadBuffer_first (s : State) (f : List Byte) : (s.loadBuffer f).first = s.first := rfl
@[simp] theorem State.loadBuffer_T (s : State) (f : List Byte) : (s.loadBuffer f).T = s.T := rfl
@[simp] theorem State.loadBuffer_bp (s : State) (f : List Byte) : (s.loadBuffer f).bp = s.bp := rfl
@[simp] theorem State.loadBuffer_out (s : State) (f : List Byte) : (s.loadBuffer f).out = s.out := rfl
@[simp] theorem State.loadBuffer_host (s : State) (f : List Byte) : (s.loadBuffer f).host = s.host := rfl

/-! ## `State.endJob` -/

@[simp] theorem State.endJob_MAXW (s : State) : (s.endJob).MAXW = s.MAXW := rfl
@[simp] theorem State.endJob_BUF (s : State) : (s.endJob).BUF = s.BUF := rfl
@[simp] theorem State.endJob_L (s : State) : (s.endJob).L = s.L := rfl
@[simp] theorem State.endJob_S (s : State) : (s.endJob).S = s.S := rfl
@[simp] theorem State.endJob_N (s : State) : (s.endJob).N = s.N := rfl
@[simp] theorem State.endJob_mcs (s : State) : (s.endJob).mcs = s.mcs := rfl
@[simp] theorem State.endJob_status (s : State) : (s.endJob).status = s.status := rfl
@[simp] theorem State.endJob_inRun (s : State) : (s.endJob).inRun = s.inRun := rfl
@[simp] theorem State.endJob_ap (s : State) : (s.endJob).ap = s.ap := rfl
@[simp] theorem State.endJob_BS (s : State) : (s.endJob).BS = s.BS := rfl
@[simp] theorem State.endJob_cw (s : State) : (s.endJob).cw = s.cw := rfl
@[simp] theorem State.endJob_cnt (s : State) : (s.endJob).cnt = s.cnt := rfl
@[simp] theorem State.endJob_prev (s : State) : (s.endJob).prev = s.prev := rfl
@[simp] theorem State.endJob_first (s : State) : (s.endJob).first = s.first := rfl
@[simp] theorem State.endJob_T (s : State) : (s.endJob).T = s.T := rfl
@[simp] theorem State.endJob_bp (s : State) : (s.endJob).bp = s.bp := rfl
@[simp] theorem State.endJob_out (s : State) : (s.endJob).out = s.out := rfl
@[simp] theorem State.endJob_host (s : State) : (s.endJob).host = { s.host with job := .none } := rfl

/-! ## `State.popQueue` -/

@[simp] theorem State.popQueue_MAXW (s : State) : (s.popQueue).MAXW = s.MAXW := rfl
@[simp] theorem State.popQueue_BUF (s : State) : (s.popQueue).BUF = s.BUF := rfl
@[simp] theorem State.popQueue_L (s : State) : (s.popQueue).L = s.L := rfl
@[simp] theorem State.popQueue_S (s : State) : (s.popQueue).S = s.S := rfl
@[simp] theorem State.popQueue_N (s : State) : (s.popQueue).N = s.N := rfl
@[simp] theorem State.popQueue_mcs (s : State) : (s.popQueue).mcs = s.mcs := rfl
@[simp] theorem State.popQueue_status (s : State) : (s.popQueue).status = s.status := rfl
@[simp] theorem State.popQueue_inRun (s : State) : (s.popQueue).inRun = s.inRun := rfl
@[simp] theorem State.popQueue_ap (s : State) : (s.popQueue).ap = s.ap := rfl
@[simp] theorem State.popQueue_BS (s : State) : (s.popQueue).BS = s.BS := rfl
@[simp] theorem State.popQueue_cw (s : State) : (s.popQueue).cw = s.cw := rfl
@[simp] theorem State.popQueue_cnt (s : State) : (s.popQueue).cnt = s.cnt := rfl
@[simp] theorem State.popQueue_prev (s : State) : (s.popQueue).prev = s.prev := rfl
@[simp] theorem State.popQueue_first (s : State) : (s.popQueue).first = s.first := rfl
@[simp] theorem State.popQueue_T (s : State) : (s.popQueue).T = s.T := rfl
@[simp] theorem State.popQueue_bp (s : State) : (s.popQueue).bp = s.bp := rfl
@[simp] theorem State.popQueue_out (s : State) : (s.popQueue).out = s.out := rfl
@[simp] theorem State.popQueue_host (s : State) : (s.popQueue).host = { s.host with queue := s.host.queue.tail } := rfl

end Sys2Proof.Machine
end

