-- ==== Sys2Proof/Laws/Ops.lean ====
section
/-! SUPPORT. Laws/Ops.lean: for each shared operation, what it can do, said once: the buffer and its canonical form, the end of a step, the A-step and D-step wrappers, the tail, the starts and the table reads. -/

namespace Sys2Proof.Machine

/-! ## The buffer -/

theorem Memory.read_of_forall_lt {m : Memory} {a : Nat} (h : ∀ c ∈ m, a < c.1) : m.read a = 0 := by
  induction m with
  | nil => rfl
  | cons c m ih =>
    obtain ⟨k, b⟩ := c
    have hk : a < k := h (k, b) (by simp)
    have : k ≠ a := by omega
    simp only [Memory.read, this, if_false]
    exact ih fun c hc => h c (by simp [hc])

theorem Memory.wf_cons {k : Nat} {b : Byte} {m : Memory} :
    Memory.wf ((k, b) :: m) ↔ (∀ c ∈ m, k < c.1) ∧ b ≠ 0 ∧ Memory.wf m := by
  simp only [Memory.wf, List.pairwise_cons, List.forall_mem_cons]
  tauto

theorem Memory.write_mem {m : Memory} {a : Nat} {b : Byte} {c : Host.Cell} (h : c ∈ m.write a b) :
    c ∈ m ∨ c = (a, b) := by
  induction m with
  | nil =>
    simp only [Memory.write] at h
    split at h <;> simp_all
  | cons d m ih =>
    obtain ⟨k, v⟩ := d
    simp only [Memory.write] at h
    split at h
    · split at h
      · exact .inl h
      · rcases List.mem_cons.1 h with h | h
        · exact .inr h
        · exact .inl h
    · split at h
      · split at h
        · exact .inl (List.mem_cons_of_mem _ h)
        · rcases List.mem_cons.1 h with h | h
          · exact .inr h
          · exact .inl (List.mem_cons_of_mem _ h)
      · rcases List.mem_cons.1 h with h | h
        · exact .inl (by simp [h])
        · rcases ih h with h | h
          · exact .inl (List.mem_cons_of_mem _ h)
          · exact .inr h

/-- A write keeps the canonical form. -/
theorem Memory.write_wf {m : Memory} (a : Nat) (b : Byte) (h : m.wf) : (m.write a b).wf := by
  induction m with
  | nil =>
    simp only [Memory.write]
    split
    · exact h
    · simp_all [Memory.wf]
  | cons d m ih =>
    obtain ⟨k, v⟩ := d
    have hw := h
    rw [Memory.wf_cons] at h
    obtain ⟨hlt, hv, hm⟩ := h
    simp only [Memory.write]
    split
    · rename_i hak
      split
      · exact hw
      · rename_i hb
        refine Memory.wf_cons.2 ⟨fun c hc => ?_, hb, hw⟩
        rcases List.mem_cons.1 hc with rfl | hc
        · exact hak
        · exact Nat.lt_trans hak (hlt c hc)
    · split
      · rename_i hak
        split
        · exact hm
        · rename_i hb
          exact Memory.wf_cons.2 ⟨fun c hc => by have := hlt c hc; omega, hb, hm⟩
      · refine Memory.wf_cons.2 ⟨fun c hc => ?_, hv, ih hm⟩
        rcases Memory.write_mem hc with hc | rfl
        · exact hlt c hc
        · show k < a
          omega

/-- Writing bytes one after another keeps the canonical form. -/
theorem Memory.writeBytes_wf {m : Memory} (a : Nat) (bs : List Byte) (h : m.wf) : (m.writeBytes a bs).wf := by
  induction bs generalizing m a with
  | nil => exact h
  | cons b bs ih => exact ih (a + 1) (Memory.write_wf a b h)

theorem Memory.ofBytes_mem {a : Nat} {bs : List Byte} {c : Host.Cell} (h : c ∈ Memory.ofBytes a bs) :
    a ≤ c.1 ∧ c.1 < a + bs.length := by
  induction bs generalizing a with
  | nil => simp [Memory.ofBytes] at h
  | cons b bs ih =>
    simp only [Memory.ofBytes] at h
    simp only [List.length_cons]
    split at h
    · have := ih h; omega
    · rcases List.mem_cons.1 h with rfl | h
      · simp
      · have := ih h; omega

/-- The load of a file gives a buffer in canonical form. -/
theorem Memory.ofBytes_wf (a : Nat) (bs : List Byte) : (Memory.ofBytes a bs).wf := by
  induction bs generalizing a with
  | nil => simp [Memory.ofBytes, Memory.wf]
  | cons b bs ih =>
    simp only [Memory.ofBytes]
    split
    · exact ih (a + 1)
    · rename_i hb
      exact Memory.wf_cons.2 ⟨fun c hc => by have := (Memory.ofBytes_mem hc).1; omega, hb, ih (a + 1)⟩

/-- The buffer after reset is in canonical form. -/
theorem reset_memory_wf : State.reset.BUF.wf := by decide

theorem Memory.ofBytes_read (a : Nat) (bs : List Byte) (k : Nat) :
    (Memory.ofBytes a bs).read (a + k) = bs[k]?.getD 0 := by
  induction bs generalizing a k with
  | nil => rfl
  | cons b bs ih =>
    simp only [Memory.ofBytes]
    cases k with
    | zero =>
      split
      · rename_i hb
        rw [Memory.read_of_forall_lt fun c hc => by have := (Memory.ofBytes_mem hc).1; omega]
        simp [hb]
      · simp [Memory.read]
    | succ k =>
      have hne : a ≠ a + (k + 1) := by omega
      have := ih (a + 1) k
      rw [show a + 1 + k = a + (k + 1) by omega] at this
      split
      · simpa using this
      · simpa [Memory.read, hne] using this

@[simp] theorem State.bytesAt_length (s : State) (a n : Nat) : (s.bytesAt a n).length = min n (s.L - a) := by
  simp [State.bytesAt]

theorem State.bytesAt_getElem? (s : State) (a n k : Nat) (h : k < min n (s.L - a)) :
    (s.bytesAt a n)[k]? = some (s.BUF.read (a + k)) := by
  simp [State.bytesAt, h]

theorem Memory.findSeparator_succ (m : Memory) (fuel a : Nat) :
    m.findSeparator (fuel + 1) a = if m.read a = 0x2C then some a else m.findSeparator fuel (a + 1) := rfl

/-- The scan gives the least offset that holds the separator (R156). -/
theorem Memory.findSeparator_eq_some {m : Memory} {fuel a b : Nat} :
    m.findSeparator fuel a = some b ↔
      a ≤ b ∧ b < a + fuel ∧ m.read b = 0x2C ∧ ∀ k, a ≤ k → k < b → m.read k ≠ 0x2C := by
  induction fuel generalizing a with
  | zero => simp [Memory.findSeparator]; omega
  | succ fuel ih =>
    rw [Memory.findSeparator_succ]
    by_cases h : m.read a = 0x2C
    · rw [if_pos h]
      constructor
      · rintro ⟨⟩
        exact ⟨le_rfl, by omega, h, fun k h1 h2 => by omega⟩
      · rintro ⟨h1, h2, h3, h4⟩
        by_cases hab : a = b
        · rw [hab]
        · exact absurd h (h4 a le_rfl (by omega))
    · rw [if_neg h, ih]
      constructor
      · rintro ⟨h1, h2, h3, h4⟩
        refine ⟨by omega, by omega, h3, fun k hk hkb => ?_⟩
        by_cases hka : k = a
        · rw [hka]; exact h
        · exact h4 k (by omega) hkb
      · rintro ⟨h1, h2, h3, h4⟩
        have hab : a ≠ b := fun e => h (e ▸ h3)
        exact ⟨by omega, by omega, h3, fun k hk => h4 k (by omega)⟩

theorem Memory.findSeparator_eq_none {m : Memory} {fuel a : Nat} :
    m.findSeparator fuel a = none ↔ ∀ k, a ≤ k → k < a + fuel → m.read k ≠ 0x2C := by
  induction fuel generalizing a with
  | zero => simp [Memory.findSeparator]; omega
  | succ fuel ih =>
    rw [Memory.findSeparator_succ]
    by_cases h : m.read a = 0x2C
    · rw [if_pos h]
      simp only [reduceCtorEq, false_iff, not_forall]
      exact ⟨a, le_rfl, by omega, fun h' => h' h⟩
    · rw [if_neg h, ih]
      constructor
      · intro h' k hk hkb
        by_cases hka : k = a
        · rw [hka]; exact h
        · exact h' k (by omega) (by omega)
      · exact fun h' k hk hkb => h' k (by omega) (by omega)

/-! ## The end of a step -/

/-- When a meaning answers a next state: what it built, or what its raise or its host error leaves. -/
theorem commit_eq_next {s t : State} {x : Except Stop State} :
    commit s x = .next t ↔ x = .ok t ∨ (∃ r, x = .error (.raise r) ∧ t = s.raise r) ∨
      ∃ e, x = .error (.hostFail e) ∧ t = s.hostFail e := by
  rcases x with (r | e | f | r) | u <;> simp [commit, eq_comm]

theorem commit_eq_fault {s : State} {f : Fault} {x : Except Stop State} :
    commit s x = .fault f ↔ x = .error (.fault f) := by
  rcases x with (r | e | f | r) | u <;> simp [commit]

theorem commit_eq_refused {s : State} {r : Refusal} {x : Except Stop State} :
    commit s x = .refused r ↔ x = .error (.refuse r) := by
  rcases x with (r | e | f | r) | u <;> simp [commit]

@[simp] theorem commit_ok (s t : State) : commit s (.ok t) = .next t := rfl
@[simp] theorem commit_raise (s : State) (r : Reason) : commit s (.error (.raise r)) = .next (s.raise r) := rfl
@[simp] theorem commit_hostFail (s : State) (e : HostError) : commit s (.error (.hostFail e)) = .next (s.hostFail e) := rfl
@[simp] theorem commit_fault (s : State) (f : Fault) : commit s (.error (.fault f)) = .fault f := rfl
@[simp] theorem commit_refuse (s : State) (r : Refusal) : commit s (.error (.refuse r)) = .refused r := rfl

@[simp] theorem onBlock_ok {α : Type} (a : α) : onBlock (.ok a) = .ok a := rfl
@[simp] theorem onBlock_error {α : Type} (r : Reason) : onBlock (α := α) (.error r) = .error (.raise r) := rfl
@[simp] theorem onHost_ok {α : Type} (a : α) : onHost (.ok a) = .ok a := rfl
@[simp] theorem onHost_error {α : Type} (r : Reason) :
    onHost (α := α) (.error r) = .error (.hostFail (.block r)) := rfl

@[simp] theorem State.whenNotRunning_of_not {s : State} {x : Except Stop State} (h : s.status.running = false) :
    s.whenNotRunning x = x := by simp [State.whenNotRunning, h]

@[simp] theorem State.whenNotRunning_of_running {s : State} {x : Except Stop State} (h : s.status.running = true) :
    s.whenNotRunning x = .error (.refuse .runInProgress) := by simp [State.whenNotRunning, h]

/-! ## The code table and the decoder's reads -/

@[simp] theorem initialTable_length (n : Nat) : (initialTable n).length = n + 2 := by simp [initialTable]

theorem initialTable_color {n i : Nat} (h : i < n) : (initialTable n)[i]? = some (.color [i]) := by
  simp [initialTable, List.getElem?_append, h]

theorem State.colorsAt_eq_ok {s : State} {c x : Nat} {xs : List Nat} :
    s.colorsAt c = .ok (x, xs) ↔ s.T[c]? = some (.color (x :: xs)) := by
  unfold State.colorsAt
  split <;> rename_i h <;> simp [h]

theorem State.colorsAt_error {s : State} {c : Nat} {e : Stop} (h : s.colorsAt c = .error e) :
    e = .fault .noColorEntry := by
  unfold State.colorsAt at h
  split at h <;> simp_all

theorem State.prevColors_eq_ok {s : State} {x : Nat} {xs : List Nat} :
    s.prevColors = .ok (x, xs) ↔ ∃ p, s.prev = some p ∧ s.T[p]? = some (.color (x :: xs)) := by
  unfold State.prevColors
  cases s.prev <;> simp [State.colorsAt_eq_ok]

theorem State.prevColors_error {s : State} {e : Stop} (h : s.prevColors = .error e) :
    e = .fault .prevUnwritten ∨ e = .fault .noColorEntry := by
  unfold State.prevColors at h
  split at h
  · left; simpa using h.symm
  · right; exact State.colorsAt_error h

/-! ## The step wrappers -/

/-- What an enabled D-step with enough bits and the right class is: its class rule, past the fetch (R132). -/
theorem State.dStep_of_enabled {s : State} {cls : CodeClass} {code : Nat} {body : State → Except Stop State}
    (hd : s.status = .decoding) (hb : s.bp + s.cw ≤ s.BL) (hc : classify s.N s.T.length code = cls) :
    s.dStep cls code body = body { s with bp := s.bp + s.cw } := by
  simp [State.dStep, hd, Nat.not_lt.2 hb, hc]

/-- Everything a D-step can do. -/
theorem State.dStep_cases {s : State} {cls : CodeClass} {code : Nat} {body : State → Except Stop State}
    {x : Except Stop State} (h : s.dStep cls code body = x) :
    (s.status ≠ .decoding ∧ x = .error (.refuse .decoderNotEnabled)) ∨
    (s.status = .decoding ∧ s.BL < s.bp + s.cw ∧ x = .error (.raise .truncatedStream)) ∨
    (s.status = .decoding ∧ s.bp + s.cw ≤ s.BL ∧ classify s.N s.T.length code ≠ cls ∧
      x = .error (.refuse .notThisClass)) ∨
    (s.status = .decoding ∧ s.bp + s.cw ≤ s.BL ∧ classify s.N s.T.length code = cls ∧
      x = body { s with bp := s.bp + s.cw }) := by
  unfold State.dStep at h
  split at h
  · exact .inl ⟨‹_›, h.symm⟩
  · rename_i hd
    simp only [ne_eq, Decidable.not_not] at hd
    split at h
    · exact .inr (.inl ⟨hd, ‹_›, h.symm⟩)
    · rename_i hb
      split at h
      · exact .inr (.inr (.inl ⟨hd, Nat.not_lt.1 hb, ‹_›, h.symm⟩))
      · rename_i hc
        simp only [ne_eq, Decidable.not_not] at hc
        exact .inr (.inr (.inr ⟨hd, Nat.not_lt.1 hb, hc, h.symm⟩))

theorem State.aStep_of_enabled {s : State} {len : Nat} {body : State → Except Stop State}
    (ha : s.status = .assembling) (hb : s.ap + len ≤ s.L) : s.aStep len body = body { s with ap := s.ap + len } := by
  simp [State.aStep, ha, Nat.not_lt.2 hb]

/-- Everything an A-step can do. -/
theorem State.aStep_cases {s : State} {len : Nat} {body : State → Except Stop State} {x : Except Stop State}
    (h : s.aStep len body = x) :
    (s.status ≠ .assembling ∧ x = .error (.refuse .assemblerNotEnabled)) ∨
    (s.status = .assembling ∧ s.L < s.ap + len ∧ x = .error (.raise .truncatedStream)) ∨
    (s.status = .assembling ∧ s.ap + len ≤ s.L ∧ x = body { s with ap := s.ap + len }) := by
  unfold State.aStep at h
  split at h
  · exact .inl ⟨‹_›, h.symm⟩
  · rename_i ha
    simp only [ne_eq, Decidable.not_not] at ha
    split at h
    · exact .inr (.inl ⟨ha, ‹_›, h.symm⟩)
    · exact .inr (.inr ⟨ha, Nat.not_lt.1 ‹_›, h.symm⟩)

/-- Everything the tail can do (R131). -/
theorem State.tail_cases {s : State} {code : Nat} {x : Except Stop State} (h : s.tail code = x) :
    (s.cnt + 1 ≠ s.threshold ∧ x = .ok { s with cnt := s.cnt + 1, prev := some code }) ∨
    (s.cnt + 1 = s.threshold ∧ s.cw ≠ s.MAXW ∧ x = .ok { s with cnt := 0, prev := some code, cw := s.cw + 1 }) ∨
    (s.cnt + 1 = s.threshold ∧ s.cw = s.MAXW ∧ x = .error (.raise .codeWidthOverflow)) := by
  unfold State.tail at h
  split at h
  · split at h
    · exact .inr (.inr ⟨‹_›, ‹_›, h.symm⟩)
    · exact .inr (.inl ⟨‹_›, ‹_›, h.symm⟩)
  · exact .inl ⟨‹_›, h.symm⟩

/-- Everything DECODE start can do (R121). -/
theorem State.startDecode_cases {s : State} {x : Except Stop State} (h : s.startDecode = x) :
    (s.MAXW < s.mcs.toNat + 1 ∧ x = .error (.raise .codeWidthOverflow)) ∨
    (s.mcs.toNat + 1 ≤ s.MAXW ∧
      x = .ok { s.resetTable with status := .decoding, prev := none, bp := 0, out := [] }) := by
  unfold State.startDecode at h
  split at h
  · exact .inl ⟨‹_›, h.symm⟩
  · exact .inr ⟨Nat.not_lt.1 ‹_›, h.symm⟩

/-- Everything the start of a RUN can do (R133). -/
theorem State.startRun_cases {s : State} {sp n : Nat} {x : Except Stop State} (h : s.startRun sp n = x) :
    (s.L ≤ sp + 10 ∧ x = .error (.raise .malformedHeader)) ∨
    (sp + 10 < s.L ∧
      x = .ok (State.startAssemble { s with S := sp, N := n, mcs := s.BUF.read (sp + 10) } (sp + 11) true)) := by
  unfold State.startRun State.readByte at h
  simp only [Config.mcsDistance, Config.recordsDistance] at h
  by_cases hL : s.L ≤ sp + 10
  · rw [if_pos hL] at h
    exact .inl ⟨hL, h.symm⟩
  · rw [if_neg hL] at h
    exact .inr ⟨Nat.not_le.1 hL, h.symm⟩

/-- The table extension of a KNOWN step (R127). -/
theorem State.extendKnown_cases {t : State} {x : Nat} {y : Except Stop State} (h : t.extendKnown x = y) :
    (t.first = true ∧ y = .ok t.clearFirst) ∨
    (t.first = false ∧ ∃ z zs, t.prevColors = .ok (z, zs) ∧ y = .ok (t.append (z :: zs ++ [x]))) ∨
    (t.first = false ∧ ∃ e, t.prevColors = .error e ∧ y = .error e) := by
  unfold State.extendKnown at h
  split at h
  · exact .inl ⟨‹_›, h.symm⟩
  · rename_i hf
    simp only [Bool.not_eq_true] at hf
    split at h
    · exact .inr (.inl ⟨hf, _, _, ‹_›, h.symm⟩)
    · exact .inr (.inr ⟨hf, _, ‹_›, h.symm⟩)

end Sys2Proof.Machine
end

