-- ==== Sys2Proof/Laws/Codes.lean ====
section
/-! SUPPORT. Laws/Codes.lean: what the class rules of KNOWN and KWKWK are, forwards and by cases, and what every D-step that answers a next state is. -/

namespace Sys2Proof.Machine

theorem State.knownStep_first {t : State} {c x : Nat} {xs : List Nat} (ht : t.T[c]? = some (.color (x :: xs)))
    (hf : t.first = true) :
    t.knownStep c = State.tail { t with out := t.out ++ x :: xs, first := false } c := by
  simp only [State.knownStep, State.colorsAt_eq_ok.2 ht, State.extendKnown, hf, if_true, State.clearFirst]

theorem State.knownStep_next {t : State} {c x p y : Nat} {xs ys : List Nat} (ht : t.T[c]? = some (.color (x :: xs)))
    (hf : t.first = false) (hp : t.prev = some p) (htp : t.T[p]? = some (.color (y :: ys))) :
    t.knownStep c = State.tail { t with out := t.out ++ x :: xs, T := t.T ++ [.color (y :: ys ++ [x])] } c := by
  simp only [State.knownStep, State.colorsAt_eq_ok.2 ht, State.extendKnown, State.prevColors_eq_ok.2 ⟨p, hp, htp⟩,
    State.append]
  rw [if_neg (by simp [hf])]

theorem State.kwkwkStep_first {t : State} {c : Nat} (hf : t.first = true) :
    t.kwkwkStep c = .error (.raise .corruptCodeStream) := by simp [State.kwkwkStep, hf]

theorem State.kwkwkStep_next {t : State} {c p x : Nat} {xs : List Nat} (hf : t.first = false)
    (hp : t.prev = some p) (htp : t.T[p]? = some (.color (x :: xs))) :
    t.kwkwkStep c = State.tail { t with
      out := t.out ++ (x :: xs ++ [x]), T := t.T ++ [.color (x :: xs ++ [x])] } c := by
  simp only [State.kwkwkStep, State.prevColors_eq_ok.2 ⟨p, hp, htp⟩, State.append]
  rw [if_neg (by simp [hf])]

/-- Everything the class rule of KNOWN can do: the first code after a reset, a later one, or an unreachable read (R26). -/
theorem State.knownStep_cases (t : State) (c : Nat) :
    (∃ x xs, t.T[c]? = some (.color (x :: xs)) ∧ t.first = true ∧
      t.knownStep c = State.tail { t with out := t.out ++ x :: xs, first := false } c) ∨
    (∃ x xs p y ys, t.T[c]? = some (.color (x :: xs)) ∧ t.first = false ∧ t.prev = some p ∧
      t.T[p]? = some (.color (y :: ys)) ∧
      t.knownStep c = State.tail { t with out := t.out ++ x :: xs, T := t.T ++ [.color (y :: ys ++ [x])] } c) ∨
    ((∀ x xs, t.T[c]? ≠ some (.color (x :: xs))) ∧ t.knownStep c = .error (.fault .noColorEntry)) ∨
    (t.first = false ∧ (∀ p y ys, t.prev = some p → t.T[p]? ≠ some (.color (y :: ys))) ∧
      ∃ f, t.knownStep c = .error (.fault f)) := by
  cases hc : t.colorsAt c with
  | error e =>
    refine .inr (.inr (.inl ⟨fun x xs hx => ?_, ?_⟩))
    · rw [State.colorsAt_eq_ok.2 hx] at hc; cases hc
    · rw [← State.colorsAt_error hc]; simp only [State.knownStep, hc]
  | ok p =>
    obtain ⟨x, xs⟩ := p
    have ht := State.colorsAt_eq_ok.1 hc
    rcases Bool.eq_false_or_eq_true t.first with hf | hf
    · exact .inl ⟨x, xs, ht, hf, State.knownStep_first ht hf⟩
    · cases hpc : t.prevColors with
      | ok q =>
        obtain ⟨y, ys⟩ := q
        obtain ⟨p, hp, htp⟩ := State.prevColors_eq_ok.1 hpc
        exact .inr (.inl ⟨x, xs, p, y, ys, ht, hf, hp, htp, State.knownStep_next ht hf hp htp⟩)
      | error e =>
        refine .inr (.inr (.inr ⟨hf, fun p y ys hp htp => ?_, ?_⟩))
        · rw [State.prevColors_eq_ok.2 ⟨p, hp, htp⟩] at hpc; cases hpc
        · have : t.knownStep c = .error e := by
            simp only [State.knownStep, hc, State.extendKnown, hpc]
            rw [if_neg (by simp [hf])]
          rcases State.prevColors_error hpc with rfl | rfl
          · exact ⟨_, this⟩
          · exact ⟨_, this⟩

/-- Everything the class rule of KWKWK can do. -/
theorem State.kwkwkStep_cases (t : State) (c : Nat) :
    (t.first = true ∧ t.kwkwkStep c = .error (.raise .corruptCodeStream)) ∨
    (∃ p x xs, t.first = false ∧ t.prev = some p ∧ t.T[p]? = some (.color (x :: xs)) ∧
      t.kwkwkStep c = State.tail { t with
        out := t.out ++ (x :: xs ++ [x]), T := t.T ++ [.color (x :: xs ++ [x])] } c) ∨
    (t.first = false ∧ (∀ p y ys, t.prev = some p → t.T[p]? ≠ some (.color (y :: ys))) ∧
      ∃ f, t.kwkwkStep c = .error (.fault f)) := by
  rcases Bool.eq_false_or_eq_true t.first with hf | hf
  · exact .inl ⟨hf, State.kwkwkStep_first hf⟩
  · cases hpc : t.prevColors with
    | ok q =>
      obtain ⟨x, xs⟩ := q
      obtain ⟨p, hp, htp⟩ := State.prevColors_eq_ok.1 hpc
      exact .inr (.inl ⟨p, x, xs, hf, hp, htp, State.kwkwkStep_next hf hp htp⟩)
    | error e =>
      refine .inr (.inr ⟨hf, fun p y ys hp htp => ?_, ?_⟩)
      · rw [State.prevColors_eq_ok.2 ⟨p, hp, htp⟩] at hpc; cases hpc
      · have : t.kwkwkStep c = .error e := by
          simp only [State.kwkwkStep, hpc]
          rw [if_neg (by simp [hf])]
        rcases State.prevColors_error hpc with rfl | rfl
        · exact ⟨_, this⟩
        · exact ⟨_, this⟩

/-- A D-step answers a next state when it is enabled: TruncatedStream for want of bits, or what its class rule gives. -/
theorem commit_dStep_eq_next {s t : State} {cls : CodeClass} {code : Nat} {body : State → Except Stop State} :
    commit s (s.dStep cls code body) = .next t ↔
      (s.status = .decoding ∧ s.BL < s.bp + s.cw ∧ t = s.raise .truncatedStream) ∨
      (s.status = .decoding ∧ s.bp + s.cw ≤ s.BL ∧ classify s.N s.T.length code = cls ∧
        commit s (body { s with bp := s.bp + s.cw }) = .next t) := by
  constructor
  · intro h
    rcases State.dStep_cases (s := s) (cls := cls) (code := code) (body := body) rfl with
      ⟨_, e⟩ | ⟨h1, h2, e⟩ | ⟨_, _, _, e⟩ | ⟨h1, h2, h3, e⟩ <;> rw [e] at h
    · simp at h
    · exact .inl ⟨h1, h2, by simpa [eq_comm] using h⟩
    · simp at h
    · exact .inr ⟨h1, h2, h3, h⟩
  · rintro (⟨h1, h2, rfl⟩ | ⟨h1, h2, h3, h⟩)
    · simp [State.dStep, h1, h2]
    · rw [State.dStep_of_enabled h1 h2 h3, h]

/-- An A-step answers a next state when it is enabled: TruncatedStream for want of bytes, or what its record rule gives. -/
theorem commit_aStep_eq_next {s t : State} {len : Nat} {body : State → Except Stop State} :
    commit s (s.aStep len body) = .next t ↔
      (s.status = .assembling ∧ s.L < s.ap + len ∧ t = s.raise .truncatedStream) ∨
      (s.status = .assembling ∧ s.ap + len ≤ s.L ∧ commit s (body { s with ap := s.ap + len }) = .next t) := by
  constructor
  · intro h
    rcases State.aStep_cases (s := s) (len := len) (body := body) rfl with ⟨_, e⟩ | ⟨h1, h2, e⟩ | ⟨h1, h2, e⟩ <;>
      rw [e] at h
    · simp at h
    · exact .inl ⟨h1, h2, by simpa [eq_comm] using h⟩
    · exact .inr ⟨h1, h2, h⟩
  · rintro (⟨h1, h2, rfl⟩ | ⟨h1, h2, h⟩)
    · simp [State.aStep, h1, h2]
    · rw [State.aStep_of_enabled h1 h2, h]

end Sys2Proof.Machine
end

