-- ==== Sys2Proof/Laws/Colors.lean ====
section
/-! SUPPORT. Laws/Colors.lean: the host's color table has one triple for each color (R154), and a color below its length always resolves (R163). -/

namespace Sys2Proof.Machine

@[simp] theorem State.triples_length (s : State) (n : Nat) : (s.triples n).length = n := by simp [State.triples]

theorem HostState.colorOf_of_lt {h : HostState} {i : Nat} (hi : i < h.gct.length) :
    h.colorOf i = some h.gct[i] := List.getElem?_eq_getElem hi

/-- A row of indices below the table's length resolves, index by index. -/
theorem HostState.resolve_of_lt {h : HostState} : ∀ {is : List Nat}, (∀ i ∈ is, i < h.gct.length) →
    ∃ cs : List Rgb, h.resolve is = some cs ∧ cs.length = is.length ∧
      ∀ c i : Nat, is[c]? = some i → cs[c]? = h.gct[i]?
  | [], _ => ⟨[], rfl, rfl, by simp⟩
  | i :: is, hi => by
    obtain ⟨cs, h1, h2, h3⟩ := HostState.resolve_of_lt fun j hj => hi j (List.mem_cons_of_mem i hj)
    have h0 := HostState.colorOf_of_lt (hi i List.mem_cons_self)
    refine ⟨h.gct[i]'(hi i List.mem_cons_self) :: cs, by simp only [HostState.resolve, h0, h1], by simp [h2], fun c j hc => ?_⟩
    cases c with
    | zero =>
      obtain rfl : i = j := by simpa using hc
      simp
    | succ c => simpa using h3 c j (by simpa using hc)

/-- Rows likewise. -/
theorem HostState.resolveRows_of_lt {h : HostState} : ∀ {rows : List (List Nat)},
    (∀ row ∈ rows, ∀ i ∈ row, i < h.gct.length) →
    ∃ g : List (List Rgb), h.resolveRows rows = some g ∧ g.length = rows.length ∧
      ∀ (r : Nat) (row : List Nat), rows[r]? = some row → ∃ cs : List Rgb, g[r]? = some cs ∧
        cs.length = row.length ∧ ∀ c i : Nat, row[c]? = some i → cs[c]? = h.gct[i]?
  | [], _ => ⟨[], rfl, rfl, by simp⟩
  | row :: rows, hi => by
    obtain ⟨g, h1, h2, h3⟩ := HostState.resolveRows_of_lt fun x hx => hi x (List.mem_cons_of_mem row hx)
    obtain ⟨cs, h4, h5⟩ := HostState.resolve_of_lt (hi row List.mem_cons_self)
    refine ⟨cs :: g, by simp only [HostState.resolveRows, h4, h1], by simp [h2], fun r x hr => ?_⟩
    cases r with
    | zero =>
      obtain rfl : row = x := by simpa using hr
      exact ⟨cs, rfl, h5⟩
    | succ r => simpa using h3 r x (by simpa using hr)

/-- The rows of a color sequence hold its colors alone (R159). -/
theorem gridRows_mem {colors row : List Nat} {w c : Nat} (hr : row ∈ gridRows colors w) (hc : c ∈ row) :
    c ∈ colors := by
  simp only [gridRows, List.mem_map] at hr
  obtain ⟨r, _, rfl⟩ := hr
  exact List.mem_of_mem_drop (List.mem_of_mem_take hc)

end Sys2Proof.Machine
end

