-- ==== Sys2Proof/Laws/Step.lean ====
section
/-! SUPPORT. Laws/Step.lean: which step is next, said once per case, and what a step answers when the fetch has answered. -/

namespace Sys2Proof.Machine

theorem fetch_of_assembling {s : State} (h : s.status = .assembling) : fetch s = fetchRecord s := by simp [fetch, h]

theorem fetch_of_decoding {s : State} (h : s.status = .decoding) : fetch s = fetchCode s := by simp [fetch, h]

theorem fetch_of_not_running {s : State} (h : s.status.running = false) : fetch s = fetchHost s := by
  unfold fetch
  cases hs : s.status <;> simp_all [Status.running]

theorem Status.running_iff {st : Status} : st.running = true ↔ st = .assembling ∨ st = .decoding := by
  cases st <;> simp [Status.running]

theorem fetchHost_of_no_job {s : State} (h : s.host.job = .none) : fetchHost s = fetchQueue s := by
  unfold fetchHost
  simp only [h]

theorem fetchQueue_nil {s : State} (h : s.host.queue = []) : fetchQueue s = .nothing := by simp [fetchQueue, h]

theorem fetchQueue_cons {s : State} {r : Request} {q : List Request} (h : s.host.queue = r :: q) :
    fetchQueue s = fetchRequest r s.popQueue := by simp [fetchQueue, h]

/-- The host's next request, when it waits for nothing and no run is in progress. -/
theorem fetch_of_request {s : State} {r : Request} {q : List Request} (h : s.status.running = false)
    (hj : s.host.job = .none) (hq : s.host.queue = r :: q) : fetch s = fetchRequest r s.popQueue := by
  rw [fetch_of_not_running h, fetchHost_of_no_job hj, fetchQueue_cons hq]

theorem State.popQueue_eq {s : State} {r : Request} {q : List Request} (hq : s.host.queue = r :: q) :
    s.popQueue = { s with host := { s.host with queue := q } } := by simp [State.popQueue, hq]

theorem step_of_run {s t : State} {i : Instr} (h : fetch s = .run i t) : step s = exec i t := by simp [step, h]

theorem step_of_done {s t : State} (h : fetch s = .done t) : step s = .next t := by simp [step, h]

theorem step_of_refuse {s : State} {r : Refusal} (h : fetch s = .refuse r) : step s = .refused r := by simp [step, h]

theorem step_of_nothing {s : State} (h : fetch s = .nothing) : step s = .fault .noStepEnabled := by simp [step, h]

/-- When a step answers a next state: an instruction was run, or the fetch itself gave it. -/
theorem step_eq_next {s t : State} :
    step s = .next t ↔ (∃ i u, fetch s = .run i u ∧ exec i u = .next t) ∨ fetch s = .done t := by
  unfold step
  cases fetch s <;> simp

/-- The A-step's fetch: a record to run on the state as it is, or TruncatedStream. -/
theorem fetchRecord_cases (s : State) :
    (∃ i, decodeRecord (s.bytesAt s.ap 256) = .ok i ∧ fetchRecord s = .run i s) ∨
    ((∃ e, decodeRecord (s.bytesAt s.ap 256) = .error e) ∧ fetchRecord s = .done (s.raise .truncatedStream)) := by
  unfold fetchRecord
  simp only [decode]
  cases h : decodeRecord (s.bytesAt s.ap Config.longestRecord) with
  | error e => exact .inr ⟨⟨e, rfl⟩, rfl⟩
  | ok i => exact .inl ⟨i, rfl, rfl⟩

/-- The D-step's fetch: the classified code to run on the state as it is, or TruncatedStream (R123, R124). -/
theorem fetchCode_cases (s : State) :
    (s.cw ≤ (s.bitsAt s.bp s.cw).length ∧
      fetchCode s = .run (codeInstr s.N s.T.length (bitsValue ((s.bitsAt s.bp s.cw).take s.cw))) s) ∨
    ((s.bitsAt s.bp s.cw).length < s.cw ∧ fetchCode s = .done (s.raise .truncatedStream)) := by
  unfold fetchCode State.codeCtx
  simp only [decode, decodeCode]
  by_cases h : (s.bitsAt s.bp s.cw).length < s.cw
  · rw [if_pos h]; exact .inr ⟨h, rfl⟩
  · rw [if_neg h]; exact .inl ⟨Nat.not_lt.1 h, rfl⟩

theorem State.bitsAt_length (s : State) (b n : Nat) : (s.bitsAt b n).length = min n (s.BL - b) := by
  simp [State.bitsAt]

/-- Which records there are at a cursor (R71, R72, R113). -/
theorem decodeRecord_cases (s : State) :
    (s.L ≤ s.ap ∧ decodeRecord (s.bytesAt s.ap 256) = .error .noLengthByte) ∨
    (s.ap < s.L ∧ s.BUF.read s.ap = 0 ∧ decodeRecord (s.bytesAt s.ap 256) = .ok .term) ∨
    (s.ap < s.L ∧ s.BUF.read s.ap ≠ 0 ∧ s.L < s.ap + 1 + (s.BUF.read s.ap).toNat ∧
      decodeRecord (s.bytesAt s.ap 256) = .error .recordTruncated) ∨
    (s.BUF.read s.ap ≠ 0 ∧ s.ap + 1 + (s.BUF.read s.ap).toNat ≤ s.L ∧
      decodeRecord (s.bytesAt s.ap 256) =
        .ok (.data ((List.range (s.BUF.read s.ap).toNat).map fun k => s.BUF.read (s.ap + 1 + k)))) := by
  have hb := (s.BUF.read s.ap).isLt
  by_cases hL : s.L ≤ s.ap
  · left
    refine ⟨hL, ?_⟩
    have : s.bytesAt s.ap 256 = [] := by
      apply List.eq_nil_of_length_eq_zero
      simp; omega
    rw [this]; rfl
  · right
    have hcons : s.bytesAt s.ap 256 =
        s.BUF.read s.ap :: (List.range (min 255 (s.L - s.ap - 1))).map fun k => s.BUF.read (s.ap + 1 + k) := by
      unfold State.bytesAt
      rw [show min 256 (s.L - s.ap) = min 255 (s.L - s.ap - 1) + 1 by omega, List.range_succ_eq_map]
      simp only [List.map_cons, List.map_map, Nat.add_zero, List.cons.injEq, true_and]
      apply List.map_congr_left
      intro k _
      simp only [Function.comp, Nat.succ_eq_add_one]
      congr 1; omega
    rw [hcons]
    simp only [decodeRecord]
    by_cases h0 : s.BUF.read s.ap = 0
    · left; exact ⟨Nat.not_le.1 hL, h0, by rw [if_pos h0]⟩
    · right
      rw [if_neg h0]
      by_cases ht : s.L < s.ap + 1 + (s.BUF.read s.ap).toNat
      · left
        refine ⟨Nat.not_le.1 hL, h0, ht, ?_⟩
        rw [if_pos]
        simp only [List.length_map, List.length_range]; omega
      · right
        refine ⟨h0, Nat.not_lt.1 ht, ?_⟩
        rw [if_neg (by simp only [List.length_map, List.length_range]; omega)]
        congr 2
        rw [← List.map_take, List.take_range]
        congr 2
        omega

/-! ## Runs -/

theorem core_run_zero (s : State) : Sys2Proof.core.run 0 s = .next s := rfl

theorem core_run_succ (k : Nat) {s t : State} (h : step s = .next t) :
    Sys2Proof.core.run (k + 1) s = Sys2Proof.core.run k t := by
  have h' : Sys2Proof.core.step s = .next t := h
  simp only [Host.Core.run, h']

theorem core_run_one {s t : State} (h : step s = .next t) : Sys2Proof.core.run 1 s = .next t := core_run_succ 0 h

end Sys2Proof.Machine
end

