-- ==== Sys2Proof/Laws/Inversion.lean ====
section
/-! SUPPORT. Laws/Inversion.lean: for every instruction, everything it does when `exec` answers a next state. -/

namespace Sys2Proof.Machine

/-- What a step that ends in the tail answers (R131). -/
theorem tail_next {s u t : State} {c : Nat} (h : commit s (u.tail c) = .next t) :
   (u.cnt + 1 ≠ u.threshold ∧ t = { u with cnt := u.cnt + 1, prev := some c }) ∨
    (u.cnt + 1 = u.threshold ∧ u.cw ≠ u.MAXW ∧ t = { u with cnt := 0, prev := some c, cw := u.cw + 1 }) ∨
    (u.cnt + 1 = u.threshold ∧ u.cw = u.MAXW ∧ t = s.raise .codeWidthOverflow) := by
  rcases State.tail_cases (s := u) (code := c) rfl with ⟨h1, e⟩ | ⟨h1, h2, e⟩ | ⟨h1, h2, e⟩ <;> rw [e] at h <;> simp at h
  · exact .inl ⟨h1, h.symm⟩
  · exact .inr (.inl ⟨h1, h2, h.symm⟩)
  · exact .inr (.inr ⟨h1, h2, h.symm⟩)

/-- What a KNOWN step that answers a next state does (R127, R131): it raises, or it emits, extends or clears the flag,
and counts. -/
theorem known_next {s t : State} {c : Nat} (h : exec (.known c) s = .next t) :
    s.status = .decoding ∧ ((∃ r : Reason, r ≠ .malformedHeader ∧ t = s.raise r) ∨ (s.bp + s.cw ≤ s.BL ∧ classify s.N s.T.length c = .known ∧ ∃ x xs, s.T[c]? = some (.color (x :: xs)) ∧ 
    ∃ T' : List Entry, ((s.first = true ∧ T' = s.T) ∨ (s.first = false ∧ ∃ p y ys, s.prev = some p ∧ s.T[p]? = some (.color (y :: ys)) ∧ T' = s.T ++ [.color (y :: ys ++ [x])])) ∧
    ∃ cnt' cw', ((s.cnt + 1 ≠ 2 ^ (s.cw - 1) ∧ cnt' = s.cnt + 1 ∧ cw' = s.cw) ∨ (s.cnt + 1 = 2 ^ (s.cw - 1) ∧ s.cw ≠ s.MAXW ∧ cnt' = 0 ∧ cw' = s.cw + 1)) ∧
    t = { s with bp := s.bp + s.cw, out := s.out ++ x :: xs, T := T', first := false, prev := some c, cnt := cnt', cw := cw' })) := by
  simp only [exec, execKnown] at h
  rcases commit_dStep_eq_next.1 h with ⟨h0, _, rfl⟩ | ⟨h1, h2, h3, h⟩
  · exact ⟨h0, .inl ⟨_, by decide, rfl⟩⟩
  refine ⟨h1, ?_⟩
  rcases State.knownStep_cases {s with bp := s.bp + s.cw} c with ⟨x, xs, hx, hf, e⟩ | ⟨x, xs, p, y, ys, hx, hf, hp, hy, e⟩ | ⟨_, e⟩ | ⟨_, _, f, e⟩
  · rw [e] at h
    rcases tail_next h with ⟨h4, rfl⟩ | ⟨h4, h5, rfl⟩ | ⟨_, _, rfl⟩
    · exact .inr ⟨h2, h3, x, xs, hx, s.T, .inl ⟨hf, rfl⟩, _, _, .inl ⟨h4, rfl, rfl⟩, rfl⟩
    · exact .inr ⟨h2, h3, x, xs, hx, s.T, .inl ⟨hf, rfl⟩, _, _, .inr ⟨h4, h5, rfl, rfl⟩, rfl⟩
    · exact .inl ⟨_, by decide, rfl⟩
  · rw [e] at h
    have hf' : s.first = false := hf
    rcases tail_next h with ⟨h4, rfl⟩ | ⟨h4, h5, rfl⟩ | ⟨_, _, rfl⟩
    · exact .inr ⟨h2, h3, x, xs, hx, _, .inr ⟨hf, p, y, ys, hp, hy, rfl⟩, _, _, .inl ⟨h4, rfl, rfl⟩, by simp [hf']⟩
    · exact .inr ⟨h2, h3, x, xs, hx, _, .inr ⟨hf, p, y, ys, hp, hy, rfl⟩, _, _, .inr ⟨h4, h5, rfl, rfl⟩, by simp [hf']⟩
    · exact .inl ⟨_, by decide, rfl⟩
  · rw [e] at h; simp at h
  · rw [e] at h; simp at h

/-- What a KWKWK step that answers a next state does (R129, R131). -/
theorem kwkwk_next {s t : State} {c : Nat} (h : exec (.kwkwk c) s = .next t) :
    s.status = .decoding ∧ ((∃ r : Reason, r ≠ .malformedHeader ∧ t = s.raise r) ∨ (s.bp + s.cw ≤ s.BL ∧ classify s.N s.T.length c = .kwkwk ∧ s.first = false ∧ ∃ p x xs, s.prev = some p ∧ s.T[p]? = some (.color (x :: xs)) ∧ 
    ∃ cnt' cw', ((s.cnt + 1 ≠ 2 ^ (s.cw - 1) ∧ cnt' = s.cnt + 1 ∧ cw' = s.cw) ∨ (s.cnt + 1 = 2 ^ (s.cw - 1) ∧ s.cw ≠ s.MAXW ∧ cnt' = 0 ∧ cw' = s.cw + 1)) ∧
    t = { s with bp := s.bp + s.cw, out := s.out ++ (x :: xs ++ [x]), T := s.T ++ [.color (x :: xs ++ [x])], prev := some c, cnt := cnt', cw := cw' })) := by
  simp only [exec, execKwkwk] at h
  rcases commit_dStep_eq_next.1 h with ⟨h0, _, rfl⟩ | ⟨h1, h2, h3, h⟩
  · exact ⟨h0, .inl ⟨_, by decide, rfl⟩⟩
  refine ⟨h1, ?_⟩
  rcases State.kwkwkStep_cases {s with bp := s.bp + s.cw} c with ⟨hf, e⟩ | ⟨p, x, xs, hf, hp, hx, e⟩ | ⟨_, _, f, e⟩
  · rw [e] at h; simp at h; exact .inl ⟨.corruptCodeStream, by decide, by rw [← h]⟩
  · rw [e] at h
    rcases tail_next h with ⟨h4, rfl⟩ | ⟨h4, h5, rfl⟩ | ⟨_, _, rfl⟩
    · exact .inr ⟨h2, h3, hf, p, x, xs, hp, hx, _, _, .inl ⟨h4, rfl, rfl⟩, rfl⟩
    · exact .inr ⟨h2, h3, hf, p, x, xs, hp, hx, _, _, .inr ⟨h4, h5, rfl, rfl⟩, rfl⟩
    · exact .inl ⟨_, by decide, rfl⟩
  · rw [e] at h; simp at h

/-- What a CLEAR step that answers a next state does (R125). -/
theorem clear_next {s t : State} (h : exec .clear s = .next t) :
    s.status = .decoding ∧ ((∃ r : Reason, r ≠ .malformedHeader ∧ t = s.raise r) ∨ (s.bp + s.cw ≤ s.BL ∧ t = { s with bp := s.bp + s.cw, T := initialTable s.N, cw := s.mcs.toNat + 1, cnt := 0, first := true })) := by
  simp only [exec, execClear] at h
  rcases commit_dStep_eq_next.1 h with ⟨h0, _, rfl⟩ | ⟨h1, h2, h3, h⟩
  · exact ⟨h0, .inl ⟨_, by decide, rfl⟩⟩
  · simp at h; exact ⟨h1, .inr ⟨h2, h.symm⟩⟩

/-- What an EOI step that answers a next state does (R126). -/
theorem eoi_next {s t : State} (h : exec .eoi s = .next t) :
    s.status = .decoding ∧ ((∃ r : Reason, r ≠ .malformedHeader ∧ t = s.raise r) ∨ (s.bp + s.cw ≤ s.BL ∧ t = { s with bp := s.bp + s.cw, status := .done })) := by
  simp only [exec, execEoi] at h
  rcases commit_dStep_eq_next.1 h with ⟨h0, _, rfl⟩ | ⟨h1, h2, h3, h⟩
  · exact ⟨h0, .inl ⟨_, by decide, rfl⟩⟩
  · simp at h; exact ⟨h1, .inr ⟨h2, h.symm⟩⟩

/-- What a CORRUPT step that answers a next state does (R130). -/
theorem corrupt_next {s t : State} {c : Nat} (h : exec (.corrupt c) s = .next t) :
    s.status = .decoding ∧ (∃ r : Reason, r ≠ .malformedHeader ∧ t = s.raise r) := by
  simp only [exec, execCorrupt] at h
  rcases commit_dStep_eq_next.1 h with ⟨h0, _, rfl⟩ | ⟨h1, h2, h3, h⟩
  · exact ⟨h0, _, by decide, rfl⟩
  · simp at h; exact ⟨h1, .corruptCodeStream, by decide, h.symm⟩

/-- What a DATA step that answers a next state does (R112, R113). -/
theorem data_next {s t : State} {p : List Byte} (h : exec (.data p) s = .next t) :
    s.status = .assembling ∧ legalPayload p = true ∧ ((∃ r, t = s.raise r) ∨ (s.ap + (1 + p.length) ≤ s.L ∧ t = { s with ap := s.ap + (1 + p.length), BS := s.BS ++ bytesBits p })) := by
  simp only [exec, execData] at h
  split_ifs at h with hl
  · rcases commit_aStep_eq_next.1 h with ⟨h0, _, rfl⟩ | ⟨h1, h2, h⟩
    · exact ⟨h0, hl, .inl ⟨_, rfl⟩⟩
    · simp at h; exact ⟨h1, hl, .inr ⟨h2, h.symm⟩⟩
  · simp at h

/-- What a TERM step that answers a next state does (R114, R121). -/
theorem term_next {s t : State} (h : exec .term s = .next t) :
    s.status = .assembling ∧ ((∃ r, t = s.raise r) ∨ (s.ap + 1 ≤ s.L ∧ ((s.inRun = true ∧ s.mcs.toNat + 1 ≤ s.MAXW ∧ t = { s with
      ap := s.ap + 1, status := .decoding, T := initialTable s.N, cw := s.mcs.toNat + 1, cnt := 0, first := true,
      prev := none, bp := 0, out := [] }) ∨ (s.inRun = false ∧ t = { s with
      ap := s.ap + 1, status := .idle, host := { s.host with
      reply := .bits s.BS } })))) := by
  simp only [exec, execTerm] at h
  rcases commit_aStep_eq_next.1 h with ⟨h0, _, rfl⟩ | ⟨h1, h2, h⟩
  · exact ⟨h0, .inl ⟨_, rfl⟩⟩
  · refine ⟨h1, ?_⟩
    rcases Bool.eq_false_or_eq_true s.inRun with hr | hr
    · simp only [State.finishAssemble] at h
      rw [if_pos (by simpa using hr)] at h
      rcases State.startDecode_cases (s := { s with ap := s.ap + 1 }) rfl with ⟨h3, e⟩ | ⟨h3, e⟩ <;> rw [e] at h <;> simp at h
      · exact .inl ⟨_, h.symm⟩
      · exact .inr ⟨h2, .inl ⟨hr, h3, h.symm⟩⟩
    · simp only [State.finishAssemble] at h
      rw [if_neg (by simp [hr])] at h
      simp at h
      exact .inr ⟨h2, .inr ⟨hr, h.symm⟩⟩

/-- What a Field Reader command that answers a next state does (R100): it tells the host a value or MalformedHeader. -/
theorem replyValue_next {s t : State} {x : Except Reason Nat} (h : commit s (s.replyValue x) = .next t) :
    (∃ v, x = .ok v ∧ t = s.replyWith (.value v)) ∨ ∃ r, x = .error r ∧ t = s.hostFail (.block r) := by
  cases x with
  | ok v => simp [State.replyValue] at h; exact .inl ⟨v, rfl, h.symm⟩
  | error r => simp [State.replyValue] at h; exact .inr ⟨r, rfl, h.symm⟩

theorem rd8_next {s t : State} {a : Nat} (h : exec (.rd8 a) s = .next t) :
    (∃ v, t = s.replyWith (.value v)) ∨ ∃ e, t = s.hostFail e := by
  rcases replyValue_next h with ⟨v, _, h⟩ | ⟨r, _, h⟩
  · exact .inl ⟨v, h⟩
  · exact .inr ⟨_, h⟩

theorem rd16le_next {s t : State} {a : Nat} (h : exec (.rd16le a) s = .next t) :
    (∃ v, t = s.replyWith (.value v)) ∨ ∃ e, t = s.hostFail e := by
  rcases replyValue_next h with ⟨v, _, h⟩ | ⟨r, _, h⟩
  · exact .inl ⟨v, h⟩
  · exact .inr ⟨_, h⟩

theorem rdbits_next {s t : State} {a st n : Nat} (h : exec (.rdbits a st n) s = .next t) :
    (∃ v, t = s.replyWith (.value v)) ∨ ∃ e, t = s.hostFail e := by
  simp only [exec, execRdbits] at h
  split_ifs at h with hl
  · rcases replyValue_next h with ⟨v, _, h⟩ | ⟨r, _, h⟩
    · exact .inl ⟨v, h⟩
    · exact .inr ⟨_, h⟩
  · simp at h

theorem whenNotRunning_next {s t : State} {x : Except Stop State} (h : commit s (s.whenNotRunning x) = .next t) :
    s.status.running = false ∧ commit s x = .next t := by
  unfold State.whenNotRunning at h
  split_ifs at h with hr
  · simp at h
  · exact ⟨by simpa using hr, h⟩

/-- What ASSEMBLE does (R111). -/
theorem assemble_next {s t : State} {p : Nat} (h : exec (.assemble p) s = .next t) :
    s.status.running = false ∧ t = s.startAssemble p false := by
  obtain ⟨hr, h⟩ := whenNotRunning_next h
  exact ⟨hr, by simpa using h.symm⟩

/-- What DECODE does (R121). -/
theorem decode_next {s t : State} {b : List Bool} {m : Byte} {n : Nat} (h : exec (.decode b m n) s = .next t) :
    s.status.running = false ∧ 1 ≤ n ∧
      ((s.MAXW < m.toNat + 1 ∧ t = s.raise .codeWidthOverflow) ∨
       (m.toNat + 1 ≤ s.MAXW ∧ t = { s with
          BS := b, mcs := m, N := n, inRun := false, status := .decoding, T := initialTable n, cw := m.toNat + 1,
          cnt := 0, first := true, prev := none, bp := 0, out := [], host := { s.host with reply := .none } })) := by
  obtain ⟨hr, h⟩ := whenNotRunning_next h
  split_ifs at h with hn
  · refine ⟨hr, by simpa [legalColorCount] using hn, ?_⟩
    rcases State.startDecode_cases rfl with ⟨h3, e⟩ | ⟨h3, e⟩ <;> rw [e] at h <;> simp at h
    · exact .inl ⟨h3, h.symm⟩
    · exact .inr ⟨h3, h.symm⟩
  · simp at h

/-- What RUN does (R133). -/
theorem run_next {s t : State} {sp n : Nat} (h : exec (.run sp n) s = .next t) :
    s.status.running = false ∧ 1 ≤ n ∧
      ((s.L ≤ sp + 10 ∧ t = s.raise .malformedHeader) ∨
       (sp + 10 < s.L ∧
        t = State.startAssemble { s with S := sp, N := n, mcs := s.BUF.read (sp + 10) } (sp + 11) true)) := by
  obtain ⟨hr, h⟩ := whenNotRunning_next h
  split_ifs at h with hn
  · refine ⟨hr, by simpa [legalColorCount] using hn, ?_⟩
    rcases State.startRun_cases rfl with ⟨h3, e⟩ | ⟨h3, e⟩ <;> rw [e] at h <;> simp at h
    · exact .inl ⟨h3, h.symm⟩
    · exact .inr ⟨h3, h.symm⟩
  · simp at h

/-! ## The host's stages -/

/-- A 16-bit field in range: its two bytes, the lower address the less significant (R51, R102). -/
theorem State.hostWord_ok {s : State} {a : Nat} (h : a + 1 < s.L) :
    s.hostWord a = .ok (s.BUF.read (a + 1) ++ s.BUF.read a) := by
  simp only [State.hostWord, State.readWord]
  rw [if_neg (by omega)]
  simp only [onHost_ok, Except.map]
  congr 1
  apply BitVec.eq_of_toNat_eq
  have h1 := (s.BUF.read a).isLt
  have h2 := (s.BUF.read (a + 1)).isLt
  rw [BitVec.toNat_append, ← Nat.shiftLeft_add_eq_or_of_lt h1, Nat.shiftLeft_eq]
  simp only [le16, BitVec.toNat_ofNat]
  rw [Nat.mod_eq_of_lt (by omega)]
  omega

/-- A byte in range (R101). -/
theorem State.hostByte_ok {s : State} {a : Nat} (h : a < s.L) : s.hostByte a = .ok (s.BUF.read a) := by
  simp [State.hostByte, State.readByte, Nat.not_le.2 h]

/-- A bit range of a byte in range, by numeric bits (R81, R103). -/
theorem State.hostField_ok {s : State} {w a st : Nat} (h : a < s.L) :
    s.hostField w a st = .ok ((s.BUF.read a).extractLsb' (8 - st - w) w) := by
  simp only [State.hostField, State.readField]
  rw [if_neg (by omega)]
  simp only [onHost_ok, Except.map]
  congr 1
  apply BitVec.eq_of_toNat_eq
  simp [byteField, Nat.shiftRight_eq_div_pow]

theorem bind_error {α β : Type} {P : Stop → Prop} {x : Except Stop α} {f : α → Except Stop β}
    (hx : ∀ e, x = .error e → P e) (hf : ∀ a e, f a = .error e → P e) : ∀ e, (x >>= f) = .error e → P e := by
  intro e h
  cases x with
  | error d => exact hx e (by simpa [bind, Except.bind] using h)
  | ok a => exact hf a e h

/-- The one typed error of the host's Field Reader reads (R104). -/
abbrev headerError : HostError := .block .malformedHeader

theorem onHost_read_error {α : Type} {p : Prop} [Decidable p] {a : α} :
    ∀ e, onHost (if p then .error .malformedHeader else .ok a) = .error e → e = .hostFail headerError := by
  intro e h
  split_ifs at h <;> simp at h
  exact h.symm

theorem map_error {α β : Type} {P : Stop → Prop} {x : Except Stop α} {f : α → β} (hx : ∀ e, x = .error e → P e) :
    ∀ e, x.map f = .error e → P e := by
  intro e h
  cases x with
  | error d => exact hx e (by simpa [Except.map] using h)
  | ok a => simp [Except.map] at h

theorem return_error {α : Type} {P : Stop → Prop} {a : α} : ∀ e, (pure a : Except Stop α) = .error e → P e := by
  intro e h
  simp [pure, Except.pure] at h

theorem hostWord_error {s : State} {a : Nat} : ∀ e, s.hostWord a = .error e → e = .hostFail headerError :=
  map_error onHost_read_error

theorem hostByte_error {s : State} {a : Nat} : ∀ e, s.hostByte a = .error e → e = .hostFail headerError :=
  onHost_read_error

theorem hostField_error {s : State} {w a st : Nat} :
    ∀ e, s.hostField w a st = .error e → e = .hostFail headerError :=
  map_error onHost_read_error

/-- The screen descriptor of a buffer of at least 13 bytes (R152). -/
theorem State.readScreen_ok {s : State} (h : 13 ≤ s.L) : s.readScreen = .ok {
    width := s.BUF.read 7 ++ s.BUF.read 6
    height := s.BUF.read 9 ++ s.BUF.read 8
    gctFlag := (s.BUF.read 10).extractLsb' 7 1
    colorRes := (s.BUF.read 10).extractLsb' 4 3
    sortFlag := (s.BUF.read 10).extractLsb' 3 1
    e := (s.BUF.read 10).extractLsb' 0 3
    background := s.BUF.read 11
    aspect := s.BUF.read 12 } := by
  unfold State.readScreen
  simp only [Config.pk10Offset]
  rw [State.hostWord_ok (by omega), State.hostWord_ok (by omega), State.hostField_ok (by omega),
    State.hostField_ok (by omega), State.hostField_ok (by omega), State.hostField_ok (by omega),
    State.hostByte_ok (by omega), State.hostByte_ok (by omega)]
  rfl

/-- The image descriptor of a buffer that holds the 10 bytes from the separator on (R157). -/
theorem State.readImage_ok {s : State} {a : Nat} (h : a + 9 < s.L) : s.readImage a = .ok {
    left := s.BUF.read (a + 2) ++ s.BUF.read (a + 1)
    top := s.BUF.read (a + 4) ++ s.BUF.read (a + 3)
    width := s.BUF.read (a + 6) ++ s.BUF.read (a + 5)
    height := s.BUF.read (a + 8) ++ s.BUF.read (a + 7)
    lctFlag := (s.BUF.read (a + 9)).extractLsb' 7 1
    interlace := (s.BUF.read (a + 9)).extractLsb' 6 1
    sortFlag := (s.BUF.read (a + 9)).extractLsb' 5 1
    reserved := (s.BUF.read (a + 9)).extractLsb' 3 2
    lctExp := (s.BUF.read (a + 9)).extractLsb' 0 3 } := by
  unfold State.readImage
  simp only [Config.pk9Distance]
  rw [State.hostWord_ok (by omega), State.hostWord_ok (by omega), State.hostWord_ok (by omega),
    State.hostWord_ok (by omega), State.hostField_ok (by omega), State.hostField_ok (by omega),
    State.hostField_ok (by omega), State.hostField_ok (by omega), State.hostField_ok (by omega)]
  rfl

/-! What a stage gives on a state with other host registers: it reads `BUF` and `L` alone (R41). -/

theorem State.extractGct_withHost (s : State) (h : HostState) (e : BitVec 3) :
    State.extractGct { s with host := h } e =
      if s.L < 13 + 3 * colorCount e then .error (.hostFail .invalidColorTableSize)
      else .ok { s with host := { h with
        N := colorCount e, G := 3 * colorCount e, gct := s.triples (colorCount e) } } := rfl

theorem State.locateImage_withHost (s : State) (h : HostState) (g : Nat) :
    State.locateImage { s with host := h } g = match s.findSeparator (13 + g) with
      | none => .error (.hostFail .imageDescriptorNotFound)
      | some a => (s.readImage a).map fun d => { s with host := { h with S := a, image := d } } := rfl

theorem State.startRun_withHost (s : State) (h : HostState) (sp n : Nat) :
    State.startRun { s with host := h } sp n =
      if s.L ≤ sp + 10 then .error (.raise .malformedHeader)
      else .ok { s with
        S := sp, N := n, mcs := s.BUF.read (sp + 10), status := .assembling, inRun := true, ap := sp + 11, BS := [],
        host := { h with reply := .none } } := by
  unfold State.startRun State.readByte
  simp only [Config.mcsDistance, Config.recordsDistance]
  split_ifs <;> rfl

/-- The reads of the screen descriptor fail with a typed error of the Field Reader, or not at all. -/
theorem readScreen_error {s : State} : ∀ e, s.readScreen = .error e → e = .hostFail headerError := by
  unfold State.readScreen
  refine bind_error hostWord_error fun _ => bind_error hostWord_error fun _ => bind_error hostField_error fun _ =>
    bind_error hostField_error fun _ => bind_error hostField_error fun _ => bind_error hostField_error fun _ =>
    bind_error hostByte_error fun _ => bind_error hostByte_error fun _ => return_error

/-- The reads of the image descriptor likewise. -/
theorem readImage_error {s : State} {a : Nat} : ∀ e, s.readImage a = .error e → e = .hostFail headerError := by
  unfold State.readImage
  refine bind_error hostWord_error fun _ => bind_error hostWord_error fun _ => bind_error hostWord_error fun _ =>
    bind_error hostWord_error fun _ => bind_error hostField_error fun _ => bind_error hostField_error fun _ =>
    bind_error hostField_error fun _ => bind_error hostField_error fun _ => bind_error hostField_error fun _ =>
    return_error

/-- What the stage PARSE_HEADER gives (R151 to R153): the two registers it owns, or MalformedHeader. -/
theorem parseHeader_cases (s : State) :
    (∃ sg d, s.parseHeader = .ok { s with host := { s.host with sig := sg, screen := d } }) ∨
    s.parseHeader = .error (.hostFail headerError) := by
  unfold State.parseHeader
  split_ifs with h1 h2
  · exact .inr rfl
  · cases h : s.readScreen with
    | ok d => exact .inl ⟨_, d, rfl⟩
    | error e =>
      obtain rfl := readScreen_error e h
      exact .inr rfl
  · exact .inr rfl

/-- What the stage EXTRACT_GCT gives (R154, R155). -/
theorem extractGct_cases (s : State) (e : BitVec 3) :
    (13 + 3 * colorCount e ≤ s.L ∧ s.extractGct e = .ok { s with host := { s.host with
      N := colorCount e, G := 3 * colorCount e, gct := s.triples (colorCount e) } }) ∨
    (s.L < 13 + 3 * colorCount e ∧ s.extractGct e = .error (.hostFail .invalidColorTableSize)) := by
  unfold State.extractGct
  split_ifs with h
  · exact .inr ⟨h, rfl⟩
  · exact .inl ⟨Nat.not_lt.1 h, rfl⟩

/-- What the stage LOCATE_IMAGE gives (R156, R157): the two registers it owns, or one of two errors. -/
theorem locateImage_cases (s : State) (g : Nat) :
    (∃ a d, s.findSeparator (13 + g) = some a ∧
      s.locateImage g = .ok { s with host := { s.host with S := a, image := d } }) ∨
    ∃ e, s.locateImage g = .error (.hostFail e) ∧ (e = headerError ∨ e = .imageDescriptorNotFound) := by
  unfold State.locateImage
  cases hf : s.findSeparator (Config.headerLength + g) with
  | none => exact .inr ⟨_, rfl, .inr rfl⟩
  | some a =>
    cases h : s.readImage a with
    | ok d => exact .inl ⟨a, d, rfl, by simp [h, Except.map]⟩
    | error e =>
      obtain rfl := readImage_error e h
      exact .inr ⟨_, by simp only [h]; rfl, .inl rfl⟩

/-- What the stage BUILD_GRID gives (R159, R160). -/
theorem buildGrid_cases (s : State) (o : List Nat) (w : Nat) :
    (w ≠ 0 ∧ o.length % w = 0 ∧ s.buildGrid o w = .ok { s with host := { s.host with grid := gridRows o w } }) ∨
    ((w = 0 ∨ o.length % w ≠ 0) ∧ s.buildGrid o w = .error (.hostFail .dimensionMismatch)) := by
  unfold State.buildGrid
  split_ifs with h
  · exact .inr ⟨h, rfl⟩
  · exact .inl ⟨by tauto, by tauto, rfl⟩

theorem stage_next {s t : State} {x : Except Stop State} (h : commit s (stageDone x) = .next t) :
    (∃ u, x = .ok u ∧ t = u.replyWith .stageDone) ∨ (∃ r, x = .error (.raise r) ∧ t = s.raise r) ∨
      ∃ e, x = .error (.hostFail e) ∧ t = s.hostFail e := by
  rcases x with (r | e | f | r) | u <;> simp [stageDone, Except.map, commit] at h
  · exact .inr (.inl ⟨r, rfl, h.symm⟩)
  · exact .inr (.inr ⟨e, rfl, h.symm⟩)
  · exact .inl ⟨u, rfl, h.symm⟩

theorem parseHeader_next {s t : State} (h : exec .parseHeader s = .next t) :
    (∃ sg d, s.parseHeader = .ok { s with host := { s.host with sig := sg, screen := d } } ∧
      t = State.replyWith { s with host := { s.host with sig := sg, screen := d } } .stageDone) ∨
    (s.parseHeader = .error (.hostFail headerError) ∧ t = s.hostFail headerError) := by
  have h := stage_next (x := s.parseHeader) h
  rcases parseHeader_cases s with ⟨sg, d, e⟩ | e <;> simp only [e] at h ⊢ <;> simp at h
  · exact .inl ⟨sg, d, rfl, h⟩
  · exact .inr ⟨trivial, h⟩

theorem extractGct_next {s t : State} {e : BitVec 3} (h : exec (.extractGct e) s = .next t) :
    (13 + 3 * colorCount e ≤ s.L ∧ t = State.replyWith { s with host := { s.host with
      N := colorCount e, G := 3 * colorCount e, gct := s.triples (colorCount e) } } .stageDone) ∨
    (s.L < 13 + 3 * colorCount e ∧ t = s.hostFail .invalidColorTableSize) := by
  have h := stage_next (x := s.extractGct e) h
  rcases extractGct_cases s e with ⟨hl, e⟩ | ⟨hl, e⟩ <;> simp only [e] at h <;> simp at h
  · exact .inl ⟨hl, h⟩
  · exact .inr ⟨hl, h⟩

theorem locateImage_next {s t : State} {g : Nat} (h : exec (.locateImage g) s = .next t) :
    (∃ a d, s.locateImage g = .ok { s with host := { s.host with S := a, image := d } } ∧
      t = State.replyWith { s with host := { s.host with S := a, image := d } } .stageDone) ∨
    ∃ f, s.locateImage g = .error (.hostFail f) ∧ (f = headerError ∨ f = .imageDescriptorNotFound) ∧
      t = s.hostFail f := by
  have h := stage_next (x := s.locateImage g) h
  rcases locateImage_cases s g with ⟨a, d, _, e⟩ | ⟨f, e, hf⟩ <;> simp only [e] at h ⊢ <;> simp at h
  · exact .inl ⟨a, d, rfl, h⟩
  · exact .inr ⟨f, rfl, hf, h⟩

theorem buildGrid_next {s t : State} {o : List Nat} {w : Nat} (h : exec (.buildGrid o w) s = .next t) :
    (w ≠ 0 ∧ o.length % w = 0 ∧ t = State.replyWith { s with host := { s.host with grid := gridRows o w } } .stageDone) ∨
    ((w = 0 ∨ o.length % w ≠ 0) ∧ t = s.hostFail .dimensionMismatch) := by
  have h := stage_next (x := s.buildGrid o w) h
  rcases buildGrid_cases s o w with ⟨h1, h2, e⟩ | ⟨h1, e⟩ <;> simp only [e] at h <;> simp at h
  · exact .inl ⟨h1, h2, h⟩
  · exact .inr ⟨h1, h⟩

theorem sep_next {s t : State} (h : exec .sep s = .next t) :
    (∃ a, t = State.replyWith { s with host := { s.host with S := a } } (.value a)) ∨
    t = s.hostFail .imageDescriptorNotFound := by
  simp only [exec, execSep] at h
  split at h <;> simp at h
  · exact .inr h.symm
  · exact .inl ⟨_, h.symm⟩

theorem mcs_next {s t : State} {m : Byte} (h : exec (.mcs m) s = .next t) :
    s.status.running = false ∧ t = State.replyWith { s with mcs := m } (.value m.toNat) := by
  obtain ⟨hr, h⟩ := whenNotRunning_next h
  exact ⟨hr, by simpa using h.symm⟩

/-- What RUN, issued by DECODE_FILE, gives: the run's start, or its fault (R158). -/
theorem issueRun_cases (s : State) :
    (s.L ≤ s.host.S + 10 ∧ s.issueRun = (s.replyWith .none).raise .malformedHeader) ∨
    (s.host.S + 10 < s.L ∧ s.issueRun = State.startAssemble
      { s with S := s.host.S, N := s.host.N, mcs := s.BUF.read (s.host.S + 10) } (s.host.S + 11) true) := by
  unfold State.issueRun
  rcases State.startRun_cases (s := s) (sp := s.host.S) (n := s.host.N) rfl with ⟨h, e⟩ | ⟨h, e⟩ <;> rw [e]
  · exact .inl ⟨h, rfl⟩
  · exact .inr ⟨h, rfl⟩

/-- The errors the stages of DECODE_FILE before RUN can have (R161). -/
def HostError.ofStages (s : State) (e : HostError) : Prop :=
  e = headerError ∨ e = .imageDescriptorNotFound ∨
    (e = .invalidColorTableSize ∧ s.L < 13 + 3 * 2 ^ ((s.BUF.read 10).toNat % 8 + 1))

/-- The color count of the exponent that PARSE_HEADER reads (R77, R154). -/
theorem parseHeader_colorCount {s : State} {sg : List Byte} {d : Screen}
    (h : s.parseHeader = .ok { s with host := { s.host with sig := sg, screen := d } }) :
    colorCount d.e = 2 ^ ((s.BUF.read 10).toNat % 8 + 1) := by
  unfold State.parseHeader at h
  split_ifs at h with h1 h2
  rw [State.readScreen_ok (Nat.not_lt.1 h1)] at h
  simp only [Except.map, Except.ok.injEq, State.mk.injEq, HostState.mk.injEq, true_and, and_true] at h
  rw [← h.2]
  simp [colorCount]

/-- What the stages of DECODE_FILE give (R161): all their registers, or one error. -/
theorem fileStages_cases (s : State) :
    (∃ (sg : List Byte) (d : Screen) (a : Nat) (im : Image),
      s.fileStages = .ok { s with host := { s.host with
        sig := sg, screen := d, N := colorCount d.e, G := 3 * colorCount d.e, gct := s.triples (colorCount d.e),
        S := a, image := im } }) ∨
    ∃ e, s.fileStages = .error (.hostFail e) ∧ e.ofStages s := by
  unfold State.fileStages
  rcases parseHeader_cases s with ⟨sg, d, e⟩ | e
  · have hc := parseHeader_colorCount e
    simp only [e]
    rcases extractGct_cases { s with host := { s.host with sig := sg, screen := d } } d.e with ⟨_, e⟩ | ⟨hl, e⟩ <;>
      simp only [e]
    · rcases locateImage_cases { s with host := { s.host with
          sig := sg, screen := d, N := colorCount d.e, G := 3 * colorCount d.e, gct := s.triples (colorCount d.e) } }
        (3 * colorCount d.e) with ⟨a, im, _, e⟩ | ⟨f, e, hf⟩
      · exact .inl ⟨sg, d, a, im, e⟩
      · exact .inr ⟨f, e, hf.imp_right .inl⟩
    · exact .inr ⟨_, rfl, .inr (.inr ⟨rfl, by rw [← hc]; exact hl⟩)⟩
  · exact .inr ⟨_, by simp only [e], .inl rfl⟩

/-- What DECODE_FILE does (R161): its stages and RUN, and the wait; or the stages' error. -/
theorem decodeFile_next {s t : State} (h : exec .decodeFile s = .next t) :
    s.status.running = false ∧ ((∃ u, s.fileStages = .ok u ∧
      t = { u.issueRun with host := { u.issueRun.host with job := .awaitRun } }) ∨
      ∃ e, s.fileStages = .error (.hostFail e) ∧ e.ofStages s ∧ t = s.hostFail e) := by
  obtain ⟨hr, h⟩ := whenNotRunning_next h
  refine ⟨hr, ?_⟩
  rcases fileStages_cases s with ⟨sg, d, a, im, e⟩ | ⟨f, e, hf⟩ <;> rw [e] at h ⊢ <;> simp [Except.map] at h
  · exact .inl ⟨_, rfl, h.symm⟩
  · exact .inr ⟨f, rfl, hf, h.symm⟩

theorem colorCount_pos (e : BitVec 3) : 1 ≤ colorCount e := Nat.one_le_two_pow

/-! ## The step -/

/-- Applying the Field Reader to a header byte: the decoded instruction, or a typed error (R70, R100). -/
theorem fetchHeader_cases (k : HeaderKind) (s : State) : (∃ i, fetchHeader k s = .run i s) ∨ ∃ e, fetchHeader k s = .done (s.hostFail e) := by
  unfold fetchHeader
  split
  · exact .inr ⟨_, rfl⟩
  · split
    · exact .inl ⟨_, rfl⟩
    · exact .inr ⟨_, rfl⟩

/-- Every move of the host (R158, R161, R195). -/
theorem fetchHost_cases (s : State) :
  (s.host.job = .awaitRun ∧ s.status = .done ∧ fetchHost s = .run (.buildGrid s.out s.host.image.width.toNat) s.endJob) ∨
  (∃ r, s.host.job = .awaitRun ∧ s.status = .fault r ∧ fetchHost s = .done (s.hostFail (.block r))) ∨
  (s.host.queue = [] ∧ fetchHost s = .nothing) ∨
  (∃ r q, (s.host.job = .awaitRun → s.status = .idle ∨ s.status.running = true) ∧ s.host.queue = r :: q ∧
    fetchHost s = fetchRequest r s.popQueue) := by
  have hq : (s.host.job = .awaitRun → s.status = .idle ∨ s.status.running = true) → fetchHost s = fetchQueue s →
      (s.host.queue = [] ∧ fetchHost s = .nothing) ∨
      (∃ r q, (s.host.job = .awaitRun → s.status = .idle ∨ s.status.running = true) ∧ s.host.queue = r :: q ∧
        fetchHost s = fetchRequest r s.popQueue) := by
    intro hw h; rw [h]
    unfold fetchQueue
    cases hh : s.host.queue with
    | nil => exact .inl ⟨rfl, rfl⟩
    | cons r q => exact .inr ⟨r, q, hw, rfl, rfl⟩
  cases hj : s.host.job with
  | none => rw [hj] at hq; exact .inr (.inr (hq (by simp) (fetchHost_of_no_job hj)))
  | awaitRun =>
    cases hs : s.status with
    | done => exact .inl ⟨rfl, rfl, by simp [fetchHost, hj, hs]⟩
    | fault r => exact .inr (.inl ⟨r, rfl, rfl, by simp [fetchHost, hj, hs]⟩)
    | idle => rw [hj, hs] at hq; exact .inr (.inr (hq (by simp [Status.running]) (by simp [fetchHost, hj, hs])))
    | assembling => rw [hj, hs] at hq; exact .inr (.inr (hq (by simp [Status.running]) (by simp [fetchHost, hj, hs])))
    | decoding => rw [hj, hs] at hq; exact .inr (.inr (hq (by simp [Status.running]) (by simp [fetchHost, hj, hs])))

/-- What a request of the host's script leads to. -/
theorem fetchRequest_cases (r : Request) (s : State) :
  (r = .load none ∧ fetchRequest r s = .done (s.hostFail .fileNotFound)) ∨
  (∃ f, r = .load (some f) ∧ fetchRequest r s = .done ((s.loadBuffer f).replyWith .stageDone)) ∨
  (∃ i, fetchRequest r s = .run i s) ∨ (∃ e, fetchRequest r s = .done (s.hostFail e)) ∨ fetchRequest r s = .refuse .notACommand := by
  cases r with
  | load f => cases f with
    | none => exact .inl ⟨rfl, rfl⟩
    | some f => exact .inr (.inl ⟨f, rfl, rfl⟩)
  | header k => rcases fetchHeader_cases k s with h | h
                · exact .inr (.inr (.inl h))
                · exact .inr (.inr (.inr (.inl h)))
  | command i => 
    simp only [fetchRequest]
    split
    · exact .inr (.inr (.inl ⟨i, rfl⟩))
    · simp

/-- Everything a step can do when it answers a next state. -/
theorem step_next {s t : State} (h : step s = .next t) :
   (s.status.running = true ∧ ((∃ i, exec i s = .next t) ∨ t = s.raise .truncatedStream)) ∨
   (s.status.running = false ∧ ((s.host.job = .awaitRun ∧ s.status = .done ∧ exec (.buildGrid s.out s.host.image.width.toNat) s.endJob = .next t) ∨
     (∃ r, s.host.job = .awaitRun ∧ s.status = .fault r ∧ t = s.hostFail (.block r)) ∨
     ((s.host.job = .awaitRun → s.status = .idle) ∧
       ((∃ e, t = s.popQueue.hostFail e) ∨ (∃ i, exec i s.popQueue = .next t) ∨
       (∃ f q, s.host.queue = .load (some f) :: q ∧ t = (s.popQueue.loadBuffer f).replyWith .stageDone))))) := by
  cases hr : s.status.running with
  | true =>
    left
    refine ⟨rfl, ?_⟩
    rcases Status.running_iff.1 hr with hs | hs
    · rcases fetchRecord_cases s with ⟨i, _, e⟩ | ⟨_, e⟩ <;> rw [← fetch_of_assembling hs] at e
      · rw [step_of_run e] at h; exact .inl ⟨i, h⟩
      · rw [step_of_done e] at h; simp at h; exact .inr h.symm
    · rcases fetchCode_cases s with ⟨_, e⟩ | ⟨_, e⟩ <;> rw [← fetch_of_decoding hs] at e
      · rw [step_of_run e] at h; exact .inl ⟨_, h⟩
      · rw [step_of_done e] at h; simp at h; exact .inr h.symm
  | false =>
    right
    refine ⟨rfl, ?_⟩
    rcases fetchHost_cases s with ⟨h1, h2, e⟩ | ⟨r, h1, h2, e⟩ | ⟨h1, e⟩ | ⟨r, q, hw, h1, e⟩ <;>
      rw [← fetch_of_not_running hr] at e
    · rw [step_of_run e] at h; exact .inl ⟨h1, h2, h⟩
    · rw [step_of_done e] at h; simp at h; exact .inr (.inl ⟨r, h1, h2, h.symm⟩)
    · rw [step_of_nothing e] at h; simp at h
    · have hw : s.host.job = .awaitRun → s.status = .idle := fun hj => (hw hj).resolve_right (by simp [hr])
      rcases fetchRequest_cases r s.popQueue with ⟨_, e'⟩ | ⟨f, rfl, e'⟩ | ⟨i, e'⟩ | ⟨x, e'⟩ | e' <;> rw [e'] at e
      · rw [step_of_done e] at h; simp at h; exact .inr (.inr ⟨hw, .inl ⟨_, h.symm⟩⟩)
      · rw [step_of_done e] at h; simp at h; exact .inr (.inr ⟨hw, .inr (.inr ⟨f, q, h1, h.symm⟩)⟩)
      · rw [step_of_run e] at h; exact .inr (.inr ⟨hw, .inr (.inl ⟨i, h⟩)⟩)
      · rw [step_of_done e] at h; simp at h; exact .inr (.inr ⟨hw, .inl ⟨_, h.symm⟩⟩)
      · rw [step_of_refuse e] at h; simp at h

end Sys2Proof.Machine
end

