-- ==== Sys2Proof/Laws/PerInstr.lean ====
section
/-! SUPPORT. Laws/PerInstr.lean: statements made of every instruction as syntax, one lemma for each constructor of `Instr`. -/

namespace Sys2Proof

/-- The number of bits an item holds. -/
def Item.size : Item → Nat
  | .bytes bs => 8 * bs.length
  | .bits bs => bs.length

/-- The number of bits the format of a context gives an instruction (R70 to R73): a record its length byte and its
payload, a code the width `cw`, a header byte 8. -/
def formatSize : Ctx → Instr → Nat
  | .record, .data payload => 8 * (1 + payload.length)
  | .record, _ => 8
  | .code cw _ _, _ => cw
  | .header _, _ => 8

@[simp] theorem valueBits_length (w v : Nat) : (valueBits w v).length = w := by
  induction w generalizing v with
  | zero => rfl
  | succ w ih => simp [valueBits, ih]

end Sys2Proof

namespace Sys2Proof.Laws.EncodedSize

/-- Whatever context can hold the instruction, its encoding there has exactly the size of the context's format. -/
def Statement (i : Instr) : Prop := ∀ (c : Ctx) (x : Item), encode c i = .ok x → x.size = formatSize c i

end Sys2Proof.Laws.EncodedSize

namespace Sys2Proof.Laws

open EncodedSize (Statement)

/-- A row that no context holds has no encoding. -/
theorem encodedSize_of_command {i : Instr} (h : ∀ c : Ctx, i.wfIn c = false) : Statement i := by
  intro c x hx
  simp [encode, h c] at hx

/-- A code is held by code contexts alone. -/
theorem encodedSize_of_code {i : Instr} {v : Nat → Nat} (hr : i.wfIn .record = false) (hh : ∀ k, i.wfIn (.header k) = false)
    (hc : ∀ cw n tlen, i.wfIn (.code cw n tlen) = true →
      encode (.code cw n tlen) i = .ok (.bits (valueBits cw (v n)))) : Statement i := by
  intro c x hx
  cases c with
  | record => simp [encode, hr] at hx
  | header k => simp [encode, hh k] at hx
  | code cw n tlen =>
    cases hw : i.wfIn (.code cw n tlen) with
    | false => simp [encode, hw] at hx
    | true =>
      rw [hc cw n tlen hw] at hx
      cases hx
      simp [Item.size, formatSize]

/-- A header byte of one format. -/
theorem encodedSize_of_header {i : Instr} (hr : i.wfIn .record = false) (hc : ∀ cw n tlen, i.wfIn (.code cw n tlen) = false)
    (hh : ∀ k x, encode (.header k) i = .ok x → ∃ b : Byte, x = .bytes [b]) : Statement i := by
  intro c x hx
  cases c with
  | record => simp [encode, hr] at hx
  | code cw n tlen => simp [encode, hc cw n tlen] at hx
  | header k =>
    obtain ⟨b, rfl⟩ := hh k x hx
    rfl

/-- No context holds a command: it has no encoding (R83, R85). -/
theorem not_wfIn_of_command {i : Instr} (h : i.isCommand = true) (c : Ctx) : i.wfIn c = false := by
  cases i <;> simp [Instr.isCommand] at h <;> cases c <;> first | rfl | (rename_i k; cases k <;> rfl)

end Sys2Proof.Laws

namespace Sys2Proof.Laws.EncodedSize

theorem clear : Statement .clear :=
  encodedSize_of_code (v := fun n => n) rfl (fun k => by cases k <;> rfl) fun _ _ _ h => by rw [encode, if_pos h]

theorem eoi : Statement .eoi :=
  encodedSize_of_code (v := fun n => n + 1) rfl (fun k => by cases k <;> rfl) fun _ _ _ h => by rw [encode, if_pos h]

theorem known (code : Nat) : Statement (.known code) :=
  encodedSize_of_code (v := fun _ => code) rfl (fun k => by cases k <;> rfl) fun _ _ _ h => by rw [encode, if_pos h]

theorem kwkwk (code : Nat) : Statement (.kwkwk code) :=
  encodedSize_of_code (v := fun _ => code) rfl (fun k => by cases k <;> rfl) fun _ _ _ h => by rw [encode, if_pos h]

theorem corrupt (code : Nat) : Statement (.corrupt code) :=
  encodedSize_of_code (v := fun _ => code) rfl (fun k => by cases k <;> rfl) fun _ _ _ h => by rw [encode, if_pos h]

theorem data (payload : List Byte) : Statement (.data payload) := by
  intro c x hx
  cases c with
  | record =>
    simp only [encode] at hx
    split at hx
    · cases hx
      simp [Item.size, formatSize, recordBytes]; omega
    · cases hx
  | code cw n tlen => simp [encode, Instr.wfIn] at hx
  | header k => cases k <;> simp [encode, Instr.wfIn] at hx

theorem term : Statement .term := by
  intro c x hx
  cases c with
  | record =>
    simp [encode, Instr.wfIn] at hx
    subst hx
    rfl
  | code cw n tlen => simp [encode, Instr.wfIn] at hx
  | header k => cases k <;> simp [encode, Instr.wfIn] at hx

theorem pk10 (g : BitVec 1) (r : BitVec 3) (st : BitVec 1) (e : BitVec 3) : Statement (.pk10 g r st e) :=
  encodedSize_of_header rfl (fun _ _ _ => rfl) fun k x h => by
    cases k <;> simp [encode, Instr.wfIn] at h
    exact ⟨_, h.symm⟩

theorem pk9 (lct il st : BitVec 1) (rs : BitVec 2) (e : BitVec 3) : Statement (.pk9 lct il st rs e) :=
  encodedSize_of_header rfl (fun _ _ _ => rfl) fun k x h => by
    cases k <;> simp [encode, Instr.wfIn] at h
    exact ⟨_, h.symm⟩

theorem sep : Statement .sep :=
  encodedSize_of_header rfl (fun _ _ _ => rfl) fun k x h => by
    cases k <;> simp [encode, Instr.wfIn] at h
    exact ⟨_, h.symm⟩

theorem mcs (m : Byte) : Statement (.mcs m) :=
  encodedSize_of_header rfl (fun _ _ _ => rfl) fun k x h => by
    cases k <;> simp [encode, Instr.wfIn] at h
    exact ⟨_, h.symm⟩

theorem rd8 (a : Nat) : Statement (.rd8 a) := encodedSize_of_command (not_wfIn_of_command rfl)

theorem rd16le (a : Nat) : Statement (.rd16le a) := encodedSize_of_command (not_wfIn_of_command rfl)

theorem rdbits (a st n : Nat) : Statement (.rdbits a st n) := encodedSize_of_command (not_wfIn_of_command rfl)

theorem assemble (p : Nat) : Statement (.assemble p) := encodedSize_of_command (not_wfIn_of_command rfl)

theorem decode (bits : List Bool) (m : Byte) (n : Nat) : Statement (.decode bits m n) := encodedSize_of_command (not_wfIn_of_command rfl)

theorem run (sp n : Nat) : Statement (.run sp n) := encodedSize_of_command (not_wfIn_of_command rfl)

theorem parseHeader : Statement .parseHeader := encodedSize_of_command (not_wfIn_of_command rfl)

theorem extractGct (e : BitVec 3) : Statement (.extractGct e) := encodedSize_of_command (not_wfIn_of_command rfl)

theorem locateImage (g : Nat) : Statement (.locateImage g) := encodedSize_of_command (not_wfIn_of_command rfl)

theorem buildGrid (colors : List Nat) (w : Nat) : Statement (.buildGrid colors w) := encodedSize_of_command (not_wfIn_of_command rfl)

theorem decodeFile : Statement .decodeFile := encodedSize_of_command (not_wfIn_of_command rfl)

end Sys2Proof.Laws.EncodedSize
end

