-- ==== Sys2Proof/Tests/Slice0.lean ====
section
/-! SUPPORT. Tests/Slice0.lean: the well-formedness smoke tests, decoding of words written out from the spec's encodings, one-step tests with the results of 95_test_vectors.md and of the rules' worked examples, and for every obligation that has hypotheses a state and operands that meet them. -/

open Sys2Proof Sys2Proof.Machine

namespace Sys2Proof.Tests

/-! ## Helpers -/

/-- The outcome is a next state with this property. -/
def isNext (o : Host.Outcome State Fault Refusal) (p : State → Bool) : Bool :=
  match o with
  | .next t => p t
  | .fault _ => false
  | .refused _ => false

def isRefused (o : Host.Outcome State Fault Refusal) (r : Refusal) : Bool :=
  match o with
  | .next _ => false
  | .fault _ => false
  | .refused q => decide (q = r)

def isFault (o : Host.Outcome State Fault Refusal) (f : Fault) : Bool :=
  match o with
  | .next _ => false
  | .fault g => decide (g = f)
  | .refused _ => false

theorem exists_of_isNext {o : Host.Outcome State Fault Refusal} {p : State → Bool} (h : isNext o p = true) :
    ∃ t, o = .next t ∧ p t = true := by
  cases o with
  | next t => exact ⟨t, rfl, h⟩
  | fault f => simp [isNext] at h
  | refused r => simp [isNext] at h

/-- A decoder gave this instruction. -/
def gives (x : Except Reject Instr) (i : Instr) : Bool :=
  match x with
  | .ok j => decide (j = i)
  | .error _ => false

/-- No run, the buffer holding these bytes. -/
def buffer (bytes : List Byte) : State := State.reset.loadBuffer bytes

/-- The buffer of the vectors V-F1 to V-F11. -/
def fields : State := buffer [0x47, 0x49, 0x46, 0x38, 0x39, 0x61, 0x02, 0x01, 0xFF, 0xFF, 0x91, 0xE5, 0x00]

/-- The file F of program P1. -/
def fileP1 : List Byte :=
  [0x47, 0x49, 0x46, 0x38, 0x39, 0x61, 0x02, 0x00, 0x02, 0x00, 0x91, 0x00, 0x00] ++
  [0x00, 0x00, 0x00, 0xFF, 0x00, 0x00, 0x00, 0xFF, 0x00, 0x00, 0x00, 0xFF] ++
  [0x2C, 0x00, 0x00, 0x00, 0x00, 0x02, 0x00, 0x02, 0x00, 0x00, 0x02, 0x03, 0x44, 0xB4, 0x02, 0x00, 0x3B]

def p1 : State := buffer fileP1

/-- The assembler at work at offset 0 of these bytes, `N = 4`, `mcs = 2`. -/
def assembler (bytes : List Byte) (inRun : Bool) : State :=
  { buffer bytes with status := .assembling, inRun := inRun, N := 4, mcs := 2 }

/-- The decoder at DECODE start for `N = 4`, `mcs = 2` (R121's worked example). -/
def decoderStart (payload : List Byte) : State :=
  { State.reset with
    status := .decoding, N := 4, mcs := 2, BS := bytesBits payload, cw := 3, T := initialTable 4 }

/-- Program P1 before its step 2: `bp = 3`, after the CLEAR. -/
def p1Step2 : State := { decoderStart [0x44, 0xB4, 0x02] with bp := 3 }

/-- Program P1 before its step 5: 12, 3, 3, 8, false, 2. -/
def p1Step5 : State :=
  { decoderStart [0x44, 0xB4, 0x02] with
    bp := 12, cnt := 3, T := initialTable 4 ++ [.color [0, 1], .color [1, 2]], first := false, prev := some 2,
    out := [0, 1, 2] }

/-- Program P1 before its step 6: 15, 4, 0, 9, false, 3; with another payload, program P4 before its step 6. -/
def p1Step6 (payload : List Byte) : State :=
  { decoderStart payload with
    bp := 15, cw := 4, T := initialTable 4 ++ [.color [0, 1], .color [1, 2], .color [2, 3]], first := false,
    prev := some 3, out := [0, 1, 2, 3] }

/-- Program P2 before its step 3: 6, 3, 1, 6, false, 1. -/
def p2Step3 : State :=
  { decoderStart [0x8C, 0xFD, 0x2C] with bp := 6, cnt := 1, first := false, prev := some 1, out := [1] }

/-- The state of the vector V-D14 before its last step: 43, 4, 7, at `MAXW = 4`. -/
def overflowing : State :=
  { decoderStart [0x04, 0x00, 0x00, 0x00, 0x00, 0x80, 0x02] with
    MAXW := 4, bp := 43, cw := 4, cnt := 7, T := initialTable 4 ++ List.replicate 10 (.color [0, 0]), first := false,
    prev := some 0, out := List.replicate 11 0 }

/-- Program P1 at the end of its run: DONE, `out = [0,1,2,3]`, the host waiting with what its stages parsed of F. -/
def p1Done : State :=
  { p1 with
    S := 25, N := 4, mcs := 2, status := .done, inRun := true, ap := 41, bp := 19, cw := 4, out := [0, 1, 2, 3]
    host := { p1.host with
      job := .awaitRun, N := 4, G := 12, S := 25, image := { Image.zero with width := 2, height := 2 }
      gct := [⟨0, 0, 0⟩, ⟨0xFF, 0, 0⟩, ⟨0, 0xFF, 0⟩, ⟨0, 0, 0xFF⟩] } }

/-! ## Well-formedness: each check refuses an ill-formed term -/

theorem test_wf_refuses_empty_range : (Instr.rdbits 10 0 0).wf = false := by decide
theorem test_wf_refuses_range_past_byte : (Instr.rdbits 10 5 4).wf = false := by decide
theorem test_wf_accepts_whole_byte : (Instr.rdbits 10 0 8).wf = true := by decide
theorem test_wf_refuses_empty_payload : (Instr.data []).wf = false := by decide
theorem test_wf_refuses_payload_of_256 : (Instr.data (List.replicate 256 0)).wf = false := by decide +kernel
theorem test_wf_refuses_no_colors : (Instr.decode [] 2 0).wf = false ∧ (Instr.run 25 0).wf = false := by decide
theorem test_wfIn_refuses_code_of_other_class :
    (Instr.known 4).wfIn (.code 3 4 6) = false ∧ (Instr.known 6).wfIn (.code 3 4 6) = false ∧
      (Instr.kwkwk 7).wfIn (.code 3 4 6) = false ∧ (Instr.corrupt 6).wfIn (.code 3 4 6) = false := by decide
theorem test_wfIn_refuses_unaddressable_code :
    Instr.clear.wfIn (.code 2 4 6) = false ∧ Instr.eoi.wfIn (.code 2 4 6) = false ∧
      (Instr.corrupt 8).wfIn (.code 3 4 6) = false := by decide
theorem test_wfIn_refuses_other_context :
    Instr.term.wfIn (.code 3 4 6) = false ∧ Instr.sep.wfIn .record = false ∧
      (Instr.mcs 2).wfIn (.header .pk10) = false ∧ (Instr.rd8 0).wfIn .record = false ∧
      (Instr.data []).wfIn .record = false := by decide

/-! ## Decoding of words written out from the spec's encodings -/

/-- Program P1's codes, bit by bit: `001 000 100 010 110 1010`. -/
theorem test_decode_codes :
    gives (decode (.code 3 4 6) (.bits [false, false, true])) .clear = true ∧
      gives (decode (.code 3 4 6) (.bits [true, false, false])) (.known 1) = true ∧
      gives (decode (.code 4 4 9) (.bits [true, false, true, false])) .eoi = true := by decide

/-- P2's steps 3 and 6: `011` is 6 where the table has 6 entries; `1001` is 9 where it has 9. -/
theorem test_decode_kwkwk :
    gives (decode (.code 3 4 6) (.bits [false, true, true])) (.kwkwk 6) = true ∧
      gives (decode (.code 4 4 9) (.bits [true, false, false, true])) (.kwkwk 9) = true := by decide

/-- R130: with `|T| = 6`, 7 is corrupt; P4's step 6: `1101` is 11. -/
theorem test_decode_corrupt :
    gives (decode (.code 3 4 6) (.bits [true, true, true])) (.corrupt 7) = true ∧
      gives (decode (.code 4 4 9) (.bits [true, true, false, true])) (.corrupt 11) = true := by decide

/-- V-A6's records: `02 00 2C` is a DATA record of two bytes, a zero among them. -/
theorem test_decode_records :
    gives (decode .record (.bytes [0x02, 0x00, 0x2C, 0x01, 0xFF, 0x00])) (.data [0x00, 0x2C]) = true ∧
      gives (decode .record (.bytes [0x00, 0x3B])) .term = true := by decide

/-- V-A3: a record cut short decodes to nothing. -/
theorem test_decode_rejects_truncated :
    (match decode .record (.bytes [0x03, 0x44, 0xB4]) with | .ok _ => false | .error r => decide (r = .recordTruncated)) = true ∧
      (match decode (.code 4 4 9) (.bits [true]) with | .ok _ => false | .error r => decide (r = .codeTruncated)) = true := by
  decide

/-- R77 on `0x91 = 1 001 0 001` and `0xE5 = 1 110 0 101` (V-F7, V-F8). -/
theorem test_decode_pk10 :
    gives (decode (.header .pk10) (.bytes [0x91])) (.pk10 1 1 0 1) = true ∧
      gives (decode (.header .pk10) (.bytes [0xE5])) (.pk10 1 6 0 5) = true := by decide

/-- R78 on `0x9A = 1 0 0 11 010` and `0x60 = 0 1 1 00 000`. -/
theorem test_decode_pk9 :
    gives (decode (.header .pk9) (.bytes [0x9A])) (.pk9 1 0 0 3 2) = true ∧
      gives (decode (.header .pk9) (.bytes [0x60])) (.pk9 0 1 1 0 0) = true := by decide

/-- R79, R80: the separator is `0x2C` alone; all eight bits of the next byte are `mcs`. -/
theorem test_decode_sep_and_mcs :
    gives (decode (.header .sep) (.bytes [0x2C])) .sep = true ∧
      gives (decode (.header .sep) (.bytes [0x3B])) .sep = false ∧
      gives (decode (.header .mcs) (.bytes [0xFF])) (.mcs 255) = true := by decide

/-- R87: P1's listing packs to `44 B4 02`. -/
theorem test_pack_listing :
    packBytes (listingBits [(4, 3), (0, 3), (1, 3), (2, 3), (3, 3), (5, 4)]) = [0x44, 0xB4, 0x02] := by decide

/-- R71, R87: P3's chain. -/
theorem test_chain : chainBytes [[0x44, 0x7C], [0xDA, 0x5C]] = [0x02, 0x44, 0x7C, 0x02, 0xDA, 0x5C, 0x00] := by decide

/-! ## The table words the host asks about -/

theorem test_table_words : decodeTableWord 8 0x00 = some .term ∧ decodeTableWord 8 0x2C = some .sep := by
  decide

theorem test_fetch_word_term :
    isNext (step (State.reset.withFetchWord 8 0x00)) (fun t => t.status = .idle && t.ap = 1) = true := by decide

theorem test_fetch_word_sep :
    isNext (step (State.reset.withFetchWord 8 0x2C)) (fun t => t.host.S = 13 && t.host.reply = .value 13) = true := by
  decide

/-! ## One step each -/

/-- R125's worked example: `CLEAR 4 /4` at `cw = 4`, `|T| = 9`, `prev = 7` (the bits are `0010`). -/
theorem test_clear :
    isNext (step { p1Step6 [0x00, 0x00, 0x02] with prev := some 7 }) (fun t => t.cw = 3 && t.cnt = 0 &&
      t.T = initialTable 4 && t.first && t.prev = some 7 && t.bp = 19 && t.out = [0, 1, 2, 3]) = true := by decide

/-- P1's step 6. -/
theorem test_eoi :
    isNext (step (p1Step6 [0x44, 0xB4, 0x02])) (fun t => t.status = .done && t.bp = 19 && t.out = [0, 1, 2, 3] &&
      t.cw = 4 && t.prev = some 3) = true := by decide

/-- P1's step 2: the first code after a reset. -/
theorem test_known_first :
    isNext (step p1Step2) (fun t => t.out = [0] && t.T = initialTable 4 && t.bp = 6 && t.cnt = 1 && t.first = false &&
      t.prev = some 0) = true := by decide

/-- P1's step 5: the code extends the table and the width grows. -/
theorem test_known_extends_and_grows :
    isNext (step p1Step5) (fun t => t.out = [0, 1, 2, 3] && t.T[8]? = some (.color [2, 3]) && t.bp = 15 && t.cw = 4 &&
      t.cnt = 0 && t.T.length = 9 && t.prev = some 3) = true := by decide

/-- P2's step 3. -/
theorem test_kwkwk :
    isNext (step p2Step3) (fun t => t.out = [1, 1, 1] && t.T[6]? = some (.color [1, 1]) && t.bp = 9 && t.cw = 3 &&
      t.cnt = 2 && t.T.length = 7 && t.prev = some 6) = true := by decide

/-- R129: code 6 directly after a reset of a table of 6 entries (the bits are `011`). -/
theorem test_kwkwk_after_reset :
    isNext (step (decoderStart [0x06])) (fun t => t.status = .fault .corruptCodeStream) = true := by decide

/-- P4's step 6. -/
theorem test_corrupt :
    isNext (step (p1Step6 [0x44, 0xB4, 0x05])) (fun t => t.status = .fault .corruptCodeStream && t.bp = 15) = true := by
  decide

/-- V-D14's last step. -/
theorem test_width_overflow :
    isNext (step overflowing) (fun t => t.status = .fault .codeWidthOverflow && t.T.length = 16) = true := by decide

/-- V-A1's first step, and the order of its bits. -/
theorem test_data :
    isNext (step (assembler [0x03, 0x44, 0xB4, 0x02, 0x00] false)) (fun t => t.ap = 4 && t.BS.take 16 =
      [false, false, true, false, false, false, true, false, false, false, true, false, true, true, false, true] &&
      t.BS.length = 24) = true := by decide

/-- V-A3: no payload byte is appended. -/
theorem test_data_truncated :
    isNext (step (assembler [0x03, 0x44, 0xB4] false)) (fun t => t.status = .fault .truncatedStream && t.BS = [] &&
      t.ap = 0) = true := by decide

/-- V-A2: a bare ASSEMBLE gives the empty bit stream. -/
theorem test_term_bare :
    isNext (step (assembler [0x00] false)) (fun t => t.ap = 1 && t.host.reply = .bits []) = true := by decide

/-- R114, R121: inside RUN the decoder starts. -/
theorem test_term_in_run :
    isNext (step (assembler [0x00] true)) (fun t => t.ap = 1 && t.status = .decoding && t.cw = 3 && t.T.length = 6 &&
      t.first && t.bp = 0) = true := by decide

/-- P1's byte 10, read by the Field Reader on the host's command. -/
theorem test_pk10 :
    isNext (step { p1 with host := { p1.host with queue := [.header .pk10] } }) (fun t => t.host.screen.gctFlag = 1 &&
      t.host.screen.colorRes = 1 && t.host.screen.sortFlag = 0 && t.host.screen.e = 1) = true := by decide

/-- V-H13's byte 34: all fields set. -/
theorem test_pk9 :
    isNext (exec (.pk9 1 1 1 3 7) p1) (fun t => t.host.image.lctFlag = 1 && t.host.image.interlace = 1 &&
      t.host.image.sortFlag = 1 && t.host.image.reserved = 3 && t.host.image.lctExp = 7 && t.host.image.width = 0) = true := by
  decide

/-- P1's separator: 25, with `G = 12`. -/
theorem test_sep :
    isNext (exec .sep { p1 with host := { p1.host with G := 12 } }) (fun t => t.host.S = 25) = true := by decide

/-- P1's byte 35, with `S = 25`. -/
theorem test_mcs :
    isNext (step { p1 with host := { p1.host with S := 25, queue := [.header .mcs] } }) (fun t => t.mcs = 2) = true := by
  decide

/-- V-F1, V-F3. -/
theorem test_rd8 :
    isNext (exec (.rd8 0) fields) (fun t => t.host.reply = .value 71) = true ∧
      isNext (exec (.rd8 13) fields) (fun t => t.host.reply = .error (.block .malformedHeader)) = true := by decide

/-- V-F4, V-F5, V-F6. -/
theorem test_rd16le :
    isNext (exec (.rd16le 6) fields) (fun t => t.host.reply = .value 258) = true ∧
      isNext (exec (.rd16le 8) fields) (fun t => t.host.reply = .value 65535) = true ∧
      isNext (exec (.rd16le 12) fields) (fun t => t.host.reply = .error (.block .malformedHeader)) = true := by decide

/-- V-F8, V-F12. -/
theorem test_rdbits :
    isNext (exec (.rdbits 11 1 3) fields) (fun t => t.host.reply = .value 6) = true ∧
      isNext (exec (.rdbits 11 5 3) fields) (fun t => t.host.reply = .value 5) = true ∧
      isRefused (exec (.rdbits 10 5 4) fields) .rangeNotACommand = true := by decide

/-- R111: the operand is not checked against `L` (V-A5). -/
theorem test_assemble :
    isNext (exec (.assemble 1) (buffer [0x00])) (fun t => t.status = .assembling && t.ap = 1 && t.BS = []) = true := by
  decide

/-- R121's worked example, and V-D16. -/
theorem test_decode :
    isNext (exec (.decode [true] 2 4) State.reset) (fun t => t.status = .decoding && t.cw = 3 && t.cnt = 0 && t.first &&
      t.T.length = 6 && t.bp = 0 && t.out = [] && t.prev = none) = true ∧
      isNext (exec (.decode [true] 12 4) State.reset) (fun t => t.status = .fault .codeWidthOverflow) = true := by decide

/-- P1's start, and V-R2. -/
theorem test_run :
    isNext (exec (.run 25 4) p1) (fun t => t.mcs = 2 && t.ap = 36 && t.status = .assembling) = true ∧
      isNext (exec (.run 25 4) (buffer (fileP1.take 35))) (fun t => t.status = .fault .malformedHeader) = true := by
  decide

/-- P1's header, and V-H7. -/
theorem test_parse_header :
    isNext (exec .parseHeader p1) (fun t => t.host.screen.width = 2 && t.host.screen.e = 1 &&
      t.host.sig = [0x47, 0x49, 0x46, 0x38, 0x39, 0x61]) = true ∧
      isNext (exec .parseHeader (buffer (0xC7 :: fileP1.drop 1)))
        (fun t => t.host.reply = .error (.block .malformedHeader)) = true := by decide

/-- P1's color table, and V-H3. -/
theorem test_extract_gct :
    isNext (exec (.extractGct 1) p1) (fun t => t.host.N = 4 && t.host.G = 12 &&
      t.host.gct = [⟨0, 0, 0⟩, ⟨0xFF, 0, 0⟩, ⟨0, 0xFF, 0⟩, ⟨0, 0, 0xFF⟩]) = true ∧
      isNext (exec (.extractGct 7) p1) (fun t => t.host.reply = .error .invalidColorTableSize) = true := by decide

/-- P1's image descriptor, and V-H4. -/
theorem test_locate_image :
    isNext (exec (.locateImage 12) p1) (fun t => t.host.S = 25 && t.host.image.width = 2 && t.host.image.height = 2) = true ∧
      isNext (exec (.locateImage 12) (buffer (fileP1.take 25)))
        (fun t => t.host.reply = .error .imageDescriptorNotFound) = true := by decide

/-- P1's grid, V-H8 and V-H10. -/
theorem test_build_grid :
    isNext (exec (.buildGrid [0, 1, 2, 3] 2) p1) (fun t => t.host.grid = [[0, 1], [2, 3]]) = true ∧
      isNext (exec (.buildGrid [0, 1, 2, 3] 3) p1) (fun t => t.host.reply = .error .dimensionMismatch) = true ∧
      isNext (exec (.buildGrid [] 0) p1) (fun t => t.host.reply = .error .dimensionMismatch) = true := by decide

/-- P1: the host finds `S = 25` and `N = 4`, and the run starts at 36. -/
theorem test_decode_file :
    isNext (exec .decodeFile p1) (fun t => t.S = 25 && t.N = 4 && t.mcs = 2 && t.ap = 36 && t.status = .assembling &&
      t.host.job = .awaitRun && t.host.image.width = 2) = true := by decide

/-- V-H14: a separator byte inside the color table is not taken. -/
theorem test_decode_file_skips_table :
    isNext (exec .decodeFile (buffer (fileP1.take 16 ++ 0x2C :: fileP1.drop 17))) (fun t => t.S = 25) = true := by decide

/-- R35: in IDLE with nothing asked for no step is enabled. -/
theorem test_no_step_at_reset : isFault (step State.reset) .noStepEnabled = true := by decide

/-- R163 on P1 (95_test_vectors.md): the grid [[0,1],[2,3]] and the triples of its color table, bytes 13..24; an index
beyond the table resolves to nothing. -/
theorem test_resolve_colors :
    isNext (step p1Done) (fun t => t.host.grid = [[0, 1], [2, 3]] &&
      t.host.rgbGrid = some [[⟨0, 0, 0⟩, ⟨0xFF, 0, 0⟩], [⟨0, 0xFF, 0⟩, ⟨0, 0, 0xFF⟩]]) = true ∧
      p1Done.host.colorOf 4 = none := by decide

/-- A failed request leaves the script, and its next request is the next step (log entry 23). -/
theorem test_script_goes_on_after_failure :
    isNext (step { State.reset with host := { State.reset.host with queue := [.load none, .load (some fileP1)] } })
      (fun t => t.host.reply = .error .fileNotFound && isNext (step t) (fun u => u.L = 42)) = true := by decide

/-- Before any load: RUN faults MalformedHeader, and ASSEMBLE's first A-step TruncatedStream (log entry 25). -/
theorem test_start_before_load :
    isNext (exec (.run 0 4) State.reset) (fun t => t.status = .fault .malformedHeader) = true ∧
      isNext (exec (.assemble 0) State.reset) (fun t => isNext (step t) (fun u => u.status = .fault .truncatedStream)) =
        true := by decide

/-! ## Witnesses: for every obligation with hypotheses, a state and operands that meet them together -/

/-- Program P1 before its step 6 meets the decoder's invariant. -/
theorem p1Step6_inv (payload : List Byte) (h : payload.length = 3) : (p1Step6 payload).DecoderInv where
  colorCount := by show 1 ≤ 4; decide
  table := ⟨[[0, 1], [1, 2], [2, 3]], rfl, by
    intro x hx
    simp only [List.mem_cons, List.not_mem_nil, or_false] at hx
    rcases hx with rfl | rfl | rfl <;> exact ⟨by decide, by simp [colorsBelow, p1Step6, decoderStart]⟩⟩
  widthLow := by show 2 + 1 ≤ 4; decide
  widthHigh := by show 4 ≤ 12; decide
  count := by show 0 < 2 ^ 3; decide
  cursor := by
    obtain ⟨a, b, c, rfl⟩ := List.length_eq_three.1 h
    simp [State.BL, p1Step6, decoderStart, bytesBits, byteBits]
  emitted := by simp [colorsBelow, p1Step6, decoderStart]
  previous := fun _ => ⟨3, rfl, by show 3 < 9; decide, by show 3 ≠ 4; decide, by show 3 ≠ 5; decide⟩
  fresh := fun h => by simp [p1Step6] at h
  grown := fun _ => ⟨by show 1 ≤ 0 + 2 ^ 3 - 2 ^ 2; decide, by show 9 + 1 = 6 + (0 + 2 ^ 3 - 2 ^ 2); decide⟩

theorem inv_of_decoding {s : State} (h : s.DecoderInv) (hs : s.status = .decoding) (hb : s.BUF = [])
    (hh : s.host = .initial) : s.Inv where
  memory := by rw [hb]; exact ⟨List.Pairwise.nil, by simp⟩
  bounded := by rw [hb]; simp
  wholeBytes := by simp [hs]
  runColors := by simp [hs]
  decoder := fun _ => h
  result := by simp [hs]
  tableSize := by rw [hh]; rfl
  waiting := by rw [hh]; exact fun hj => by cases hj

theorem p1_inv : p1.Inv where
  memory := Memory.ofBytes_wf 0 fileP1
  bounded := fun c hc => by
    have := Memory.ofBytes_mem (a := 0) (bs := fileP1) hc
    show c.1 < fileP1.length
    omega
  wholeBytes := fun h => by cases h
  runColors := fun h => by cases h
  decoder := fun h => by cases h
  result := fun h => by cases h
  tableSize := rfl
  waiting := fun h => by cases h

theorem assembler_inv (bytes : List Byte) (inRun : Bool) : (assembler bytes inRun).Inv where
  memory := Memory.ofBytes_wf 0 bytes
  bounded := fun c hc => by
    have := Memory.ofBytes_mem (a := 0) (bs := bytes) hc
    show c.1 < bytes.length
    omega
  wholeBytes := fun _ => rfl
  runColors := fun _ _ => by show 1 ≤ 4; decide
  decoder := fun h => by cases h
  result := fun h => by cases h
  tableSize := rfl
  waiting := fun h => by cases h

/-- The last legal offset and the first illegal one. -/
theorem witness_Rd8GivesByteOrMalformedHeader : 12 < fields.L ∧ fields.L ≤ 13 := by decide

theorem witness_Rd16leGivesWordOrMalformedHeader : 11 + 2 ≤ fields.L ∧ fields.L < 12 + 2 := by decide

theorem witness_RdbitsGivesFieldOrMalformedHeader :
    (1 ≤ 8 ∧ 0 + 8 ≤ 8 ∧ 12 < fields.L) ∧ (1 ≤ 1 ∧ 7 + 1 ≤ 8 ∧ fields.L ≤ 13) ∧ ((0 : Nat) = 0 ∨ 8 < 0 + 0) ∧
      ((1 : Nat) = 0 ∨ 8 < 8 + 1) := by decide

theorem witness_FieldReaderReadsAgree : 0 + 4 + 4 ≤ 8 := by decide

theorem witness_FieldReaderIsPure :
    (∃ t, exec (.rd8 12) fields = .next t) ∧ (∃ t, exec (.rd16le 11) fields = .next t) ∧
      (∃ t, exec (.rdbits 12 0 8) fields = .next t) ∧
      (decoderStart []).BUF = State.reset.BUF ∧ (decoderStart []).L = State.reset.L := ⟨⟨_, rfl⟩, ⟨_, rfl⟩, ⟨_, rfl⟩, rfl, rfl⟩

/-- Each code class at the width that just holds it, records of the least and the greatest length, each header byte. -/
theorem witness_DecodeOfEncodeIsTheInstruction :
    Instr.clear.wfIn (.code 3 7 9) ∧ Instr.eoi.wfIn (.code 3 6 8) ∧ (Instr.known 7).wfIn (.code 3 4 8) ∧
      (Instr.kwkwk 7).wfIn (.code 3 4 7) ∧ (Instr.corrupt 7).wfIn (.code 3 4 6) ∧
      (Instr.data (List.replicate 1 0)).wfIn .record ∧ (Instr.data (List.replicate 255 0)).wfIn .record ∧
      Instr.term.wfIn .record ∧ (Instr.pk10 1 7 1 7).wfIn (.header .pk10) ∧ (Instr.pk9 1 1 1 3 7).wfIn (.header .pk9) ∧
      Instr.sep.wfIn (.header .sep) ∧ (Instr.mcs 255).wfIn (.header .mcs) := by decide +kernel

/-- A code of exactly the bits there are, a table of the least length that has both sentinels, and the last code of a
stream. -/
theorem witness_EveryCodeDecodesAndEncodesBack :
    3 ≤ [true, false, true].length ∧ 4 + 2 ≤ (initialTable 4).length ∧
      ({ p1Step6 [0, 0, 0] with bp := 20 } : State).status = .decoding ∧
      20 + 4 ≤ ({ p1Step6 [0, 0, 0] with bp := 20 } : State).BL := by decide

theorem witness_EveryRecordAndHeaderByteDecodesAndEncodesBack :
    (255 : Byte).toNat ≤ (List.replicate 255 (0 : Byte)).length ∧ (0 : Byte).toNat ≤ ([] : List Byte).length ∧
      (HeaderKind.sep = .sep → (0x2C : Byte) = 0x2C) ∧ (0x3B : Byte) ≠ 0x2C := by decide +kernel

theorem witness_PackedBitsUnpackAndCodesKeepTheirValue : 7 < 2 ^ 3 := by decide

theorem witness_StepRunsDecodedInstruction :
    ((assembler [0x00] false).status = .assembling ∧
      gives (decode .record (.bytes ((assembler [0x00] false).bytesAt (assembler [0x00] false).ap 256))) .term) ∧
    (p1Step5.status = .decoding ∧ gives (decode (.code p1Step5.cw p1Step5.N p1Step5.T.length)
      (.bits (p1Step5.bitsAt p1Step5.bp p1Step5.cw))) (.known 3)) ∧
    (p1.status.running = false ∧ p1.host.job = .none ∧ (Instr.run 25 4).isCommand) ∧
    (({ p1 with host := { p1.host with S := 25 } } : State).headerOffset .mcs = some 35 ∧
      gives (decode (.header .mcs) (.bytes (p1.bytesAt 35 1))) (.mcs 2)) := by decide

theorem witness_NoStepWithoutRunOrRequest :
    State.reset.status.running = false ∧ State.reset.host.job = .none ∧ State.reset.host.queue = [] := by decide

theorem witness_AssembleStartsAtOperand :
    p1.status.running = false ∧ (assembler [] true).status.running = true := by decide

/-- A record of the greatest length that just fits and one that misses by a byte. -/
theorem witness_DataAppendsPayloadBits :
    (assembler (List.replicate 256 1) false).status = .assembling ∧
      1 ≤ (List.replicate 255 (1 : Byte)).length ∧ (List.replicate 255 (1 : Byte)).length ≤ 255 ∧
      0 + 1 + (List.replicate 255 (1 : Byte)).length ≤ (assembler (List.replicate 256 1) false).L ∧
      (assembler [0x01] false).L < 0 + 1 + [(0xAA : Byte)].length := by decide +kernel

/-- V-A7: the record ends exactly at the end of the buffer. -/
theorem witness_StepConsumesRecordOfTheBuffer :
    (assembler [0x01, 0xAA] false).status = .assembling ∧ 0 < (assembler [0x01, 0xAA] false).L ∧
      (assembler [0x01, 0xAA] false).BUF.read 0 ≠ 0 ∧
      0 + 1 + ((assembler [0x01, 0xAA] false).BUF.read 0).toNat ≤ (assembler [0x01, 0xAA] false).L := by decide

/-- V-A4's last step and V-A3. -/
theorem witness_TruncatedRecordRaises :
    ({ assembler [0x03, 0x44, 0xB4, 0x02] false with ap := 4 } : State).L ≤ 4 ∧
      (assembler [0x03, 0x44, 0xB4] false).BUF.read 0 ≠ 0 ∧
      (assembler [0x03, 0x44, 0xB4] false).L < 0 + 1 + ((assembler [0x03, 0x44, 0xB4] false).BUF.read 0).toNat := by decide

theorem witness_TermEndsAssembly :
    (assembler [0x00] true).status = .assembling ∧ 0 + 1 ≤ (assembler [0x00] true).L ∧
      (assembler [0x00] true).inRun = true ∧ (assembler [0x00] true).mcs.toNat + 1 ≤ (assembler [0x00] true).MAXW ∧
      ({ assembler [0x00] true with mcs := 12 } : State).MAXW < ({ assembler [0x00] true with mcs := 12 } : State).mcs.toNat + 1 ∧
      (assembler [0x00] false).inRun = false := by decide

/-- V-A8's chain of two records, and V-A2's of none. -/
theorem witness_AssembleConcatenatesChain :
    (∀ r ∈ [[(0x44 : Byte), 0x7C], [0xDA, 0x5C]], 1 ≤ r.length ∧ r.length ≤ 255) ∧
      (assembler [0x02, 0x44, 0x7C, 0x02, 0xDA, 0x5C, 0x00] true).bytesAt 0 7 = chainBytes [[0x44, 0x7C], [0xDA, 0x5C]] ∧
      (assembler [0x00] false).bytesAt 0 1 = chainBytes [] ∧
      (assembler [0x00] false).status = .assembling ∧
      (assembler [0x02, 0x44, 0x7C, 0x02, 0xDA, 0x5C, 0x00] true).mcs.toNat + 1 ≤ 12 := by decide

/-- `mcs = 11` is the greatest that `MAXW = 12` admits (V-D16). -/
theorem witness_DecodeCreatesDecoderState :
    p1.status.running = false ∧ (11 : Byte).toNat + 1 ≤ p1.MAXW ∧ p1.MAXW < (12 : Byte).toNat + 1 ∧
      (decoderStart []).status.running = true := by decide

/-- The `mcs` byte is the last byte of the buffer, or just beyond it. -/
theorem witness_RunLatchesInputsAndStartsAssembler :
    p1.status.running = false ∧ 31 + 10 < p1.L ∧ p1.L ≤ 32 + 10 ∧ (decoderStart []).status.running = true := by decide

/-- The CLEAR that ends exactly at the end of the stream. -/
theorem witness_ClearResetsTableAndWidth :
    ({ p1Step6 [0, 0, 0] with bp := 20 } : State).status = .decoding ∧
      20 + 4 ≤ ({ p1Step6 [0, 0, 0] with bp := 20 } : State).BL := by decide

theorem witness_ClearTruncatesTable :
    (p1Step6 [0, 0, 0]).DecoderInv ∧
      ∃ t, exec .clear (p1Step6 [0, 0, 0]) = .next t ∧ decide (t.status = .decoding) = true :=
  ⟨p1Step6_inv _ rfl, exists_of_isNext (by decide)⟩

/-- P1's step 6, whose code is 5; and a step that stays DECODING and one for each fault. -/
theorem witness_EoiEndsRun :
    ((p1Step6 [0x44, 0xB4, 0x02]).status = .decoding ∧ 15 + 4 ≤ (p1Step6 [0x44, 0xB4, 0x02]).BL ∧
      ((List.range 4).map fun k => (((p1Step6 [0x44, 0xB4, 0x02]).BS[15 + k]?).getD false).toNat * 2 ^ k).sum = 4 + 1) ∧
      (∃ t, step (p1Step6 [0x44, 0xB4, 0x02]) = .next t ∧ decide (t.status = .done) = true) ∧
      (∃ t, step p1Step5 = .next t ∧ decide (t.status = .decoding) = true) ∧
      (∃ t, step (decoderStart []) = .next t ∧ decide (t.status = .fault .truncatedStream) = true) ∧
      (∃ t, step (decoderStart [0x06]) = .next t ∧ decide (t.status = .fault .corruptCodeStream) = true) ∧
      (∃ t, step overflowing = .next t ∧ decide (t.status = .fault .codeWidthOverflow) = true) ∧
      (p1Step6 [0x44, 0xB4, 0x02]).Inv :=
  ⟨by decide, exists_of_isNext (by decide), exists_of_isNext (by decide), exists_of_isNext (by decide),
    exists_of_isNext (by decide), exists_of_isNext (by decide),
    inv_of_decoding (p1Step6_inv _ rfl) rfl rfl rfl⟩

/-- P1's step 2, and a first code that is also the only one of its width (`mcs = 0`). -/
theorem witness_KnownFirstEmitsWithoutExtending :
    (p1Step2.status = .decoding ∧ 3 + 3 ≤ p1Step2.BL ∧ 0 ≠ p1Step2.N ∧ 0 ≠ p1Step2.N + 1 ∧
      p1Step2.T[0]? = some (.color [0]) ∧ p1Step2.first = true ∧ ¬ p1Step2.cnt + 1 = 2 ^ (3 - 1)) ∧
      ({ p1Step2 with mcs := 0, cw := 1 } : State).cnt + 1 = 2 ^ (1 - 1) ∧
      ({ p1Step2 with mcs := 0, cw := 1 } : State).cw ≠ ({ p1Step2 with mcs := 0, cw := 1 } : State).MAXW := by decide

/-- P1's step 5, at the threshold. -/
theorem witness_KnownEmitsAndExtends :
    p1Step5.status = .decoding ∧ 12 + 3 ≤ p1Step5.BL ∧ 3 ≠ p1Step5.N ∧ 3 ≠ p1Step5.N + 1 ∧
      p1Step5.T[3]? = some (.color [3]) ∧ p1Step5.first = false ∧ p1Step5.prev = some 2 ∧
      p1Step5.T[2]? = some (.color [2]) ∧ p1Step5.cnt + 1 = 2 ^ (3 - 1) ∧ p1Step5.cw ≠ p1Step5.MAXW := by decide

theorem witness_KwkwkEmitsAndAppendsSameSequence :
    p2Step3.status = .decoding ∧ 6 + 3 ≤ p2Step3.BL ∧ p2Step3.N + 2 ≤ p2Step3.T.length ∧ p2Step3.first = false ∧
      p2Step3.prev = some 1 ∧ p2Step3.T[1]? = some (.color [1]) ∧ ¬ p2Step3.cnt + 1 = 2 ^ (3 - 1) := by decide

theorem witness_CorruptCodesRaise :
    (p1Step6 [0x44, 0xB4, 0x05]).status = .decoding ∧ 15 + 4 ≤ (p1Step6 [0x44, 0xB4, 0x05]).BL ∧
      (p1Step6 [0x44, 0xB4, 0x05]).T.length < 10 ∧ (decoderStart [0x06]).N + 2 ≤ (decoderStart [0x06]).T.length ∧
      (decoderStart [0x06]).first = true ∧ 0 + 3 ≤ (decoderStart [0x06]).BL := by decide

theorem witness_TailRaisesCodeWidthOverflow :
    overflowing.status = .decoding ∧ 43 + 4 ≤ overflowing.BL ∧ overflowing.cnt + 1 = 2 ^ (4 - 1) ∧
      overflowing.cw = overflowing.MAXW ∧ overflowing.first = false ∧ overflowing.prev = some 0 ∧
      overflowing.T[0]? = some (.color [0]) ∧ 0 ≠ overflowing.N ∧ 0 ≠ overflowing.N + 1 ∧
      overflowing.N + 2 ≤ overflowing.T.length := by decide

/-- No bit left, and one bit too few. -/
theorem witness_FetchBeyondStreamRaises :
    (decoderStart []).status = .decoding ∧ (decoderStart []).BL < 0 + 3 ∧
      ({ p1Step6 [0, 0, 0] with bp := 21 } : State).BL < 21 + 4 := by decide

theorem witness_StalePrevIsNeverRead :
    p1Step2.first = true ∧ ∃ t, exec (.known 0) p1Step2 = .next t ∧ decide (t.status = .decoding) = true :=
  ⟨rfl, exists_of_isNext (by decide)⟩

theorem witness_ClearForgetsStartState :
    ∃ t, exec .clear (decoderStart [0x04]) = .next t ∧ decide (t.status = .decoding) = true :=
  exists_of_isNext (by decide)

theorem witness_WidthNeverDecreasesButByClear :
    Instr.known 3 ≠ .clear ∧ p1Step5.status = .decoding ∧ ∃ t, exec (.known 3) p1Step5 = .next t ∧ decide (t.cw = 4) = true :=
  ⟨by decide, rfl, exists_of_isNext (by decide)⟩

theorem witness_WidthFollowsCountedCodes :
    (p1Step6 [0, 0, 0]).DecoderInv ∧ (p1Step6 [0, 0, 0]).status = .decoding ∧
      (∃ t, exec (.known 0) (p1Step6 [0, 0, 0]) = .next t ∧ decide (t.status = .decoding) = true) ∧
      (∃ t, exec (.kwkwk 9) (p1Step6 [0, 0, 0]) = .next t ∧ decide (t.status = .decoding) = true) ∧
      ∃ t, exec .clear (p1Step6 [0, 0, 0]) = .next t ∧ decide (t.status = .decoding) = true :=
  ⟨p1Step6_inv _ rfl, rfl, exists_of_isNext (by decide), exists_of_isNext (by decide), exists_of_isNext (by decide)⟩

theorem witness_TableWithinCapacity : (p1Step6 [0, 0, 0]).DecoderInv := p1Step6_inv _ rfl

/-- P1 with `G = 12`: the separator is the first byte that the scan looks at. -/
theorem witness_HeaderBytesFillRegisters :
    (13 + ({ p1 with host := { p1.host with G := 12 } } : State).host.G ≤ 25 ∧ 25 < p1.L ∧ p1.BUF.read 25 = 0x2C ∧
      ∀ k < 25, 25 ≤ k → p1.BUF.read k ≠ 0x2C) ∧
      (∀ k < (buffer (fileP1.take 25)).L, 13 + 12 ≤ k → (buffer (fileP1.take 25)).BUF.read k ≠ 0x2C) ∧
      p1.status.running = false ∧ (decoderStart []).status.running = true := by decide

/-- The byte is the first beyond the buffer. -/
theorem witness_HeaderRequestBeyondBufferFails :
    State.reset.status.running = false ∧ State.reset.host.job = .none ∧
      ({ State.reset with host := { State.reset.host with queue := [.header .pk9] } } : State).host.queue =
        .header .pk9 :: [] ∧
      (buffer (fileP1.take 10)).L ≤ 10 ∧ (buffer (fileP1.take 34)).L ≤ 25 + 9 ∧ (buffer (fileP1.take 35)).L ≤ 25 + 10 ∧
      ∀ k < (buffer (fileP1.take 25)).L, 13 + 12 ≤ k → (buffer (fileP1.take 25)).BUF.read k ≠ 0x2C :=
  ⟨by decide, by decide, rfl, by decide⟩

/-- A buffer of exactly 13 bytes, one of 12 bytes, and V-H7. -/
theorem witness_ParseHeaderReadsDescriptor :
    (13 ≤ fields.L ∧ ∀ k < 6, (fields.BUF.read k).toNat ≤ 0x7F) ∧ (buffer (fileP1.take 12)).L < 13 ∧
      ∃ k < 6, 0x7F < ((buffer (0xC7 :: fileP1.drop 1)).BUF.read k).toNat := by decide

/-- The color table ends exactly at the end of the buffer, or one byte beyond it. -/
theorem witness_ExtractGctTakesTriples :
    13 + 3 * 2 ^ ((1 : BitVec 3).toNat + 1) ≤ (buffer (fileP1.take 25)).L ∧
      (buffer (fileP1.take 24)).L < 13 + 3 * 2 ^ ((1 : BitVec 3).toNat + 1) := by decide

/-- The color table ends one byte beyond the buffer, for EXTRACT_GCT alone and inside DECODE_FILE. -/
theorem witness_InvalidColorTableSizeOnlyWhenTooShort :
    isNext (exec (.extractGct 1) (buffer (fileP1.take 24))) (fun t => t.host.reply = .error .invalidColorTableSize) ∧
      isNext (exec .decodeFile (buffer (fileP1.take 24))) (fun t => t.host.reply = .error .invalidColorTableSize) ∧
      (buffer (fileP1.take 24)).host.reply ≠ .error .invalidColorTableSize := by decide

/-- P1's descriptor, ending exactly at the end of the buffer or one byte beyond it, and V-H4. -/
theorem witness_LocateImageFindsFirstSeparator :
    (13 + 12 ≤ 25 ∧ (buffer (fileP1.take 35)).BUF.read 25 = 0x2C ∧
      (∀ k < 25, 13 + 12 ≤ k → (buffer (fileP1.take 35)).BUF.read k ≠ 0x2C) ∧ 25 + 9 < (buffer (fileP1.take 35)).L) ∧
      ((buffer (fileP1.take 34)).BUF.read 25 = 0x2C ∧ 25 < (buffer (fileP1.take 34)).L ∧
        (buffer (fileP1.take 34)).L ≤ 25 + 9) ∧
      ∀ k < (buffer (fileP1.take 25)).L, 13 + 12 ≤ k → (buffer (fileP1.take 25)).BUF.read k ≠ 0x2C := by decide

theorem witness_BuildGridReshapesRows :
    ((2 : Nat) ≠ 0 ∧ [0, 1, 2, 3].length % 2 = 0) ∧ ((0 : Nat) = 0 ∨ [0].length % 0 ≠ 0) ∧
      ((3 : Nat) = 0 ∨ [0, 1, 2, 3].length % 3 ≠ 0) := by decide

/-- One file for each stage that can fail, and P1, for which all succeed. -/
theorem witness_DecodeFileRunsStagesInOrder :
    (decoderStart []).status.running = true ∧ p1.status.running = false ∧
      isNext (exec .parseHeader (buffer [])) (fun t => t.host.reply = .error (.block .malformedHeader)) ∧
      isNext (exec .parseHeader p1) (fun t1 => t1.host.reply = .stageDone &&
        isNext (exec (.extractGct t1.host.screen.e) t1) (fun t2 => t2.host.reply = .stageDone &&
          isNext (exec (.locateImage t2.host.G) t2) (fun t3 => t3.host.reply = .stageDone))) ∧
      isNext (exec .parseHeader (buffer (fileP1.take 13))) (fun t1 => t1.host.reply = .stageDone &&
        isNext (exec (.extractGct t1.host.screen.e) t1) (fun t => t.host.reply = .error .invalidColorTableSize)) ∧
      isNext (exec .parseHeader (buffer (fileP1.take 25))) (fun t1 => t1.host.reply = .stageDone &&
        isNext (exec (.extractGct t1.host.screen.e) t1) (fun t2 => t2.host.reply = .stageDone &&
          isNext (exec (.locateImage t2.host.G) t2) (fun t => t.host.reply = .error .imageDescriptorNotFound))) := by decide

/-- P1 cut after its `mcs` byte. -/
theorem witness_DecodeFileStartsRunOnWellFormedFile :
    (buffer (fileP1.take 36)).status.running = false ∧
      (∀ k < 6, ((buffer (fileP1.take 36)).BUF.read k).toNat ≤ 0x7F) ∧
      13 + 3 * 2 ^ (((buffer (fileP1.take 36)).BUF.read 10).toNat % 8 + 1) ≤ 25 ∧
      (buffer (fileP1.take 36)).BUF.read 25 = 0x2C ∧
      (∀ k < 25, 13 + 3 * 2 ^ (((buffer (fileP1.take 36)).BUF.read 10).toNat % 8 + 1) ≤ k →
        (buffer (fileP1.take 36)).BUF.read k ≠ 0x2C) ∧ 25 + 10 < (buffer (fileP1.take 36)).L := by decide

theorem witness_DecodeFileEndsWithItsRun :
    ({ p1 with status := .done, out := [0, 1, 2, 3], host := { p1.host with job := .awaitRun } } : State).host.job = .awaitRun ∧
      ({ p1 with status := .fault .truncatedStream, host := { p1.host with job := .awaitRun } } : State).host.job = .awaitRun :=
  ⟨rfl, rfl⟩

/-- P1 after its run: the host waits, the block is DONE. -/
theorem p1Done_inv : p1Done.Inv where
  memory := Memory.ofBytes_wf 0 fileP1
  bounded := p1_inv.bounded
  wholeBytes := fun h => by cases h
  runColors := fun h => by cases h
  decoder := fun h => by cases h
  result := fun _ => by show ∀ c ∈ [0, 1, 2, 3], c < 4; decide
  tableSize := by decide
  waiting := fun _ => by decide

theorem witness_ResolvedColorsAreInRange :
    p1Done.Inv ∧ p1Done.host.job = .awaitRun ∧ p1Done.status = .done ∧
      ∃ t, step p1Done = .next t ∧ decide (t.host.reply = .stageDone) = true :=
  ⟨p1Done_inv, rfl, rfl, exists_of_isNext (by decide)⟩

theorem witness_LoadSuppliesWholeFile :
    State.reset.status.running = false ∧ State.reset.host.job = .none ∧
      ({ State.reset with host := { State.reset.host with queue := [.load (some fileP1)] } } : State).host.queue =
        .load (some fileP1) :: [] ∧
      ({ State.reset with host := { State.reset.host with queue := [.load none] } } : State).host.queue = .load none :: [] :=
  ⟨rfl, rfl, rfl, rfl⟩

theorem witness_CodeStepsFrame :
    (∃ t, exec .clear (p1Step6 [0, 0, 0]) = .next t) ∧ (∃ t, exec .eoi (p1Step6 [0, 0, 0]) = .next t) ∧
      (∃ t, exec (.known 0) (p1Step6 [0, 0, 0]) = .next t) ∧ (∃ t, exec (.kwkwk 9) (p1Step6 [0, 0, 0]) = .next t) ∧
      ∃ t, exec (.corrupt 10) (p1Step6 [0, 0, 0]) = .next t := by
  refine ⟨?_, ?_, ?_, ?_, ?_⟩ <;>
    exact (exists_of_isNext (p := fun _ => true) (by decide)).imp fun _ h => h.1

theorem witness_RecordStepsFrame :
    (∃ t, exec (.data [0xAA]) (assembler [0x01, 0xAA] false) = .next t) ∧
      (∃ t, exec .term (assembler [0x00] true) = .next t) ∧
      (assembler [0x00] false).inRun = false ∧ ∃ t, exec .term (assembler [0x00] false) = .next t := by
  refine ⟨?_, ?_, rfl, ?_⟩ <;> exact (exists_of_isNext (p := fun _ => true) (by decide)).imp fun _ h => h.1

theorem witness_StartCommandsFrame :
    (∃ t, exec (.assemble 36) p1 = .next t) ∧ (∃ t, exec (.decode [] 2 4) p1 = .next t) ∧
      ∃ t, exec (.run 25 4) p1 = .next t := by
  refine ⟨?_, ?_, ?_⟩ <;> exact (exists_of_isNext (p := fun _ => true) (by decide)).imp fun _ h => h.1

theorem witness_HostStagesFrame :
    (∃ t, exec .parseHeader p1 = .next t) ∧ (∃ t, exec (.extractGct 1) p1 = .next t) ∧
      (∃ t, exec (.locateImage 12) p1 = .next t) ∧ (∃ t, exec (.buildGrid [0] 1) p1 = .next t) ∧
      (∃ t, exec (.pk10 1 1 0 1) p1 = .next t) ∧ (∃ t, exec (.pk9 0 0 0 0 0) p1 = .next t) ∧
      (∃ t, exec .sep p1 = .next t) ∧ ∃ t, exec (.mcs 2) p1 = .next t := by
  refine ⟨?_, ?_, ?_, ?_, ?_, ?_, ?_, ?_⟩ <;>
    exact (exists_of_isNext (p := fun _ => true) (by decide)).imp fun _ h => h.1

/-- A load that changes the buffer. -/
theorem witness_InputBufferIsImmutable :
    (∃ t, exec (.run 25 4) p1 = .next t ∧ decide (t.BUF = p1.BUF) = true) ∧
      ∃ t, step { State.reset with host := { State.reset.host with queue := [.load (some [0x47])] } } = .next t ∧
        decide (t.BUF = [(0, 0x47)] ∧ t.L = 1) = true :=
  ⟨exists_of_isNext (by decide), exists_of_isNext (by decide)⟩

/-- DONE by EOI, DECODING by TERM, and a start command that leaves DONE. -/
theorem witness_PhasesChangeOnlyInOrder :
    (∃ t, exec .eoi (p1Step6 [0x44, 0xB4, 0x02]) = .next t ∧ decide (t.status = .done) = true) ∧
      (∃ t, exec .term (assembler [0x00] true) = .next t ∧ decide (t.status = .decoding) = true) ∧
      ∃ t, exec (.run 25 4) { p1 with status := .done } = .next t ∧ decide (t.status ≠ .done) = true :=
  ⟨exists_of_isNext (by decide), exists_of_isNext (by decide), exists_of_isNext (by decide)⟩

theorem witness_FaultDiscardsTheStep :
    overflowing.status.running = true ∧
      ∃ t, step overflowing = .next t ∧ decide (t.status = .fault .codeWidthOverflow) = true :=
  ⟨rfl, exists_of_isNext (by decide)⟩

theorem witness_RunningStepAlwaysHasNext :
    ((p1Step6 [0, 0, 0]).Inv ∧ (p1Step6 [0, 0, 0]).status.running = true) ∧
      (assembler [0x00] true).Inv ∧ (assembler [0x00] true).status.running = true :=
  ⟨⟨inv_of_decoding (p1Step6_inv _ rfl) rfl rfl rfl, rfl⟩, assembler_inv _ _, rfl⟩

theorem witness_EveryStepKeepsInvariant :
    (p1Step6 [0, 0, 0]).Inv ∧ ∃ t, step (p1Step6 [0, 0, 0]) = .next t ∧ decide (t.T.length = 10) = true :=
  ⟨inv_of_decoding (p1Step6_inv _ rfl) rfl rfl rfl, exists_of_isNext (by decide)⟩

theorem witness_EveryRunEnds : (assembler fileP1 true).Inv ∧ (assembler fileP1 true).status.running = true :=
  ⟨assembler_inv _ _, rfl⟩

theorem witness_DecodeFileEndsWithGridOrError :
    p1.Inv ∧ p1.status.running = false ∧ ∃ t, exec .decodeFile p1 = .next t ∧ decide (t.status = .assembling) = true :=
  ⟨p1_inv, rfl, exists_of_isNext (by decide)⟩

/-- Two machines that ended in IDLE with different tables, widths, cursors and latched inputs. -/
theorem witness_NothingSurvivesARun :
    p1.status.running = false ∧
      ({ p1 with N := 4, mcs := 2, cw := 4, cnt := 3, prev := some 7, T := initialTable 4, bp := 9, ap := 36, S := 25 } : State).status.running = false ∧
      SameToHost p1 { p1 with N := 4, mcs := 2, cw := 4, cnt := 3, prev := some 7, T := initialTable 4, bp := 9, ap := 36, S := 25 } :=
  ⟨rfl, rfl, ⟨rfl, rfl, rfl, rfl, rfl⟩⟩

theorem witness_BufferFormIsCanonical :
    Memory.wf [(3, 7), (5, 1)] ∧ Memory.wf (Memory.ofBytes 3 [7, 0, 1]) ∧ Memory.ofBytes 3 [7, 0, 1] = [(3, 7), (5, 1)] := by decide

end Sys2Proof.Tests
end

section
/-! PROOF. The input of a run (`BUF`, `L`, `MAXW`) under every instruction and every step (R11, R34, R198, R59): settles O51. -/

namespace Sys2Proof.Machine

/-- The input buffer, its length and the largest code width of two states are the same (R34, R38). -/
structure State.SameInput (s t : State) : Prop where
  BUF : t.BUF = s.BUF
  L : t.L = s.L
  MAXW : t.MAXW = s.MAXW

theorem State.SameInput.trans {s t u : State} (h : s.SameInput t) (h' : t.SameInput u) : s.SameInput u :=
  ⟨h'.BUF.trans h.BUF, h'.L.trans h.L, h'.MAXW.trans h.MAXW⟩

/-! ## The operations a step is made of -/

theorem State.sameInput_raise (s : State) (r : Reason) : s.SameInput (s.raise r) := ⟨rfl, rfl, rfl⟩

theorem State.sameInput_hostFail (s : State) (e : HostError) : s.SameInput (s.hostFail e) := ⟨rfl, rfl, rfl⟩

theorem State.sameInput_popQueue (s : State) : s.SameInput s.popQueue := ⟨rfl, rfl, rfl⟩

theorem State.sameInput_endJob (s : State) : s.SameInput s.endJob := ⟨rfl, rfl, rfl⟩

/-- RUN issued by DECODE_FILE starts or faults, on the same input (R158). -/
theorem State.sameInput_issueRun (s : State) : s.SameInput s.issueRun := by
  rcases issueRun_cases s with ⟨_, e⟩ | ⟨_, e⟩ <;> rw [e]
  · exact ⟨rfl, rfl, rfl⟩
  · exact ⟨rfl, rfl, rfl⟩

/-- The stages of DECODE_FILE write the host's registers alone (R41, R161). -/
theorem State.sameInput_of_fileStages {s t : State} (h : s.fileStages = .ok t) : s.SameInput t := by
  rcases fileStages_cases s with ⟨_, _, _, _, e⟩ | ⟨_, e, _⟩ <;> rw [e] at h <;> cases h
  exact ⟨rfl, rfl, rfl⟩

/-! ## Every instruction, by what it does when it answers a next state -/

/-- No instruction writes the input (R11, R59). -/
theorem exec_sameInput {i : Instr} {s t : State} (h : exec i s = .next t) : s.SameInput t := by
  cases i with
  | clear =>
    obtain ⟨_, ⟨_, _, rfl⟩ | ⟨_, rfl⟩⟩ := clear_next h <;> exact ⟨rfl, rfl, rfl⟩
  | eoi =>
    obtain ⟨_, ⟨_, _, rfl⟩ | ⟨_, rfl⟩⟩ := eoi_next h <;> exact ⟨rfl, rfl, rfl⟩
  | known code =>
    obtain ⟨_, ⟨_, _, rfl⟩ | ⟨_, _, _, _, _, _, _, _, _, _, rfl⟩⟩ := known_next h <;> exact ⟨rfl, rfl, rfl⟩
  | kwkwk code =>
    obtain ⟨_, ⟨_, _, rfl⟩ | ⟨_, _, _, _, _, _, _, _, _, _, _, rfl⟩⟩ := kwkwk_next h <;> exact ⟨rfl, rfl, rfl⟩
  | corrupt code =>
    obtain ⟨_, _, _, rfl⟩ := corrupt_next h
    exact s.sameInput_raise _
  | data payload =>
    obtain ⟨_, _, ⟨_, rfl⟩ | ⟨_, rfl⟩⟩ := data_next h <;> exact ⟨rfl, rfl, rfl⟩
  | term =>
    obtain ⟨_, ⟨_, rfl⟩ | ⟨_, ⟨_, _, rfl⟩ | ⟨_, rfl⟩⟩⟩ := term_next h <;> exact ⟨rfl, rfl, rfl⟩
  | pk10 g r st e => cases h; exact ⟨rfl, rfl, rfl⟩
  | pk9 lct il st rs e => cases h; exact ⟨rfl, rfl, rfl⟩
  | sep =>
    obtain ⟨_, rfl⟩ | rfl := sep_next h <;> exact ⟨rfl, rfl, rfl⟩
  | mcs m =>
    obtain ⟨_, rfl⟩ := mcs_next h
    exact ⟨rfl, rfl, rfl⟩
  | rd8 a =>
    obtain ⟨_, rfl⟩ | ⟨_, rfl⟩ := rd8_next h <;> exact ⟨rfl, rfl, rfl⟩
  | rd16le a =>
    obtain ⟨_, rfl⟩ | ⟨_, rfl⟩ := rd16le_next h <;> exact ⟨rfl, rfl, rfl⟩
  | rdbits a st n =>
    obtain ⟨_, rfl⟩ | ⟨_, rfl⟩ := rdbits_next h <;> exact ⟨rfl, rfl, rfl⟩
  | assemble p =>
    obtain ⟨_, rfl⟩ := assemble_next h
    exact ⟨rfl, rfl, rfl⟩
  | decode bits m n =>
    obtain ⟨_, _, ⟨_, rfl⟩ | ⟨_, rfl⟩⟩ := decode_next h <;> exact ⟨rfl, rfl, rfl⟩
  | run sp n =>
    obtain ⟨_, _, ⟨_, rfl⟩ | ⟨_, rfl⟩⟩ := run_next h <;> exact ⟨rfl, rfl, rfl⟩
  | parseHeader =>
    obtain ⟨_, _, _, rfl⟩ | ⟨_, rfl⟩ := parseHeader_next h <;> exact ⟨rfl, rfl, rfl⟩
  | extractGct e =>
    obtain ⟨_, rfl⟩ | ⟨_, rfl⟩ := extractGct_next h <;> exact ⟨rfl, rfl, rfl⟩
  | locateImage g =>
    obtain ⟨_, _, _, rfl⟩ | ⟨_, _, _, rfl⟩ := locateImage_next h <;> exact ⟨rfl, rfl, rfl⟩
  | buildGrid colors w =>
    obtain ⟨_, _, rfl⟩ | ⟨_, rfl⟩ := buildGrid_next h <;> exact ⟨rfl, rfl, rfl⟩
  | decodeFile =>
    obtain ⟨_, ⟨u, hu, rfl⟩ | ⟨_, _, _, rfl⟩⟩ := decodeFile_next h
    · have hrun := (State.sameInput_of_fileStages hu).trans u.sameInput_issueRun
      exact ⟨hrun.BUF, hrun.L, hrun.MAXW⟩
    · exact s.sameInput_hostFail _

/-! ## Every step -/

/-- A step keeps the input, or it is the host's load of a file between runs (R38, R198). -/
theorem step_sameInput_or_load {s t : State} (h : step s = .next t) :
    s.SameInput t ∨ (s.status.running = false ∧ ∃ file q, s.host.queue = .load (some file) :: q ∧
      t = (s.popQueue.loadBuffer file).replyWith .stageDone) := by
  obtain ⟨_, ⟨_, hi⟩ | rfl⟩ |
    ⟨hr, ⟨_, _, hgrid⟩ | ⟨_, _, _, rfl⟩ | ⟨_, ⟨_, rfl⟩ | ⟨_, hi⟩ | ⟨file, q, hq, rfl⟩⟩⟩ := step_next h
  · exact .inl (exec_sameInput hi)
  · exact .inl (s.sameInput_raise _)
  · exact .inl (s.sameInput_endJob.trans (exec_sameInput hgrid))
  · exact .inl (s.sameInput_hostFail _)
  · exact .inl (s.sameInput_popQueue.trans (s.popQueue.sameInput_hostFail _))
  · exact .inl (s.sameInput_popQueue.trans (exec_sameInput hi))
  · exact .inr ⟨hr, file, q, hq, rfl⟩

/-- Settles O51: no instruction writes the input, and the one step that does is a load between runs, which leaves `MAXW`. -/
theorem inputBufferIsImmutable : Obligations.InputBufferIsImmutable := by
  refine ⟨fun i s t h => ?_, fun s t h => ?_⟩
  · obtain ⟨hbuf, hlen, hmaxw⟩ := exec_sameInput h
    exact ⟨hbuf, hlen, hmaxw⟩
  · rcases step_sameInput_or_load h with ⟨hbuf, hlen, hmaxw⟩ | ⟨hr, file, q, hq, rfl⟩
    · exact ⟨hmaxw, .inl ⟨hbuf, hlen⟩⟩
    · exact ⟨rfl, .inr ⟨hr, file, q, hq⟩⟩

end Sys2Proof.Machine
end

section
/-! PROOF. The three kinds of instruction (steps of the block, start commands, moves of the host), what each does to the phase and to the width, and which of them a run takes: settles O52 and O32. -/

namespace Sys2Proof

/-- The A-steps and D-steps of a run (R112, R114, R120): the records and the code classes. -/
def Instr.isBlockStep : Instr → Bool
  | .clear | .eoi | .known _ | .kwkwk _ | .corrupt _ | .data _ | .term => true
  | .pk10 _ _ _ _ | .pk9 _ _ _ _ _ | .sep | .mcs _ | .rd8 _ | .rd16le _ | .rdbits _ _ _ | .assemble _
  | .decode _ _ _ | .run _ _ | .parseHeader | .extractGct _ | .locateImage _ | .buildGrid _ _ | .decodeFile => false

theorem codeInstr_isBlockStep (n tlen code : Nat) : (codeInstr n tlen code).isBlockStep = true := by
  unfold codeInstr
  cases classify n tlen code <;> rfl

end Sys2Proof

namespace Sys2Proof.Machine

/-! ## The moves of the host -/

/-- What an instruction that is neither a step of the block nor a start command does: it writes the host's registers,
and outside a run `mcs` (R100, R150, R33). It may end the host's wait but begins none, and the color table stays or is
read whole. -/
structure State.HostMove (s t : State) : Prop where
  block : t = { s with host := t.host, mcs := t.mcs }
  mcs : s.status.running = true → t.mcs = s.mcs
  job : t.host.job = .none ∨ t.host.job = s.host.job
  table : t.host.gct = s.host.gct ∧ t.host.N = s.host.N ∨ t.host.gct.length = t.host.N

theorem State.hostMove_replyWith (s : State) (r : Reply) : s.HostMove (s.replyWith r) :=
  ⟨rfl, fun _ => rfl, .inr rfl, .inl ⟨rfl, rfl⟩⟩

theorem State.hostMove_hostFail (s : State) (e : HostError) : s.HostMove (s.hostFail e) :=
  ⟨rfl, fun _ => rfl, .inl rfl, .inl ⟨rfl, rfl⟩⟩

/-- A Field Reader command replies a value, or fails (R100). -/
theorem State.hostMove_of_read {s t : State} (h : (∃ v, t = s.replyWith (.value v)) ∨ ∃ e, t = s.hostFail e) :
    s.HostMove t := by
  obtain ⟨v, rfl⟩ | ⟨e, rfl⟩ := h
  · exact s.hostMove_replyWith _
  · exact s.hostMove_hostFail e

theorem exec_hostMove {i : Instr} {s t : State} (hb : i.isBlockStep = false) (hs : i.isStart = false)
    (h : exec i s = .next t) : s.HostMove t := by
  cases i with
  | clear | eoi | known | kwkwk | corrupt | data | term => cases hb
  | assemble | decode | run | decodeFile => cases hs
  | pk10 g r st e => cases h; exact ⟨rfl, fun _ => rfl, .inr rfl, .inl ⟨rfl, rfl⟩⟩
  | pk9 lct il st rs e => cases h; exact ⟨rfl, fun _ => rfl, .inr rfl, .inl ⟨rfl, rfl⟩⟩
  | sep =>
    obtain ⟨a, rfl⟩ | rfl := sep_next h
    · exact ⟨rfl, fun _ => rfl, .inr rfl, .inl ⟨rfl, rfl⟩⟩
    · exact s.hostMove_hostFail _
  | mcs m =>
    obtain ⟨hr, rfl⟩ := mcs_next h
    exact ⟨rfl, fun hr' => by simp [hr] at hr', .inr rfl, .inl ⟨rfl, rfl⟩⟩
  | rd8 a => exact State.hostMove_of_read (rd8_next h)
  | rd16le a => exact State.hostMove_of_read (rd16le_next h)
  | rdbits a st n => exact State.hostMove_of_read (rdbits_next h)
  | parseHeader =>
    obtain ⟨_, _, _, rfl⟩ | ⟨_, rfl⟩ := parseHeader_next h
    · exact ⟨rfl, fun _ => rfl, .inr rfl, .inl ⟨rfl, rfl⟩⟩
    · exact s.hostMove_hostFail _
  | extractGct e =>
    obtain ⟨_, rfl⟩ | ⟨_, rfl⟩ := extractGct_next h
    · exact ⟨rfl, fun _ => rfl, .inr rfl, .inr (s.triples_length _)⟩
    · exact s.hostMove_hostFail _
  | locateImage g =>
    obtain ⟨_, _, _, rfl⟩ | ⟨e, _, _, rfl⟩ := locateImage_next h
    · exact ⟨rfl, fun _ => rfl, .inr rfl, .inl ⟨rfl, rfl⟩⟩
    · exact s.hostMove_hostFail e
  | buildGrid colors w =>
    obtain ⟨_, _, rfl⟩ | ⟨_, rfl⟩ := buildGrid_next h
    · exact ⟨rfl, fun _ => rfl, .inr rfl, .inl ⟨rfl, rfl⟩⟩
    · exact s.hostMove_hostFail _

theorem State.HostMove.status {s t : State} (h : s.HostMove t) : t.status = s.status := by rw [h.block]

theorem State.HostMove.cw {s t : State} (h : s.HostMove t) : t.cw = s.cw := by rw [h.block]

/-! ## The start commands -/

/-- RUN issued by DECODE_FILE ends in the phase of its start or of its fault (R158). -/
theorem State.issueRun_status (s : State) :
    s.issueRun.status = .assembling ∨ ∃ r, s.issueRun.status = .fault r := by
  rcases issueRun_cases s with ⟨_, e⟩ | ⟨_, e⟩ <;> rw [e]
  · exact .inr ⟨_, rfl⟩
  · exact .inl rfl

/-- A start command is a move outside a run (R198). -/
theorem not_running_of_start {i : Instr} {s t : State} (hi : i.isStart = true) (h : exec i s = .next t) :
    s.status.running = false := by
  cases i with
  | assemble p => exact (whenNotRunning_next h).1
  | decode bits m n => exact (whenNotRunning_next h).1
  | run sp n => exact (whenNotRunning_next h).1
  | decodeFile => exact (whenNotRunning_next h).1
  | _ => cases hi

/-! ## Phases (R21, R35) -/

/-- The phase an instruction leads to from the state it runs on: the edges of the status register (R35). -/
inductive PhaseMove (i : Instr) (s : State) : Status → Prop where
  | stay : PhaseMove i s s.status
  | raise (r : Reason) : s.status.running = true ∨ i.isStart = true → PhaseMove i s (.fault r)
  | start : i.isStart = true → PhaseMove i s .assembling
  | startDecode (b : List Bool) (m : Byte) (n : Nat) : i = .decode b m n → PhaseMove i s .decoding
  | finishRun : i = .term → s.status = .assembling → s.inRun = true → PhaseMove i s .decoding
  | finishBare : s.status = .assembling → PhaseMove i s .idle
  | finish : i = .eoi → s.status = .decoding → PhaseMove i s .done

theorem running_of_decoding {s : State} (h : s.status = .decoding) : s.status.running = true := by rw [h]; rfl

theorem running_of_assembling {s : State} (h : s.status = .assembling) : s.status.running = true := by rw [h]; rfl

theorem not_running_of_terminal {st : Status} (h : st.terminal = true) : st.running = false := by
  cases st with
  | done | fault r => rfl
  | idle | assembling | decoding => cases h

/-- Every instruction moves the status register along one of its edges. -/
theorem exec_phaseMove {i : Instr} {s t : State} (h : exec i s = .next t) : PhaseMove i s t.status := by
  cases i with
  | clear =>
    obtain ⟨hd, ⟨r, _, rfl⟩ | ⟨_, rfl⟩⟩ := clear_next h
    · exact .raise r (.inl (running_of_decoding hd))
    · exact .stay
  | eoi =>
    obtain ⟨hd, ⟨r, _, rfl⟩ | ⟨_, rfl⟩⟩ := eoi_next h
    · exact .raise r (.inl (running_of_decoding hd))
    · exact .finish rfl hd
  | known code =>
    obtain ⟨hd, ⟨r, _, rfl⟩ | ⟨_, _, _, _, _, _, _, _, _, _, rfl⟩⟩ := known_next h
    · exact .raise r (.inl (running_of_decoding hd))
    · exact .stay
  | kwkwk code =>
    obtain ⟨hd, ⟨r, _, rfl⟩ | ⟨_, _, _, _, _, _, _, _, _, _, _, rfl⟩⟩ := kwkwk_next h
    · exact .raise r (.inl (running_of_decoding hd))
    · exact .stay
  | corrupt code =>
    obtain ⟨hd, r, _, rfl⟩ := corrupt_next h
    exact .raise r (.inl (running_of_decoding hd))
  | data payload =>
    obtain ⟨ha, _, ⟨r, rfl⟩ | ⟨_, rfl⟩⟩ := data_next h
    · exact .raise r (.inl (running_of_assembling ha))
    · exact .stay
  | term =>
    obtain ⟨ha, ⟨r, rfl⟩ | ⟨_, ⟨hr, _, rfl⟩ | ⟨_, rfl⟩⟩⟩ := term_next h
    · exact .raise r (.inl (running_of_assembling ha))
    · exact .finishRun rfl ha hr
    · exact .finishBare ha
  | assemble p =>
    obtain ⟨_, rfl⟩ := assemble_next h
    exact .start rfl
  | decode bits m n =>
    obtain ⟨_, _, ⟨_, rfl⟩ | ⟨_, rfl⟩⟩ := decode_next h
    · exact .raise _ (.inr rfl)
    · exact .startDecode bits m n rfl
  | run sp n =>
    obtain ⟨_, _, ⟨_, rfl⟩ | ⟨_, rfl⟩⟩ := run_next h
    · exact .raise _ (.inr rfl)
    · exact .start rfl
  | decodeFile =>
    obtain ⟨_, ⟨u, _, rfl⟩ | ⟨_, _, _, rfl⟩⟩ := decodeFile_next h
    · show PhaseMove _ s u.issueRun.status
      obtain e | ⟨r, e⟩ := u.issueRun_status <;> rw [e]
      · exact .start rfl
      · exact .raise r (.inr rfl)
    · exact .stay
  | pk10 | pk9 | sep | mcs | rd8 | rd16le | rdbits | parseHeader | extractGct | locateImage | buildGrid =>
    rw [(exec_hostMove rfl rfl h).status]
    exact .stay

/-- Settles O52: read off the edges of the status register. -/
theorem phasesChangeOnlyInOrder : Obligations.PhasesChangeOnlyInOrder := by
  intro i s t h
  have hm := exec_phaseMove h
  generalize t.status = st at hm
  refine ⟨fun hdone => ?_, fun hdec => ?_, fun hterm hne => ?_⟩
  · cases hm with
    | stay => exact .inl hdone
    | finish hi hd => exact .inr ⟨hi, hd⟩
    | raise | start | startDecode | finishRun | finishBare => cases hdone
  · cases hm with
    | stay => exact .inl hdec
    | finishRun hi ha hr => exact .inr (.inl ⟨hi, ha, hr⟩)
    | startDecode b m n hi => exact .inr (.inr ⟨b, m, n, hi⟩)
    | raise | start | finish | finishBare => cases hdec
  · have hstill := not_running_of_terminal hterm
    cases hm with
    | stay => exact absurd rfl hne
    | raise r hr => exact hr.resolve_left (by simp [hstill])
    | start hi => exact hi
    | startDecode b m n hi => rw [hi]; rfl
    | finishRun _ ha _ | finishBare ha => simp [ha, Status.running] at hstill
    | finish _ hd => simp [hd, Status.running] at hstill

/-! ## The code width (R22) -/

/-- What a counted code makes of the counter and the width (R131): the case split of `known_next` and `kwkwk_next`. -/
def State.CountedTo (s : State) (cnt' cw' : Nat) : Prop :=
  (s.cnt + 1 ≠ 2 ^ (s.cw - 1) ∧ cnt' = s.cnt + 1 ∧ cw' = s.cw) ∨
    (s.cnt + 1 = 2 ^ (s.cw - 1) ∧ s.cw ≠ s.MAXW ∧ cnt' = 0 ∧ cw' = s.cw + 1)

theorem State.CountedTo.width_le {s : State} {cnt' cw' : Nat} (h : s.CountedTo cnt' cw') : s.cw ≤ cw' := by
  obtain ⟨_, _, rfl⟩ | ⟨_, _, _, rfl⟩ := h <;> omega

/-- Settles O32: KNOWN and KWKWK count; EOI, CORRUPT and the host's moves leave the width; no other instruction is
enabled while DECODING. -/
theorem widthNeverDecreasesButByClear : Obligations.WidthNeverDecreasesButByClear := by
  intro i s t hi hd h
  cases i with
  | clear => exact absurd rfl hi
  | eoi => obtain ⟨_, ⟨_, _, rfl⟩ | ⟨_, rfl⟩⟩ := eoi_next h <;> exact le_rfl
  | known code =>
    obtain ⟨_, ⟨_, _, rfl⟩ | ⟨_, _, _, _, _, _, _, _, _, hc, rfl⟩⟩ := known_next h
    · exact le_rfl
    · exact State.CountedTo.width_le hc
  | kwkwk code =>
    obtain ⟨_, ⟨_, _, rfl⟩ | ⟨_, _, _, _, _, _, _, _, _, _, hc, rfl⟩⟩ := kwkwk_next h
    · exact le_rfl
    · exact State.CountedTo.width_le hc
  | corrupt code => obtain ⟨_, _, _, rfl⟩ := corrupt_next h; exact le_rfl
  | data payload => rw [(data_next h).1] at hd; cases hd
  | term => rw [(term_next h).1] at hd; cases hd
  | assemble | decode | run | decodeFile =>
    have hr := not_running_of_start rfl h
    simp [hd, Status.running] at hr
  | pk10 | pk9 | sep | mcs | rd8 | rd16le | rdbits | parseHeader | extractGct | locateImage | buildGrid =>
    exact (exec_hostMove rfl rfl h).cw.ge

end Sys2Proof.Machine
end

section
/-! PROOF. The invariant of the machine (R26, R37, R39, R40, R135, R163): at reset, under every instruction of a run and every move between runs: settles O56, O34 and O55. -/

namespace Sys2Proof.Machine

/-- Settles O56: nothing runs, no buffer is there and the host waits for nothing. -/
theorem resetIsIdleAndHasInvariant : Obligations.ResetIsIdleAndHasInvariant :=
  ⟨{ memory := reset_memory_wf
     bounded := fun c hc => by cases hc
     wholeBytes := fun h => by cases h
     runColors := fun h => by cases h
     decoder := fun h => by cases h
     result := fun h => by cases h
     tableSize := rfl
     waiting := fun h => by cases h }, rfl, rfl, rfl, rfl⟩

/-! ## The code table (R37) -/

theorem colorsBelow_append {n : Nat} {xs ys : List Nat} (hx : colorsBelow n xs) (hy : colorsBelow n ys) :
    colorsBelow n (xs ++ ys) := fun c hc => (List.mem_append.1 hc).elim (hx c) (hy c)

/-- A color sequence with the first color of another behind it: the shape of every new entry (R127, R129). -/
theorem colorsBelow_extend {n x y : Nat} {xs ys : List Nat} (hy : colorsBelow n (y :: ys))
    (hx : colorsBelow n (x :: xs)) : colorsBelow n (y :: ys ++ [x]) :=
  colorsBelow_append hy fun c hc => hx c (by simp_all)

/-- A fresh table has no entry behind the initial ones. -/
theorem State.tableOk_of_initial {s : State} (h : s.T = initialTable s.N) : s.tableOk :=
  ⟨[], by simp [h], by simp⟩

/-- The colors of a table entry are below `N`, whether it is an initial singleton or an appended sequence. -/
theorem State.tableOk.colorsBelow {s : State} (h : s.tableOk) {c : Nat} {xs : List Nat}
    (hc : s.T[c]? = some (.color xs)) : colorsBelow s.N xs := by
  obtain ⟨ext, hT, hext⟩ := h
  have hmem : Entry.color xs ∈ initialTable s.N ++ ext.map Entry.color := hT ▸ List.mem_of_getElem? hc
  rcases List.mem_append.1 hmem with hinit | happ
  · obtain ⟨i, hi, rfl⟩ : ∃ i < s.N, [i] = xs := by simpa [initialTable] using hinit
    simpa [Machine.colorsBelow] using hi
  · have hxs : xs ∈ ext := by simpa using happ
    exact (hext xs hxs).2

/-- An appended sequence of two or more colors keeps the table's form (R128). -/
theorem State.tableOk.append {s t : State} (h : s.tableOk) {x : List Nat} (hlen : 2 ≤ x.length)
    (hx : Machine.colorsBelow s.N x) (hN : t.N = s.N) (hT : t.T = s.T ++ [.color x]) : t.tableOk := by
  obtain ⟨ext, hsT, hext⟩ := h
  refine ⟨ext ++ [x], by simp [hT, hsT, hN], fun y hy => ?_⟩
  rw [hN]
  rcases List.mem_append.1 hy with hy | hy
  · exact hext y hy
  · obtain rfl : y = x := by simpa using hy
    exact ⟨hlen, hx⟩

/-! ## The count and the width (R22, R23, R76) -/

theorem State.DecoderInv.pow_mcs_le {s : State} (h : s.DecoderInv) : 2 ^ s.mcs.toNat ≤ 2 ^ (s.cw - 1) :=
  Nat.pow_le_pow_right (by decide) (Nat.le_sub_one_of_lt h.widthLow)

/-- A counted code keeps the bounds of the width and of the counter, and there is one more of them since the reset. -/
theorem State.DecoderInv.counted_next {s : State} (h : s.DecoderInv) {cnt' cw' : Nat} (hc : s.CountedTo cnt' cw') :
    s.W0 ≤ cw' ∧ cw' ≤ s.MAXW ∧ cnt' < 2 ^ (cw' - 1) ∧
      cnt' + 2 ^ (cw' - 1) - 2 ^ s.mcs.toNat = s.counted + 1 := by
  have hlow : s.mcs.toNat + 1 ≤ s.cw := h.widthLow
  have hhigh := h.widthHigh
  have hcount : s.cnt < 2 ^ (s.cw - 1) := h.count
  have hpow := h.pow_mcs_le
  unfold State.counted
  rcases hc with ⟨hne, rfl, rfl⟩ | ⟨heq, hmax, rfl, rfl⟩
  · exact ⟨hlow, hhigh, by omega, by omega⟩
  · have hdouble : 2 ^ (s.cw + 1 - 1) = 2 * 2 ^ (s.cw - 1) := by
      rw [← Nat.pow_succ']; congr 1; omega
    exact ⟨Nat.le_succ_of_le hlow, by omega, by omega, by omega⟩

/-- The table's length by the counted codes, on the first code after a reset and on any later one (R135). -/
theorem State.DecoderInv.table_length {s : State} (h : s.DecoderInv) :
    (s.first = true → s.T.length = s.T0 + s.counted) ∧ (s.first = false → s.T.length + 1 = s.T0 + s.counted) :=
  ⟨fun hf => by have := h.fresh hf; omega, fun hf => (h.grown hf).2⟩

/-- Settles O34: fewer than `2^MAXW - 2^mcs` codes are counted, and each of them but the first has appended one entry. -/
theorem tableWithinCapacity : Obligations.TableWithinCapacity := by
  intro s h
  have hcount : s.cnt < 2 ^ (s.cw - 1) := h.count
  have hpow := h.pow_mcs_le
  have hlow : s.mcs.toNat + 1 ≤ s.cw := h.widthLow
  have hmax : 2 ^ s.cw ≤ 2 ^ s.MAXW := Nat.pow_le_pow_right (by decide) h.widthHigh
  have hdouble : 2 ^ s.cw = 2 * 2 ^ (s.cw - 1) := by rw [← Nat.pow_succ']; congr 1; omega
  have hpos : 0 < 2 ^ s.mcs.toNat := Nat.two_pow_pos _
  have hdef : s.counted = s.cnt + 2 ^ (s.cw - 1) - 2 ^ s.mcs.toNat := rfl
  cases hf : s.first with
  | true =>
    obtain ⟨hzero, hlen⟩ : s.counted = 0 ∧ s.T.length = s.N + 2 := h.fresh hf
    omega
  | false =>
    obtain ⟨hone, hlen⟩ : 1 ≤ s.counted ∧ s.T.length + 1 = s.N + 2 + s.counted := h.grown hf
    omega

/-! ## The decoder's invariant under a D-step -/

/-- The decoder's state directly after a reset of the table: at DECODE start (R45) and after CLEAR (R122). -/
theorem State.DecoderInv.of_reset {t : State} (hN : 1 ≤ t.N) (hT : t.T = initialTable t.N) (hcw : t.cw = t.W0)
    (hcnt : t.cnt = 0) (hf : t.first = true) (hmax : t.W0 ≤ t.MAXW) (hbp : t.bp ≤ t.BL)
    (hout : colorsBelow t.N t.out) : t.DecoderInv where
  colorCount := hN
  table := State.tableOk_of_initial hT
  widthLow := hcw.ge
  widthHigh := hcw.trans_le hmax
  count := by rw [hcnt]; exact Nat.two_pow_pos _
  cursor := hbp
  emitted := hout
  previous := fun h => by simp [hf] at h
  fresh := fun _ => ⟨by simp [State.counted, hcnt, hcw], by simp [hT]⟩
  grown := fun h => by simp [hf] at h

/-- The decoder's state after a counted code `c`, KNOWN or KWKWK, that emits `o`: its table has one appended entry for
each code counted since the reset but the first (R127, R129, R131). -/
theorem State.DecoderInv.of_counted {s t : State} (h : s.DecoderInv) {o : List Nat} {c : Nat}
    (hc : s.CountedTo t.cnt t.cw) (hbits : s.bp + s.cw ≤ s.BL) (ho : colorsBelow s.N o)
    (ht : t = { s with
      bp := s.bp + s.cw, out := s.out ++ o, T := t.T, first := false, prev := some c, cnt := t.cnt, cw := t.cw })
    (hT : t.tableOk) (hlen : t.T.length = s.T0 + s.counted) (hclt : c < t.T.length) (hclr : c ≠ s.N)
    (heoi : c ≠ s.N + 1) : t.DecoderInv := by
  obtain ⟨hlow, hhigh, hcount, hnext⟩ := h.counted_next hc
  rw [ht] at hT ⊢
  exact {
    colorCount := h.colorCount
    table := hT
    widthLow := hlow
    widthHigh := hhigh
    count := hcount
    cursor := hbits
    emitted := colorsBelow_append h.emitted ho
    previous := fun _ => ⟨c, rfl, hclt, hclr, heoi⟩
    fresh := fun hf => by cases hf
    grown := fun _ => ⟨(Nat.le_add_left 1 s.counted).trans hnext.ge, by
      show t.T.length + 1 = s.T0 + (t.cnt + 2 ^ (t.cw - 1) - 2 ^ s.mcs.toNat)
      rw [hnext, hlen, Nat.add_assoc]⟩ }

theorem ne_sentinels_of_known {n tlen c : Nat} (h : classify n tlen c = .known) :
    c ≠ n ∧ c ≠ n + 1 ∧ c < tlen := by
  unfold classify at h
  split_ifs at h
  exact ⟨‹_›, ‹_›, ‹_›⟩

theorem ne_sentinels_of_kwkwk {n tlen c : Nat} (h : classify n tlen c = .kwkwk) :
    c ≠ n ∧ c ≠ n + 1 ∧ c = tlen := by
  unfold classify at h
  split_ifs at h
  exact ⟨‹_›, ‹_›, ‹_›⟩

/-! ## The invariant of the whole machine, phase by phase -/

section Phases

variable {s t : State} (hs : s.Inv) (hi : s.SameInput t) (hg : t.host.gct.length = t.host.N)
include hs hi hg

/-- In FAULT nothing of the run counts any more (R178). -/
theorem State.Inv.fault {r : Reason} (ht : t.status = .fault r) : t.Inv where
  memory := hi.BUF ▸ hs.memory
  bounded := by rw [hi.BUF, hi.L]; exact hs.bounded
  wholeBytes := by simp [ht]
  runColors := by simp [ht]
  decoder := by simp [ht]
  result := by simp [ht]
  tableSize := hg
  waiting := by simp [ht, Status.isFault]

/-- In ASSEMBLING whole bytes are in `BS`, and a RUN has latched its `N`, the host's where the host waits for it (R39,
R6, R158). -/
theorem State.Inv.assembling (ht : t.status = .assembling) (hbits : t.BL % 8 = 0) (hrun : t.inRun = true → 1 ≤ t.N)
    (hw : t.host.job = .awaitRun → t.inRun = true ∧ t.N = t.host.N) : t.Inv where
  memory := hi.BUF ▸ hs.memory
  bounded := by rw [hi.BUF, hi.L]; exact hs.bounded
  wholeBytes := fun _ => hbits
  runColors := fun _ => hrun
  decoder := by simp [ht]
  result := by simp [ht]
  tableSize := hg
  waiting := fun hj => ⟨by simp [ht], fun _ => (hw hj).1, fun _ => (hw hj).2⟩

/-- In DECODING the decoder has its invariant (R26, R37, R135). -/
theorem State.Inv.decoding (ht : t.status = .decoding) (hd : t.DecoderInv)
    (hw : t.host.job = .awaitRun → t.N = t.host.N) : t.Inv where
  memory := hi.BUF ▸ hs.memory
  bounded := by rw [hi.BUF, hi.L]; exact hs.bounded
  wholeBytes := by simp [ht]
  runColors := by simp [ht]
  decoder := fun _ => hd
  result := by simp [ht]
  tableSize := hg
  waiting := fun hj => ⟨by simp [ht], by simp [ht], fun _ => hw hj⟩

/-- In DONE the colors handed to the host are below `N` (R40). -/
theorem State.Inv.done (ht : t.status = .done) (hout : colorsBelow t.N t.out)
    (hw : t.host.job = .awaitRun → t.N = t.host.N) : t.Inv where
  memory := hi.BUF ▸ hs.memory
  bounded := by rw [hi.BUF, hi.L]; exact hs.bounded
  wholeBytes := by simp [ht]
  runColors := by simp [ht]
  decoder := by simp [ht]
  result := fun _ => hout
  tableSize := hg
  waiting := fun hj => ⟨by simp [ht], by simp [ht], fun _ => hw hj⟩

/-- In IDLE the host waits for nothing. -/
theorem State.Inv.idle (ht : t.status = .idle) (hj : t.host.job = .none) : t.Inv where
  memory := hi.BUF ▸ hs.memory
  bounded := by rw [hi.BUF, hi.L]; exact hs.bounded
  wholeBytes := by simp [ht]
  runColors := by simp [ht]
  decoder := by simp [ht]
  result := by simp [ht]
  tableSize := hg
  waiting := by simp [hj]

end Phases

theorem State.Inv.raise {s : State} (hs : s.Inv) (r : Reason) : (s.raise r).Inv :=
  hs.fault (s.sameInput_raise r) hs.tableSize rfl

/-- While the host waits for a run that has not faulted, that run has the host's `N` (R158). -/
theorem State.Inv.issued {s : State} (hs : s.Inv) (hf : s.status.isFault = false) (hj : s.host.job = .awaitRun) :
    s.N = s.host.N := (hs.waiting hj).2.2 hf

/-! ## The steps of the block -/

/-- A D-step that goes on keeps the machine's invariant if it keeps the decoder's. -/
theorem State.Inv.dStep {s t : State} (hs : s.Inv) (hd : s.status = .decoding) (hi : s.SameInput t)
    (ht : t.status = s.status) (hN : t.N = s.N) (hh : t.host = s.host) (hinv : t.DecoderInv) : t.Inv :=
  hs.decoding hi (hh ▸ hs.tableSize) (ht.trans hd) hinv fun hj => by
    rw [hN, hh]; exact hs.issued (by rw [hd]; rfl) (hh ▸ hj)

/-- CLEAR leaves a fresh table and keeps the colors emitted (R125). -/
theorem clear_inv {s t : State} (hs : s.Inv) (h : exec .clear s = .next t) : t.Inv := by
  have hi := exec_sameInput h
  obtain ⟨hd, ⟨r, _, rfl⟩ | ⟨hbits, rfl⟩⟩ := clear_next h
  · exact hs.raise r
  have hdec := hs.decoder hd
  exact hs.dStep hd hi rfl rfl rfl
    (.of_reset hdec.colorCount rfl rfl rfl rfl (hdec.widthLow.trans hdec.widthHigh) hbits hdec.emitted)

/-- EOI hands over the colors emitted (R126). -/
theorem eoi_inv {s t : State} (hs : s.Inv) (h : exec .eoi s = .next t) : t.Inv := by
  have hi := exec_sameInput h
  obtain ⟨hd, ⟨r, _, rfl⟩ | ⟨_, rfl⟩⟩ := eoi_next h
  · exact hs.raise r
  · exact hs.done hi hs.tableSize rfl (hs.decoder hd).emitted (hs.issued (by rw [hd]; rfl))

/-- KNOWN emits an entry's colors, and its new entry, if there is one, is made of two entries' colors (R127). -/
theorem known_inv {s t : State} {c : Nat} (hs : s.Inv) (h : exec (.known c) s = .next t) : t.Inv := by
  have hi := exec_sameInput h
  obtain ⟨hd, ⟨r, _, rfl⟩ | ⟨hbits, hcls, x, xs, hx, T', hT', cnt', cw', hc, rfl⟩⟩ := known_next h
  · exact hs.raise r
  have hdec := hs.decoder hd
  obtain ⟨hclr, heoi, hclt⟩ := ne_sentinels_of_known hcls
  obtain ⟨hfirst, hlater⟩ := hdec.table_length
  have hcolors := hdec.table.colorsBelow hx
  refine hs.dStep hd hi rfl rfl rfl ?_
  rcases hT' with ⟨hf, rfl⟩ | ⟨hf, p, y, ys, _, hy, rfl⟩
  · exact hdec.of_counted hc hbits hcolors rfl hdec.table (hfirst hf) hclt hclr heoi
  · have hnew := colorsBelow_extend (hdec.table.colorsBelow hy) hcolors
    exact hdec.of_counted hc hbits hcolors rfl (hdec.table.append (by simp) hnew rfl rfl)
      (by simpa using hlater hf) (by simp only [List.length_append]; omega) hclr heoi

/-- KWKWK emits and appends one sequence, under the index that its code names (R129). -/
theorem kwkwk_inv {s t : State} {c : Nat} (hs : s.Inv) (h : exec (.kwkwk c) s = .next t) : t.Inv := by
  have hi := exec_sameInput h
  obtain ⟨hd, ⟨r, _, rfl⟩ | ⟨hbits, hcls, hf, p, x, xs, _, hx, cnt', cw', hc, rfl⟩⟩ := kwkwk_next h
  · exact hs.raise r
  have hdec := hs.decoder hd
  obtain ⟨hclr, heoi, hceq⟩ := ne_sentinels_of_kwkwk hcls
  have hcolors := hdec.table.colorsBelow hx
  have hnew := colorsBelow_extend hcolors hcolors
  refine hs.dStep hd hi rfl rfl rfl ?_
  exact hdec.of_counted hc hbits hnew (by rw [hf]) (hdec.table.append (by simp) hnew rfl rfl)
    (by simpa using hdec.table_length.2 hf) (by simp [hceq]) hclr heoi

theorem bytesBits_length (bs : List Byte) : (bytesBits bs).length = 8 * bs.length := by
  simp [bytesBits, byteBits, List.length_flatMap, Nat.mul_comm]

/-- DATA appends whole bytes (R39, R112). -/
theorem data_inv {s t : State} {p : List Byte} (hs : s.Inv) (h : exec (.data p) s = .next t) : t.Inv := by
  have hi := exec_sameInput h
  obtain ⟨ha, _, ⟨r, rfl⟩ | ⟨_, rfl⟩⟩ := data_next h
  · exact hs.raise r
  have hbits : (s.BS ++ bytesBits p).length % 8 = 0 := by
    have hwhole : s.BS.length % 8 = 0 := hs.wholeBytes ha
    rw [List.length_append, bytesBits_length]
    omega
  exact hs.assembling hi hs.tableSize ha hbits (hs.runColors ha) fun hj =>
    ⟨(hs.waiting hj).2.1 ha, hs.issued (by rw [ha]; rfl) hj⟩

/-- TERM starts the decoder on a fresh table inside RUN; a bare ASSEMBLE is none that the host waits for (R114). -/
theorem term_inv {s t : State} (hs : s.Inv) (h : exec .term s = .next t) : t.Inv := by
  have hi := exec_sameInput h
  obtain ⟨ha, ⟨r, rfl⟩ | ⟨_, ⟨hr, hmax, rfl⟩ | ⟨hr, rfl⟩⟩⟩ := term_next h
  · exact hs.raise r
  · exact hs.decoding hi hs.tableSize rfl
      (.of_reset (hs.runColors ha hr) rfl rfl rfl rfl hmax (Nat.zero_le _) (fun c hc => by cases hc))
      (hs.issued (by rw [ha]; rfl))
  · have hj : s.host.job = .none := by
      cases hj : s.host.job with
      | none => rfl
      | awaitRun => simp [(hs.waiting hj).2.1 ha] at hr
    exact hs.idle hi hs.tableSize rfl hj

theorem blockStep_inv {i : Instr} {s t : State} (hb : i.isBlockStep = true) (hs : s.Inv) (h : exec i s = .next t) :
    t.Inv := by
  cases i with
  | clear => exact clear_inv hs h
  | eoi => exact eoi_inv hs h
  | known c => exact known_inv hs h
  | kwkwk c => exact kwkwk_inv hs h
  | corrupt c =>
    obtain ⟨_, r, _, rfl⟩ := corrupt_next h
    exact hs.raise r
  | data p => exact data_inv hs h
  | term => exact term_inv hs h
  | _ => cases hb

/-! ## The host between runs -/

/-- A move of the host outside a run, after which it waits for nothing, keeps the invariant. -/
theorem State.HostMove.inv {s t : State} (hm : s.HostMove t) (hs : s.Inv) (hr : s.status.running = false)
    (hj : t.host.job = .none) : t.Inv := by
  have hi : s.SameInput t := by rw [hm.block]; exact ⟨rfl, rfl, rfl⟩
  have hg : t.host.gct.length = t.host.N := by
    rcases hm.table with ⟨hgct, hN⟩ | hlen
    · rw [hgct, hN]; exact hs.tableSize
    · exact hlen
  have hw : t.host.job = .awaitRun → t.N = t.host.N := by simp [hj]
  cases hst : s.status with
  | idle => exact hs.idle hi hg (hm.status.trans hst) hj
  | done =>
    have hout : colorsBelow t.N t.out := by rw [hm.block]; exact hs.result hst
    exact hs.done hi hg (hm.status.trans hst) hout hw
  | fault r => exact hs.fault hi hg (hm.status.trans hst)
  | assembling | decoding => simp [hst, Status.running] at hr

/-- The start commands, issued by a host that waits for nothing (R111, R121, R133, R161). -/
theorem start_inv {i : Instr} {s t : State} (hi : i.isStart = true) (hs : s.Inv) (hj : s.host.job = .none)
    (h : exec i s = .next t) : t.Inv := by
  have hin := exec_sameInput h
  cases i with
  | assemble p =>
    obtain ⟨_, rfl⟩ := assemble_next h
    exact hs.assembling hin hs.tableSize rfl rfl (by simp) (by simp [hj])
  | decode bits m n =>
    obtain ⟨_, hn, ⟨_, rfl⟩ | ⟨hmax, rfl⟩⟩ := decode_next h
    · exact hs.raise _
    · exact hs.decoding hin hs.tableSize rfl
        (.of_reset hn rfl rfl rfl rfl hmax (Nat.zero_le _) (fun c hc => by cases hc)) (by simp [hj])
  | run sp n =>
    obtain ⟨_, hn, ⟨_, rfl⟩ | ⟨_, rfl⟩⟩ := run_next h
    · exact hs.raise _
    · exact hs.assembling hin hs.tableSize rfl rfl (fun _ => hn) (by simp [hj])
  | decodeFile =>
    obtain ⟨hr, ⟨u, hu, rfl⟩ | ⟨e, _, _, rfl⟩⟩ := decodeFile_next h
    · rcases fileStages_cases s with ⟨sg, d, a, im, e⟩ | ⟨_, e, _⟩ <;> rw [e] at hu <;> cases hu
      have hg := s.triples_length (colorCount d.e)
      obtain ⟨_, e⟩ | ⟨_, e⟩ := issueRun_cases { s with host := { s.host with
          sig := sg, screen := d, N := colorCount d.e, G := 3 * colorCount d.e, gct := s.triples (colorCount d.e),
          S := a, image := im } } <;> rw [e] at hin ⊢
      · exact hs.fault hin hg rfl
      · exact hs.assembling hin hg rfl rfl (fun _ => colorCount_pos d.e) (fun _ => ⟨rfl, rfl⟩)
    · exact (s.hostMove_hostFail e).inv hs hr rfl
  | _ => cases hi

/-- Any instruction, run for a host that waits for nothing outside a run, keeps the invariant. -/
theorem exec_inv_between {i : Instr} {s t : State} (hs : s.Inv) (hr : s.status.running = false)
    (hj : s.host.job = .none) (h : exec i s = .next t) : t.Inv := by
  cases hb : i.isBlockStep with
  | true => exact blockStep_inv hb hs h
  | false =>
    cases hi : i.isStart with
    | true => exact start_inv hi hs hj h
    | false =>
      have hm := exec_hostMove hb hi h
      exact hm.inv hs hr (hm.job.elim id fun hj' => hj'.trans hj)

/-- A load between runs gives a buffer in canonical form below its length (R38, R162). -/
theorem State.Inv.loadBuffer {s : State} (hs : s.Inv) (hr : s.status.running = false) (f : List Byte) :
    (s.loadBuffer f).Inv where
  memory := Memory.ofBytes_wf 0 f
  bounded := fun c hc => by simpa using (Memory.ofBytes_mem hc).2
  wholeBytes := fun h => absurd (running_of_assembling (s := s) h) (by simp [hr])
  runColors := hs.runColors
  decoder := fun h => absurd (running_of_decoding (s := s) h) (by simp [hr])
  result := hs.result
  tableSize := hs.tableSize
  waiting := hs.waiting

/-! ## The steps of a run -/

theorem decodeRecord_isBlockStep {bs : List Byte} {i : Instr} (h : decodeRecord bs = .ok i) : i.isBlockStep = true := by
  cases bs with
  | nil => cases h
  | cons n rest =>
    simp only [decodeRecord] at h
    split_ifs at h <;> cases h <;> rfl

/-- In a run a step is one of the block's, or the fetch raises (R21, R113, R123). -/
theorem step_running {s t : State} (hr : s.status.running = true) (h : step s = .next t) :
    (∃ i : Instr, i.isBlockStep = true ∧ exec i s = .next t) ∨ t = s.raise .truncatedStream := by
  rcases Status.running_iff.1 hr with hst | hst
  · rcases fetchRecord_cases s with ⟨i, hdec, e⟩ | ⟨_, e⟩ <;> rw [← fetch_of_assembling hst] at e
    · exact .inl ⟨i, decodeRecord_isBlockStep hdec, step_of_run e ▸ h⟩
    · rw [step_of_done e] at h; cases h; exact .inr rfl
  · rcases fetchCode_cases s with ⟨_, e⟩ | ⟨_, e⟩ <;> rw [← fetch_of_decoding hst] at e
    · exact .inl ⟨_, codeInstr_isBlockStep _ _ _, step_of_run e ▸ h⟩
    · rw [step_of_done e] at h; cases h; exact .inr rfl

/-- A host that takes its next request waits for nothing: while it waits, the block is not IDLE (R158). -/
theorem State.Inv.no_job {s : State} (hs : s.Inv) (hw : s.host.job = .awaitRun → s.status = .idle) :
    s.host.job = .none := by
  cases hj : s.host.job with
  | none => rfl
  | awaitRun => exact absurd (hw hj) (hs.waiting hj).1

/-- Settles O55: in a run by the steps of the block, between runs by the host's moves, its load and its commands. -/
theorem everyStepKeepsInvariant : Obligations.EveryStepKeepsInvariant := by
  intro s t hs h
  cases hr : s.status.running with
  | true =>
    rcases step_running hr h with ⟨i, hb, hi⟩ | rfl
    · exact blockStep_inv hb hs hi
    · exact hs.raise _
  | false =>
    obtain ⟨hr', _⟩ | ⟨_, ⟨_, _, hgrid⟩ | ⟨r, _, _, rfl⟩ | ⟨hw, hreq⟩⟩ := step_next h
    · simp [hr] at hr'
    · have hend : s.endJob.Inv := State.HostMove.inv ⟨rfl, fun _ => rfl, .inl rfl, .inl ⟨rfl, rfl⟩⟩ hs hr rfl
      exact exec_inv_between hend hr rfl hgrid
    · exact (s.hostMove_hostFail _).inv hs hr rfl
    · have hj : s.popQueue.host.job = .none := hs.no_job hw
      have hpop : s.popQueue.Inv := State.HostMove.inv ⟨rfl, fun _ => rfl, .inr rfl, .inl ⟨rfl, rfl⟩⟩ hs hr hj
      rcases hreq with ⟨e, rfl⟩ | ⟨i, hi⟩ | ⟨f, q, _, rfl⟩
      · exact (s.popQueue.hostMove_hostFail e).inv hpop hr rfl
      · exact exec_inv_between hpop hr hj hi
      · exact (State.hostMove_replyWith _ _).inv (hpop.loadBuffer hr f) hr hj

end Sys2Proof.Machine
end

section
/-! PROOF. Nothing survives a run (R42, R43, R44, R191): the registers that the steps to come can depend on, phase by phase, and that every step gives the same result whatever the others hold: settles O59. -/

namespace Sys2Proof.Machine

/-- An outcome with its state seen through `f`. -/
def mapNext (f : State → State) : Host.Outcome State Fault Refusal → Host.Outcome State Fault Refusal
  | .next t => .next (f t)
  | .fault r => .fault r
  | .refused r => .refused r

/-- Two outcomes that look the same through `f` are of one kind, with states that look the same. -/
theorem mapNext_eq {f : State → State} {o o' : Host.Outcome State Fault Refusal} (h : mapNext f o = mapNext f o') :
    (∃ u v, o = .next u ∧ o' = .next v ∧ f u = f v) ∨ (∃ r, o = .fault r ∧ o' = .fault r) ∨
      ∃ r, o = .refused r ∧ o' = .refused r := by
  cases o with
  | next u =>
    cases o' with
    | next v => exact .inl ⟨u, v, rfl, rfl, Host.Outcome.next.inj h⟩
    | fault r | refused r => cases h
  | fault r =>
    cases o' with
    | fault r' => exact .inr (.inl ⟨r, rfl, by rw [Host.Outcome.fault.inj h]⟩)
    | next v | refused r' => cases h
  | refused r =>
    cases o' with
    | refused r' => exact .inr (.inr ⟨r, rfl, by rw [Host.Outcome.refused.inj h]⟩)
    | next v | fault r' => cases h

/-! ## A D-step does not see what the assembler and RUN have left -/

/-- A state without the assembler's cursor and mode and the latched separator offset (R27, R31). -/
def State.withoutAssembler (s : State) : State := { s with S := 0, inRun := false, ap := 0 }

@[simp] theorem State.withoutAssembler_first (s : State) : s.withoutAssembler.first = s.first := rfl
@[simp] theorem State.withoutAssembler_colorsAt (s : State) : s.withoutAssembler.colorsAt = s.colorsAt := rfl
@[simp] theorem State.withoutAssembler_prevColors (s : State) : s.withoutAssembler.prevColors = s.prevColors := rfl

theorem commit_withoutAssembler (s : State) (x : Except Stop State) :
    commit s.withoutAssembler (x.map State.withoutAssembler) = mapNext State.withoutAssembler (commit s x) := by
  rcases x with (r | e | f | r) | t <;> rfl

theorem State.tail_withoutAssembler (s : State) (c : Nat) :
    s.withoutAssembler.tail c = (s.tail c).map State.withoutAssembler := by
  rcases State.tail_cases (s := s) (code := c) rfl with ⟨hcnt, e⟩ | ⟨hcnt, hmax, e⟩ | ⟨hcnt, hmax, e⟩ <;>
    rw [e]
  · exact if_neg hcnt
  · exact (if_pos hcnt).trans (if_neg hmax)
  · exact (if_pos hcnt).trans (if_pos hmax)

theorem State.extendKnown_withoutAssembler (s : State) (x : Nat) :
    s.withoutAssembler.extendKnown x = (s.extendKnown x).map State.withoutAssembler := by
  rw [State.extendKnown, State.extendKnown, State.withoutAssembler_first, State.withoutAssembler_prevColors]
  split_ifs
  · rfl
  · cases s.prevColors <;> rfl

theorem State.knownStep_withoutAssembler (c : Nat) (s : State) :
    s.withoutAssembler.knownStep c = (s.knownStep c).map State.withoutAssembler := by
  rw [State.knownStep, State.knownStep, State.withoutAssembler_colorsAt]
  cases s.colorsAt c with
  | error e => rfl
  | ok x =>
    simp only [State.extendKnown_withoutAssembler]
    cases s.extendKnown x.1 with
    | error e => rfl
    | ok u => exact State.tail_withoutAssembler { u with out := u.out ++ x.1 :: x.2 } c

theorem State.kwkwkStep_withoutAssembler (c : Nat) (s : State) :
    s.withoutAssembler.kwkwkStep c = (s.kwkwkStep c).map State.withoutAssembler := by
  rw [State.kwkwkStep, State.kwkwkStep, State.withoutAssembler_first, State.withoutAssembler_prevColors]
  split_ifs
  · rfl
  · cases s.prevColors with
    | error e => rfl
    | ok x =>
      exact State.tail_withoutAssembler
        (State.append { s with out := s.out ++ (x.1 :: x.2 ++ [x.1]) } (x.1 :: x.2 ++ [x.1])) c

/-- A D-step commutes with forgetting the assembler if its class rule does. -/
theorem commit_dStep_withoutAssembler {body : State → Except Stop State}
    (hbody : ∀ u : State, body u.withoutAssembler = (body u).map State.withoutAssembler)
    (s : State) (cls : CodeClass) (c : Nat) :
    commit s.withoutAssembler (s.withoutAssembler.dStep cls c body) =
      mapNext State.withoutAssembler (commit s (s.dStep cls c body)) := by
  rw [← commit_withoutAssembler]
  congr 1
  rcases State.dStep_cases (s := s) (cls := cls) (code := c) (body := body) rfl with
    ⟨hd, e⟩ | ⟨hd, hbits, e⟩ | ⟨hd, hbits, hcls, e⟩ | ⟨hd, hbits, hcls, e⟩ <;> rw [e]
  · exact if_pos hd
  · exact (if_neg (not_not.2 hd)).trans (if_pos hbits)
  · exact (if_neg (not_not.2 hd)).trans ((if_neg (Nat.not_lt.2 hbits)).trans (if_pos hcls))
  · exact (State.dStep_of_enabled (s := s.withoutAssembler) hd hbits hcls).trans (hbody { s with bp := s.bp + s.cw })

/-! ## The live registers -/

/-- The machine's inputs, its phase and its host, with every register of the run as after power-on. -/
def State.inputs (s : State) : State :=
  { State.reset with MAXW := s.MAXW, BUF := s.BUF, L := s.L, status := s.status, host := s.host }

/-- The live registers of a state: those that a step to come can read before it writes them. Between runs these are the
inputs, and `out` after DONE (R42, R44); while ASSEMBLING the assembler's record, and what RUN latched for the decoder
(R45); while DECODING all but what the assembler leaves. The others stand at the values of power-on. -/
def State.live (s : State) : State :=
  match s.status with
  | .idle | .fault _ => s.inputs
  | .done => { s.inputs with out := s.out }
  | .assembling =>
    { s.inputs with
      inRun := s.inRun, ap := s.ap, BS := s.BS, N := if s.inRun then s.N else 0, mcs := if s.inRun then s.mcs else 0 }
  | .decoding => s.withoutAssembler

theorem State.live_of_idle {s : State} (h : s.status = .idle) : s.live = s.inputs := by simp only [State.live, h]

theorem State.live_of_fault {s : State} {r : Reason} (h : s.status = .fault r) : s.live = s.inputs := by
  simp only [State.live, h]

theorem State.live_of_done {s : State} (h : s.status = .done) : s.live = { s.inputs with out := s.out } := by
  simp only [State.live, h]

theorem State.live_of_assembling {s : State} (h : s.status = .assembling) :
    s.live = { s.inputs with
      inRun := s.inRun, ap := s.ap, BS := s.BS, N := if s.inRun then s.N else 0,
      mcs := if s.inRun then s.mcs else 0 } := by simp only [State.live, h]

theorem State.live_of_decoding {s : State} (h : s.status = .decoding) : s.live = s.withoutAssembler := by
  simp only [State.live, h]

@[simp] theorem State.live_MAXW (s : State) : s.live.MAXW = s.MAXW := by unfold State.live; split <;> rfl
@[simp] theorem State.live_BUF (s : State) : s.live.BUF = s.BUF := by unfold State.live; split <;> rfl
@[simp] theorem State.live_L (s : State) : s.live.L = s.L := by unfold State.live; split <;> rfl
@[simp] theorem State.live_status (s : State) : s.live.status = s.status := by unfold State.live; split <;> rfl
@[simp] theorem State.live_host (s : State) : s.live.host = s.host := by unfold State.live; split <;> rfl

theorem State.live_ap {s : State} (h : s.status = .assembling) : s.live.ap = s.ap := by
  rw [State.live_of_assembling h]

theorem State.live_out {s : State} (h : s.status = .done) : s.live.out = s.out := by rw [State.live_of_done h]

@[simp] theorem State.live_live (s : State) : s.live.live = s.live := by
  cases hs : s.status <;> cases hr : s.inRun <;> simp [State.live, State.inputs, State.withoutAssembler, hs, hr]

theorem State.live_withoutAssembler {s : State} (h : s.status ≠ .assembling) : s.withoutAssembler.live = s.live := by
  cases hs : s.status with
  | assembling => exact absurd hs h
  | idle | done | fault r | decoding => simp [State.live, State.inputs, State.withoutAssembler, hs]

/-- A state whose phase is IDLE, or FAULT, has no live register but the inputs. -/
theorem State.live_eq_of_inputs {s t : State} (h : s.inputs = t.inputs)
    (hs : s.status = .idle ∨ ∃ r, s.status = .fault r) : s.live = t.live := by
  have hst : t.status = s.status := (congrArg State.status h).symm
  obtain hs | ⟨r, hs⟩ := hs
  · rw [State.live_of_idle hs, State.live_of_idle (hst.trans hs), h]
  · rw [State.live_of_fault hs, State.live_of_fault (hst.trans hs), h]

/-- What the host does to its own registers, it does to the live registers. -/
theorem State.live_withHost (s : State) (h : HostState) :
    { s.live with host := h } = State.live { s with host := h } := by
  cases hs : s.status <;> simp only [State.live, State.inputs, State.withoutAssembler, hs]

theorem State.live_replyWith (s : State) (r : Reply) : s.live.replyWith r = (s.replyWith r).live := by
  rw [State.replyWith, State.live_host]; exact s.live_withHost _

theorem State.live_hostFail (s : State) (e : HostError) : s.live.hostFail e = (s.hostFail e).live := by
  rw [State.hostFail, State.live_host]; exact s.live_withHost _

theorem State.live_popQueue (s : State) : s.live.popQueue = s.popQueue.live := by
  rw [State.popQueue, State.live_host]; exact s.live_withHost _

theorem State.live_endJob (s : State) : s.live.endJob = s.endJob.live := by
  rw [State.endJob, State.live_host]; exact s.live_withHost _

/-- A fault leaves the inputs, and of a run nothing (R178). -/
theorem State.live_raise (s : State) (r : Reason) : (s.live.raise r).live = (s.raise r).live :=
  State.live_eq_of_inputs (by simp [State.inputs]) (.inr ⟨r, rfl⟩)

theorem mapNext_live_withoutAssembler {o : Host.Outcome State Fault Refusal}
    (h : ∀ t, o = .next t → t.status ≠ .assembling) :
    mapNext State.live (mapNext State.withoutAssembler o) = mapNext State.live o := by
  cases o with
  | next t => exact congrArg Host.Outcome.next (State.live_withoutAssembler (h t rfl))
  | fault f => rfl
  | refused r => rfl

/-- A transaction on the live registers gives what it gives on the state, if what its meaning built does. -/
theorem mapNext_live_commit {s : State} {x y : Except Stop State} (h : x.map State.live = y.map State.live) :
    mapNext State.live (commit s.live x) = mapNext State.live (commit s y) := by
  cases x with
  | ok u =>
    cases y with
    | ok v => exact congrArg Host.Outcome.next (Except.ok.inj h)
    | error e => cases h
  | error e =>
    cases y with
    | ok v => cases h
    | error e' =>
      obtain rfl : e = e' := Except.error.inj h
      cases e with
      | raise r => exact congrArg Host.Outcome.next (s.live_raise r)
      | hostFail f => exact congrArg Host.Outcome.next (by rw [State.live_hostFail, State.live_live])
      | fault f => rfl
      | refuse r => rfl

/-! ## The instructions on the live registers -/

theorem dStep_not_enabled {s : State} {cls : CodeClass} {c : Nat} {body : State → Except Stop State}
    (h : s.status ≠ .decoding) : commit s (s.dStep cls c body) = .refused .decoderNotEnabled := by
  simp [State.dStep, h]

/-- A D-step, whose class rule and code value do not see the assembler's registers. -/
theorem codeStep_live {i : Instr} {cls : CodeClass} {code : State → Nat} {body : State → Except Stop State}
    (hi : i.isStart = false) (hexec : ∀ s : State, exec i s = commit s (s.dStep cls (code s) body))
    (hcode : ∀ s : State, code s.withoutAssembler = code s)
    (hbody : ∀ u : State, body u.withoutAssembler = (body u).map State.withoutAssembler) (s : State) :
    mapNext State.live (exec i s.live) = mapNext State.live (exec i s) := by
  by_cases hd : s.status = .decoding
  · have hcomm : exec i s.withoutAssembler = mapNext State.withoutAssembler (exec i s) := by
      rw [hexec, hexec, hcode, commit_dStep_withoutAssembler hbody]
    rw [State.live_of_decoding hd, hcomm]
    refine mapNext_live_withoutAssembler fun t h hst => ?_
    have hm := exec_phaseMove h
    generalize t.status = st at hm hst
    cases hm with
    | stay => rw [hd] at hst; cases hst
    | start hi' => rw [hi] at hi'; cases hi'
    | raise | startDecode | finishRun | finishBare | finish => cases hst
  · rw [hexec, hexec, dStep_not_enabled hd, dStep_not_enabled (by simpa using hd)]

/-- An A-step looks at the cursor and `L`, and then does what its record rule does on the live registers. -/
theorem aStep_live {body : State → Except Stop State}
    (hbody : ∀ u : State, u.status = .assembling → (body u.live).map State.live = (body u).map State.live)
    (s : State) (len : Nat) :
    (s.live.aStep len body).map State.live = (s.aStep len body).map State.live := by
  rcases State.aStep_cases (s := s) (len := len) (body := body) rfl with
    ⟨ha, e⟩ | ⟨ha, hL, e⟩ | ⟨ha, hL, e⟩ <;> rw [e]
  · simp [State.aStep, ha]
  · simp [State.aStep, ha, State.live_ap ha, hL]
  · have hadvance : { s.live with ap := s.live.ap + len } = State.live { s with ap := s.ap + len } := by
      simp [State.live, State.inputs, ha]
    rw [State.aStep_of_enabled (by simpa using ha) (by simpa [State.live_ap ha] using hL)]
    exact (congrArg (fun u => (body u).map State.live) hadvance).trans (hbody { s with ap := s.ap + len } ha)

theorem data_live (p : List Byte) (s : State) :
    mapNext State.live (exec (.data p) s.live) = mapNext State.live (exec (.data p) s) := by
  refine mapNext_live_commit ?_
  split_ifs
  · refine aStep_live (fun u hu => ?_) s _
    exact congrArg Except.ok (by cases hr : u.inRun <;> simp [State.live, State.inputs, hu, hr])
  · rfl

/-- DECODE start creates the decoder's state anew: from the inputs, the operands and the stream alone (R45, R121). -/
theorem startDecode_live {s t : State} (hmaxw : s.MAXW = t.MAXW) (hbuf : s.BUF = t.BUF) (hlen : s.L = t.L)
    (hhost : s.host = t.host) (hn : s.N = t.N) (hmcs : s.mcs = t.mcs) (hbits : s.BS = t.BS) :
    s.startDecode.map State.live = t.startDecode.map State.live := by
  rw [State.startDecode, State.startDecode, State.W0, State.W0, hmaxw, hmcs]
  split_ifs
  · rfl
  · exact congrArg Except.ok (by simp [State.live, State.withoutAssembler, *])

/-- The end of the assembler's work reads what RUN latched inside RUN alone, and of the decoder nothing (R45, R114). -/
theorem finishAssemble_live {u : State} (hu : u.status = .assembling) :
    u.live.finishAssemble.map State.live = u.finishAssemble.map State.live := by
  have hl := State.live_of_assembling hu
  have hrun : u.live.inRun = u.inRun := by rw [hl]
  rw [State.finishAssemble, State.finishAssemble, hrun]
  split_ifs with hr
  · exact startDecode_live u.live_MAXW u.live_BUF u.live_L u.live_host (by simp [hl, hr]) (by simp [hl, hr])
      (by rw [hl])
  · exact congrArg Except.ok (State.live_eq_of_inputs (by simp [State.inputs, hl]) (.inl rfl))

theorem term_live (s : State) : mapNext State.live (exec .term s.live) = mapNext State.live (exec .term s) :=
  mapNext_live_commit (aStep_live (fun _ hu => finishAssemble_live hu) s 1)

/-! ## The host's instructions: they read `BUF`, `L` and the host's registers (R41, R100) -/

/-- A state with its host's registers seen through `f`. -/
def State.mapHost (s : State) (f : HostState → HostState) : State := { s with host := f s.host }

theorem State.mapHost_live (s : State) (f : HostState → HostState) : s.live.mapHost f = (s.mapHost f).live := by
  rw [State.mapHost, State.live_host]; exact s.live_withHost _

theorem State.live_mapHost_live (s : State) (f : HostState → HostState) :
    (s.live.mapHost f).live = (s.mapHost f).live := by rw [State.mapHost_live, State.live_live]

@[simp] theorem State.readByte_live (s : State) (a : Nat) : s.live.readByte a = s.readByte a := by simp [State.readByte]
@[simp] theorem State.readWord_live (s : State) (a : Nat) : s.live.readWord a = s.readWord a := by simp [State.readWord]
@[simp] theorem State.readField_live (s : State) (a st n : Nat) : s.live.readField a st n = s.readField a st n := by
  simp [State.readField]
@[simp] theorem State.bytesAt_live (s : State) (a n : Nat) : s.live.bytesAt a n = s.bytesAt a n := by
  simp [State.bytesAt]
@[simp] theorem State.findSeparator_live (s : State) (a : Nat) : s.live.findSeparator a = s.findSeparator a := by
  simp [State.findSeparator]
@[simp] theorem State.readScreen_live (s : State) : s.live.readScreen = s.readScreen := by
  simp [State.readScreen, State.hostWord, State.hostByte, State.hostField]
@[simp] theorem State.readImage_live (s : State) (a : Nat) : s.live.readImage a = s.readImage a := by
  simp [State.readImage, State.hostWord, State.hostField]
@[simp] theorem State.triples_live (s : State) (n : Nat) : s.live.triples n = s.triples n := by simp [State.triples]

theorem read_live (s : State) (x : Except Reason Nat) :
    mapNext State.live (commit s.live (s.live.replyValue x)) = mapNext State.live (commit s (s.replyValue x)) := by
  refine mapNext_live_commit ?_
  cases x with
  | ok v => exact congrArg Except.ok (s.live_mapHost_live fun h => { h with reply := .value v })
  | error r => rfl

theorem State.parseHeader_live (s : State) : s.live.parseHeader = s.parseHeader.map State.live := by
  have heq : ∀ u : State, u.parseHeader =
      if u.L < Config.headerLength then .error (.hostFail headerError)
      else if asciiBytes (u.bytesAt 0 Config.signatureLength) then u.readScreen.map fun d =>
        u.mapHost fun h => { h with sig := u.bytesAt 0 Config.signatureLength, screen := d }
      else .error (.hostFail headerError) := fun _ => rfl
  rw [heq, heq, State.live_L, State.bytesAt_live, State.readScreen_live]
  split_ifs
  · rfl
  · cases s.readScreen with
    | ok d => exact congrArg Except.ok (s.mapHost_live _)
    | error e => rfl
  · rfl

theorem State.extractGct_live (s : State) (e : BitVec 3) : s.live.extractGct e = (s.extractGct e).map State.live := by
  have heq : ∀ u : State, u.extractGct e =
      if u.L < Config.headerLength + 3 * colorCount e then .error (.hostFail .invalidColorTableSize)
      else .ok (u.mapHost fun h =>
        { h with N := colorCount e, G := 3 * colorCount e, gct := u.triples (colorCount e) }) := fun _ => rfl
  rw [heq, heq, State.live_L, State.triples_live]
  split_ifs
  · rfl
  · exact congrArg Except.ok (s.mapHost_live _)

theorem State.locateImage_live (s : State) (g : Nat) : s.live.locateImage g = (s.locateImage g).map State.live := by
  rw [State.locateImage, State.locateImage, State.findSeparator_live]
  cases s.findSeparator (Config.headerLength + g) with
  | none => rfl
  | some a =>
    simp only [State.readImage_live]
    cases s.readImage a with
    | ok d => exact congrArg Except.ok (s.mapHost_live fun h => { h with S := a, image := d })
    | error e => rfl

theorem State.buildGrid_live (s : State) (colors : List Nat) (w : Nat) :
    s.live.buildGrid colors w = (s.buildGrid colors w).map State.live := by
  rw [State.buildGrid, State.buildGrid]
  split_ifs
  · rfl
  · exact congrArg Except.ok (s.mapHost_live fun h => { h with grid := gridRows colors w })

/-- A stage that commutes with `State.live` gives the same to the host. -/
theorem stage_live {s : State} {x y : Except Stop State} (h : x = y.map State.live) :
    mapNext State.live (commit s.live (stageDone x)) = mapNext State.live (commit s (stageDone y)) := by
  refine mapNext_live_commit ?_
  subst h
  cases y with
  | ok u => exact congrArg Except.ok (u.live_mapHost_live fun h => { h with reply := .stageDone })
  | error e => rfl

theorem sep_live (s : State) : mapNext State.live (exec .sep s.live) = mapNext State.live (exec .sep s) := by
  refine mapNext_live_commit ?_
  have hG : s.live.host.G = s.host.G := by rw [State.live_host]
  rw [hG, State.findSeparator_live]
  cases s.findSeparator (Config.headerLength + s.host.G) with
  | none => rfl
  | some a =>
    exact congrArg Except.ok (s.live_mapHost_live fun h => { h with S := a, reply := .value a })

/-! ## The starts -/

theorem whenNotRunning_live {s : State} {x y : Except Stop State}
    (h : s.status.running = false → x.map State.live = y.map State.live) :
    mapNext State.live (commit s.live (s.live.whenNotRunning x)) =
      mapNext State.live (commit s (s.whenNotRunning y)) := by
  refine mapNext_live_commit ?_
  cases hr : s.status.running with
  | true => rw [State.whenNotRunning_of_running hr, State.whenNotRunning_of_running (by simpa using hr)]
  | false =>
    rw [State.whenNotRunning_of_not hr, State.whenNotRunning_of_not (by simpa using hr)]
    exact h hr

/-- The assembler starts from its operands; what the decoder of a RUN needs is latched with that start (R111, R133). -/
theorem startAssemble_live {s t : State} (hmaxw : s.MAXW = t.MAXW) (hbuf : s.BUF = t.BUF) (hlen : s.L = t.L)
    (hhost : s.host = t.host) (p : Nat) (inRun : Bool) (hlatched : inRun = true → s.N = t.N ∧ s.mcs = t.mcs) :
    (s.startAssemble p inRun).live = (t.startAssemble p inRun).live := by
  rw [State.live_of_assembling rfl, State.live_of_assembling rfl]
  cases inRun with
  | false => simp [State.inputs, hmaxw, hbuf, hlen, hhost]
  | true =>
    obtain ⟨hn, hmcs⟩ := hlatched rfl
    simp [State.inputs, hmaxw, hbuf, hlen, hhost, hn, hmcs]

theorem startRun_live (s : State) (sp n : Nat) :
    (s.live.startRun sp n).map State.live = (s.startRun sp n).map State.live := by
  rw [State.startRun, State.startRun, State.readByte_live]
  cases s.readByte (sp + Config.mcsDistance) with
  | error r => rfl
  | ok m =>
    exact congrArg Except.ok
      (startAssemble_live (by simp) (by simp) (by simp) (by simp) _ _ fun _ => ⟨rfl, rfl⟩)

theorem mcs_live (m : Byte) (s : State) :
    mapNext State.live (exec (.mcs m) s.live) = mapNext State.live (exec (.mcs m) s) := by
  refine whenNotRunning_live fun hr => congrArg Except.ok ?_
  cases hs : s.status with
  | assembling | decoding => rw [hs] at hr; cases hr
  | idle | done | fault r => simp [State.live, State.inputs, State.replyWith, hs]

theorem assemble_live (p : Nat) (s : State) :
    mapNext State.live (exec (.assemble p) s.live) = mapNext State.live (exec (.assemble p) s) :=
  whenNotRunning_live fun _ => congrArg Except.ok
    (startAssemble_live s.live_MAXW s.live_BUF s.live_L s.live_host p false nofun)

theorem decode_live (bits : List Bool) (m : Byte) (n : Nat) (s : State) :
    mapNext State.live (exec (.decode bits m n) s.live) = mapNext State.live (exec (.decode bits m n) s) := by
  refine whenNotRunning_live fun _ => ?_
  split_ifs
  · exact startDecode_live s.live_MAXW s.live_BUF s.live_L (by simp) rfl rfl rfl
  · rfl

theorem run_live (sp n : Nat) (s : State) :
    mapNext State.live (exec (.run sp n) s.live) = mapNext State.live (exec (.run sp n) s) := by
  refine whenNotRunning_live fun _ => ?_
  split_ifs
  · exact startRun_live s sp n
  · rfl

theorem State.fileStages_live (s : State) : s.live.fileStages = s.fileStages.map State.live := by
  rw [State.fileStages, State.fileStages, State.parseHeader_live]
  cases s.parseHeader with
  | error e => rfl
  | ok s1 =>
    simp only [Except.map, State.live_host, State.extractGct_live]
    cases s1.extractGct s1.host.screen.e with
    | error e => rfl
    | ok s2 => simp only [Except.map, State.live_host, State.locateImage_live]

/-- RUN issued by DECODE_FILE reads its operands from the host's registers (R158). -/
theorem issueRun_live (s : State) : s.live.issueRun.live = s.issueRun.live := by
  have hL := s.live_L
  have hS : s.live.host.S = s.host.S := by rw [State.live_host]
  rcases issueRun_cases s with ⟨h, e⟩ | ⟨h, e⟩ <;>
    rcases issueRun_cases s.live with ⟨h', e'⟩ | ⟨h', e'⟩ <;> rw [hL, hS] at h'
  · rw [e, e']
    exact State.live_eq_of_inputs (by simp [State.inputs]) (.inr ⟨_, rfl⟩)
  · omega
  · omega
  · rw [e, e', hS]
    exact startAssemble_live (by simp) (by simp) (by simp) (by simp) _ _ fun _ => ⟨by simp, by simp⟩

theorem decodeFile_live (s : State) :
    mapNext State.live (exec .decodeFile s.live) = mapNext State.live (exec .decodeFile s) := by
  refine whenNotRunning_live fun _ => ?_
  rw [State.fileStages_live]
  cases s.fileStages with
  | error e => rfl
  | ok u =>
    have hwait : ∀ v : State, (v.mapHost fun h => { h with job := .awaitRun }).live =
        v.live.mapHost fun h => { h with job := .awaitRun } := fun v => (v.mapHost_live _).symm
    exact congrArg Except.ok ((hwait _).trans (by rw [issueRun_live, ← hwait]; rfl))

/-- Every instruction, run on the live registers, gives what it gives on the state. -/
theorem exec_live (i : Instr) (s : State) : mapNext State.live (exec i s.live) = mapNext State.live (exec i s) := by
  cases i with
  | clear => exact codeStep_live (code := State.CLR) rfl (fun _ => rfl) (fun _ => rfl) (fun _ => rfl) s
  | eoi => exact codeStep_live (code := State.EOIC) rfl (fun _ => rfl) (fun _ => rfl) (fun _ => rfl) s
  | known c =>
    exact codeStep_live (code := fun _ => c) rfl (fun _ => rfl) (fun _ => rfl) (State.knownStep_withoutAssembler c) s
  | kwkwk c =>
    exact codeStep_live (code := fun _ => c) rfl (fun _ => rfl) (fun _ => rfl) (State.kwkwkStep_withoutAssembler c) s
  | corrupt c => exact codeStep_live (code := fun _ => c) rfl (fun _ => rfl) (fun _ => rfl) (fun _ => rfl) s
  | data p => exact data_live p s
  | term => exact term_live s
  | pk10 g r st e =>
    exact congrArg Host.Outcome.next (s.live_mapHost_live fun h =>
      { h with reply := .stageDone, screen := h.screen.withPk10 g r st e })
  | pk9 lct il st rs e =>
    exact congrArg Host.Outcome.next (s.live_mapHost_live fun h =>
      { h with reply := .stageDone, image := h.image.withPk9 lct il st rs e })
  | sep => exact sep_live s
  | mcs m => exact mcs_live m s
  | rd8 a => rw [exec, exec, execRd8, execRd8, State.readByte_live]; exact read_live s _
  | rd16le a => rw [exec, exec, execRd16le, execRd16le, State.readWord_live]; exact read_live s _
  | rdbits a st n =>
    rw [exec, exec, execRdbits, execRdbits, State.readField_live]
    split_ifs
    · exact read_live s _
    · rfl
  | assemble p => exact assemble_live p s
  | decode bits m n => exact decode_live bits m n s
  | run sp n => exact run_live sp n s
  | parseHeader => exact stage_live s.parseHeader_live
  | extractGct e => exact stage_live (s.extractGct_live e)
  | locateImage g => exact stage_live (s.locateImage_live g)
  | buildGrid colors w => exact stage_live (s.buildGrid_live colors w)
  | decodeFile => exact decodeFile_live s

/-! ## The step on the live registers -/

theorem State.live_loadBuffer (s : State) (f : List Byte) : s.live.loadBuffer f = (s.loadBuffer f).live := by
  cases hs : s.status <;> simp only [State.live, State.inputs, State.withoutAssembler, State.loadBuffer, hs]

/-- What a fetch found, on the live registers. -/
def Fetched.live : Fetched → Fetched
  | .run i s => .run i s.live
  | .done s => .done s.live
  | .refuse r => .refuse r
  | .nothing => .nothing

/-- What a step makes of what the fetch found. -/
def Fetched.outcome : Fetched → Host.Outcome State Fault Refusal
  | .run i s => exec i s
  | .done s => .next s
  | .refuse r => .refused r
  | .nothing => .fault .noStepEnabled

theorem step_eq_outcome (s : State) : step s = (fetch s).outcome := by
  unfold step
  cases fetch s <;> rfl

theorem Fetched.outcome_live (x : Fetched) : mapNext State.live x.live.outcome = mapNext State.live x.outcome := by
  cases x with
  | run i s => exact exec_live i s
  | done s => exact congrArg Host.Outcome.next s.live_live
  | refuse r => rfl
  | nothing => rfl

theorem State.headerOffset_live (s : State) (k : HeaderKind) : s.live.headerOffset k = s.headerOffset k := by
  cases k <;> simp [State.headerOffset]

theorem fetchHeader_live (k : HeaderKind) (s : State) : fetchHeader k s.live = (fetchHeader k s).live := by
  rw [fetchHeader, fetchHeader, State.headerOffset_live]
  cases s.headerOffset k with
  | none => exact congrArg Fetched.done (s.live_hostFail _)
  | some a =>
    simp only [State.bytesAt_live]
    cases decode (.header k) (.bytes (s.bytesAt a 1)) with
    | ok i => rfl
    | error e => exact congrArg Fetched.done (s.live_hostFail _)

theorem fetchRequest_live (r : Request) (s : State) : fetchRequest r s.live = (fetchRequest r s).live := by
  cases r with
  | load file =>
    cases file with
    | none => exact congrArg Fetched.done (s.live_hostFail _)
    | some f => exact congrArg Fetched.done (by rw [State.live_loadBuffer, State.live_replyWith])
  | header k => exact fetchHeader_live k s
  | command i =>
    rw [fetchRequest, fetchRequest]
    split_ifs <;> rfl

theorem fetchQueue_live (s : State) : fetchQueue s.live = (fetchQueue s).live := by
  cases hq : s.host.queue with
  | nil => rw [fetchQueue_nil hq, fetchQueue_nil (by simpa using hq)]; rfl
  | cons r q =>
    rw [fetchQueue_cons hq, fetchQueue_cons (q := q) (by simpa using hq), State.live_popQueue, fetchRequest_live]

/-- The host's move reads its own registers, the phase, and `out` after DONE (R44). -/
theorem fetchHost_live (s : State) : fetchHost s.live = (fetchHost s).live := by
  cases hj : s.host.job with
  | none => rw [fetchHost_of_no_job hj, fetchHost_of_no_job (by simpa using hj), fetchQueue_live]
  | awaitRun =>
    cases hs : s.status with
    | done => simp [fetchHost, hj, hs, State.live_out hs, State.live_endJob, Fetched.live]
    | fault r => simp [fetchHost, hj, hs, State.live_hostFail, Fetched.live]
    | idle | assembling | decoding => simp [fetchHost, hj, hs, fetchQueue_live]

/-- A step on the live registers gives what it gives on the state: it reads no other register before writing it. -/
theorem step_live (s : State) : mapNext State.live (step s.live) = mapNext State.live (step s) := by
  rw [step_eq_outcome, step_eq_outcome]
  cases hr : s.status.running with
  | false =>
    rw [fetch_of_not_running hr, fetch_of_not_running (by simpa using hr), fetchHost_live, Fetched.outcome_live]
  | true =>
    obtain hs | hs := Status.running_iff.1 hr
    · rw [fetch_of_assembling hs, fetch_of_assembling (s.live_status.trans hs), fetchRecord, fetchRecord,
        State.bytesAt_live, State.live_ap hs]
      cases decode .record (.bytes (s.bytesAt s.ap Config.longestRecord)) with
      | ok i => exact exec_live i s
      | error e => exact congrArg Host.Outcome.next (s.live_raise _)
    · have hctx : s.live.codeCtx = s.codeCtx := by rw [State.live_of_decoding hs]; rfl
      have hbits : s.live.bitsAt s.live.bp s.live.cw = s.bitsAt s.bp s.cw := by rw [State.live_of_decoding hs]; rfl
      rw [fetch_of_decoding hs, fetch_of_decoding (s.live_status.trans hs), fetchCode, fetchCode, hctx, hbits]
      cases decode s.codeCtx (.bits (s.bitsAt s.bp s.cw)) with
      | ok i => exact exec_live i s
      | error e => exact congrArg Host.Outcome.next (s.live_raise _)

theorem step_eq_of_live {s t : State} (h : s.live = t.live) :
    mapNext State.live (step s) = mapNext State.live (step t) := by
  rw [← step_live s, h, step_live t]

theorem core_run_succ_fault (k : Nat) {s : State} {f : Fault} (h : step s = .fault f) :
    core.run (k + 1) s = .fault f := by
  have h' : core.step s = .fault f := h
  simp only [Host.Core.run, h']

theorem core_run_succ_refused (k : Nat) {s : State} {r : Refusal} (h : step s = .refused r) :
    core.run (k + 1) s = .refused r := by
  have h' : core.step s = .refused r := h
  simp only [Host.Core.run, h']

/-- Machines with the same live registers have the same live registers after any number of steps. -/
theorem run_eq_of_live (k : Nat) : ∀ {s t : State}, s.live = t.live →
    mapNext State.live (core.run k s) = mapNext State.live (core.run k t) := by
  induction k with
  | zero => exact fun h => congrArg Host.Outcome.next h
  | succ k ih =>
    intro s t h
    obtain ⟨u, v, hs, ht, huv⟩ | ⟨f, hs, ht⟩ | ⟨r, hs, ht⟩ := mapNext_eq (step_eq_of_live h)
    · rw [core_run_succ k hs, core_run_succ k ht]
      exact ih huv
    · rw [core_run_succ_fault k hs, core_run_succ_fault k ht]
    · rw [core_run_succ_refused k hs, core_run_succ_refused k ht]

/-! ## What the host sees -/

theorem State.observe_live (s : State) : s.live.observe = s.observe := by
  cases hs : s.status <;> simp [State.observe, hs, State.live_out]

/-- Machines with the same live registers look the same to the host. -/
theorem sameToHost_of_live {s t : State} (h : s.live = t.live) : SameToHost s t where
  maxw := by simpa using congrArg State.MAXW h
  buf := by simpa using congrArg State.BUF h
  len := by simpa using congrArg State.L h
  host := by simpa using congrArg State.host h
  seen := by simpa [State.observe_live] using congrArg State.observe h

/-- The observation between runs is the phase, and `out` after DONE (R44). -/
theorem status_eq_of_observe {s t : State} (hs : s.status.running = false) (ht : t.status.running = false)
    (h : s.observe = t.observe) : s.status = t.status ∧ (s.status = .done → s.out = t.out) := by
  unfold State.observe at h
  cases hs' : s.status <;> cases ht' : t.status <;> simp_all [Status.running]

/-- Between runs what the host sees is all that is live (R42, R44). -/
theorem live_eq_of_sameToHost {s t : State} (hs : s.status.running = false) (ht : t.status.running = false)
    (h : SameToHost s t) : s.live = t.live := by
  obtain ⟨hmaxw, hbuf, hlen, hhost, hseen⟩ := h
  obtain ⟨hst, hout⟩ := status_eq_of_observe hs ht hseen
  have hinputs : s.inputs = t.inputs := by simp [State.inputs, hmaxw, hbuf, hlen, hhost, hst]
  cases hs' : s.status with
  | idle => exact State.live_eq_of_inputs hinputs (.inl hs')
  | fault r => exact State.live_eq_of_inputs hinputs (.inr ⟨r, hs'⟩)
  | done => rw [State.live_of_done hs', State.live_of_done (hst ▸ hs'), hinputs, hout hs']
  | assembling | decoding => rw [hs'] at hs; cases hs

theorem sameOutcome_of_live {o o' : Host.Outcome State Fault Refusal}
    (h : mapNext State.live o = mapNext State.live o') : SameOutcome o o' := by
  obtain ⟨u, v, rfl, rfl, huv⟩ | ⟨f, rfl, rfl⟩ | ⟨r, rfl, rfl⟩ := mapNext_eq h
  · exact sameToHost_of_live huv
  · rfl
  · rfl

/-- Settles O59: between runs the live registers are what the host sees, and steps keep their agreement. -/
theorem nothingSurvivesARun : Obligations.NothingSurvivesARun := fun k _ _ hs ht h =>
  sameOutcome_of_live (run_eq_of_live k (live_eq_of_sameToHost hs ht h))

end Sys2Proof.Machine
end

section
/-! PROOF. The buffer's form (R38, R50) and the step's choice of instruction (R21, R35, R112, R132): settles O60, O11 and O12. -/

namespace Sys2Proof.Machine

/-! ## The buffer's form -/

theorem Memory.read_cons (k : Nat) (b : Byte) (m : Memory) (a : Nat) :
    Memory.read ((k, b) :: m) a = if k = a then b else m.read a := rfl

/-- The byte written is read back: where it is zero, its address is listed no more. -/
theorem Memory.read_write_same {m : Memory} (hm : m.wf) (a : Nat) (b : Byte) : (m.write a b).read a = b := by
  induction m with
  | nil =>
    rw [Memory.write]
    split_ifs with hb
    · exact hb.symm
    · exact if_pos rfl
  | cons d m ih =>
    obtain ⟨j, c⟩ := d
    obtain ⟨hlt, _, hwf⟩ := Memory.wf_cons.1 hm
    rw [Memory.write]
    split_ifs with haj hb haj' hb
    · rw [hb]
      exact Memory.read_of_forall_lt (List.forall_mem_cons.2 ⟨haj, fun e he => haj.trans (hlt e he)⟩)
    · exact if_pos rfl
    · rw [hb]
      exact Memory.read_of_forall_lt (haj' ▸ hlt)
    · exact if_pos rfl
    · rw [Memory.read_cons, if_neg (Ne.symm haj'), ih hwf]

/-- No other byte changes. -/
theorem Memory.read_write_ne {a k : Nat} (hk : k ≠ a) (m : Memory) (b : Byte) : (m.write a b).read k = m.read k := by
  induction m with
  | nil =>
    rw [Memory.write]
    split_ifs
    · rfl
    · exact if_neg hk.symm
  | cons d m ih =>
    obtain ⟨j, c⟩ := d
    rw [Memory.write]
    split_ifs with haj hb haj' hb
    · rfl
    · exact if_neg hk.symm
    · exact (if_neg (haj' ▸ hk.symm)).symm
    · subst haj'
      rw [Memory.read_cons, Memory.read_cons, if_neg hk.symm, if_neg hk.symm]
    · rw [Memory.read_cons, Memory.read_cons, ih]

/-- The cells of a canonical buffer are the addresses that do not read zero, each with what it reads. -/
theorem Memory.mem_iff_read {m : Memory} (hm : m.wf) (c : Host.Cell) : c ∈ m ↔ m.read c.1 = c.2 ∧ c.2 ≠ 0 := by
  induction m with
  | nil => simpa [Memory.read] using fun h : 0 = c.2 => h.symm
  | cons d m ih =>
    obtain ⟨k, b⟩ := d
    obtain ⟨a, v⟩ := c
    obtain ⟨hlt, hb, hwf⟩ := Memory.wf_cons.1 hm
    rw [List.mem_cons, Memory.read_cons, ih hwf]
    by_cases hk : k = a
    · subst hk
      have hzero : Memory.read m k = 0 := Memory.read_of_forall_lt hlt
      rw [if_pos rfl, hzero]
      constructor
      · rintro (hcell | ⟨hv, hne⟩)
        · cases hcell; exact ⟨rfl, hb⟩
        · exact absurd hv.symm hne
      · rintro ⟨rfl, _⟩
        exact .inl rfl
    · rw [if_neg hk]
      exact or_iff_right fun hcell => hk (Prod.mk.inj hcell).1.symm

/-- Canonical buffers that read alike are the same data: both list the same cells, in the order of the addresses. -/
theorem Memory.ext_read {m n : Memory} (hm : m.wf) (hn : n.wf) (h : ∀ a, m.read a = n.read a) : m = n := by
  have hirrefl : Std.Irrefl (fun x y : Host.Cell => x.1 < y.1) := ⟨fun _ => lt_irrefl _⟩
  have hanti : Std.Antisymm (fun x y : Host.Cell => x.1 < y.1) := ⟨fun _ _ hxy hyx => absurd hxy hyx.asymm⟩
  refine hm.1.eq_of_mem_iff hn.1 fun c => ?_
  rw [Memory.mem_iff_read hm, Memory.mem_iff_read hn, h]

/-- Settles O60: by what a write does to each address, and by the cells that a canonical buffer must have. -/
theorem bufferFormIsCanonical : Obligations.BufferFormIsCanonical := by
  refine ⟨fun m a b hm => ⟨Memory.write_wf a b hm, fun k => ?_⟩, fun m n hm hn h => Memory.ext_read hm hn h⟩
  split_ifs with hk
  · rw [hk, Memory.read_write_same hm]
  · exact Memory.read_write_ne hk m b

/-! ## The step's choice of instruction -/

theorem fetchRecord_of_decode {s : State} {i : Instr} (h : decode .record (.bytes (s.bytesAt s.ap 256)) = .ok i) :
    fetchRecord s = .run i s := by
  unfold fetchRecord
  rw [show Config.longestRecord = 256 from rfl, h]

theorem fetchCode_of_decode {s : State} {i : Instr}
    (h : decode (.code s.cw s.N s.T.length) (.bits (s.bitsAt s.bp s.cw)) = .ok i) : fetchCode s = .run i s := by
  unfold fetchCode State.codeCtx
  rw [h]

theorem fetchHeader_of_decode {s : State} {k : HeaderKind} {a : Nat} {i : Instr} (ha : s.headerOffset k = some a)
    (h : decode (.header k) (.bytes (s.bytesAt a 1)) = .ok i) : fetchHeader k s = .run i s := by
  unfold fetchHeader
  simp only [ha, h]

/-- Settles O11: in each phase the fetch gives the decoded instruction, and the step runs it. -/
theorem stepRunsDecodedInstruction : Obligations.StepRunsDecodedInstruction := by
  refine ⟨fun s i ha hdec => ?_, fun s i hd hdec => ?_, fun s i q hr hj hq hi => ?_,
    fun s k a i q hr hj hq hoff hdec => ?_⟩
  · exact step_of_run ((fetch_of_assembling ha).trans (fetchRecord_of_decode hdec))
  · exact step_of_run ((fetch_of_decoding hd).trans (fetchCode_of_decode hdec))
  · rw [← State.popQueue_eq hq]
    exact step_of_run ((fetch_of_request hr hj hq).trans (if_pos hi))
  · rw [← State.popQueue_eq hq]
    have hoff' : s.popQueue.headerOffset k = some a := by cases k <;> exact hoff
    have hhead : fetchHeader k s.popQueue = .run i s.popQueue := fetchHeader_of_decode hoff' hdec
    exact step_of_run ((fetch_of_request hr hj hq).trans hhead)

/-- Settles O12: the fetch finds nothing. -/
theorem noStepWithoutRunOrRequest : Obligations.NoStepWithoutRunOrRequest := fun s hr hj hq =>
  step_of_nothing (by rw [fetch_of_not_running hr, fetchHost_of_no_job hj, fetchQueue_nil hq])

end Sys2Proof.Machine
end

section
/-! PROOF. Bits, the numbers they give and the payload bytes they are packed into (R8, R52, R53, R87): settles O9. -/

namespace Sys2Proof

/-! ## A number and its bits (R53, R87) -/

theorem bitsValue_valueBits {w v : Nat} (h : v < 2 ^ w) : bitsValue (valueBits w v) = v := by
  induction w generalizing v with
  | zero => simp [valueBits, bitsValue, Nat.lt_one_iff.mp h]
  | succ w ih =>
    have hhalf : v / 2 < 2 ^ w := by omega
    have hbit : (decide (v % 2 = 1)).toNat = v % 2 := by
      rcases Nat.mod_two_eq_zero_or_one v with h0 | h1
      · simp [h0]
      · simp [h1]
    rw [valueBits, bitsValue, ih hhalf, hbit, Nat.mod_add_div]

@[simp] theorem valueBits_zero (w : Nat) : valueBits w 0 = List.replicate w false := by
  induction w with
  | zero => rfl
  | succ w ih => simp [valueBits, ih, List.replicate_succ]

/-- Written at a width that holds them, the bits of a sequence's value are the sequence, zero bits above. -/
theorem valueBits_bitsValue {w : Nat} {bs : List Bool} (h : bs.length ≤ w) :
    valueBits w (bitsValue bs) = bs ++ List.replicate (w - bs.length) false := by
  induction bs generalizing w with
  | nil => simp [bitsValue]
  | cons b bs ih =>
    obtain ⟨w, rfl⟩ : ∃ n, w = n + 1 := Nat.exists_eq_add_one.mpr (Nat.zero_lt_of_lt (List.length_cons ▸ h))
    have hlow : decide ((b.toNat + 2 * bitsValue bs) % 2 = 1) = b := by cases b <;> simp
    have hhigh : (b.toNat + 2 * bitsValue bs) / 2 = bitsValue bs := by have := b.toNat_le; omega
    rw [bitsValue, valueBits, hlow, hhigh, ih (by simpa using h)]
    simp

theorem valueBits_eq_map_testBit (w v : Nat) : valueBits w v = (List.range w).map v.testBit := by
  induction w generalizing v with
  | zero => rfl
  | succ w ih =>
    rw [valueBits, ih, List.range_succ_eq_map, List.map_cons, List.map_map, Nat.testBit_zero]
    simp [Function.comp_def, Nat.testBit_succ]

/-! ## Payload bytes (R52, R87) -/

theorem sbit_eq_testBit (b : Byte) (j : Nat) : sbit b j = b.toNat.testBit j :=
  Nat.testBit_eq_decide_div_mod_eq.symm

/-- The stream bits of a byte are the 8 low bits of the number it was made from (R8, R52). -/
theorem byteBits_ofNat (v : Nat) : byteBits (BitVec.ofNat 8 v) = valueBits 8 v := by
  rw [byteBits, valueBits_eq_map_testBit]
  refine List.map_congr_left fun j hj => ?_
  rw [sbit_eq_testBit, BitVec.toNat_ofNat, Nat.testBit_mod_two_pow]
  simp [List.mem_range.mp hj]

@[simp] theorem packBytes_nil : packBytes [] = [] := rfl

/-- Packing takes the next 8 bits for each byte, and for the last byte the bits that are left. -/
theorem packBytes_of_ne_nil {bs : List Bool} (h : bs ≠ []) :
    packBytes bs = BitVec.ofNat 8 (bitsValue (bs.take 8)) :: packBytes (bs.drop 8) := by
  have hpos : 0 < bs.length := List.length_pos_iff.mpr h
  have hcount : (bs.length + 7) / 8 = (bs.length - 8 + 7) / 8 + 1 := by omega
  rw [packBytes, packBytes, List.length_drop, hcount, List.range_succ_eq_map]
  simp [List.drop_drop, Nat.mul_succ, Nat.add_comm]

/-- Unpacking undoes packing, up to the zero bits that fill the last byte: by induction on the bits, 8 at a time. -/
theorem bytesBits_packBytes (bs : List Bool) :
    bytesBits (packBytes bs) = bs ++ List.replicate (8 * ((bs.length + 7) / 8) - bs.length) false := by
  by_cases hnil : bs = []
  · subst hnil; rfl
  have hpos : 0 < bs.length := List.length_pos_iff.mpr hnil
  have hhead : byteBits (BitVec.ofNat 8 (bitsValue (bs.take 8))) =
      bs.take 8 ++ List.replicate (8 - bs.length) false := by
    rw [byteBits_ofNat, valueBits_bitsValue (List.length_take_le 8 bs), List.length_take]
    congr 2; omega
  have hrest := bytesBits_packBytes (bs.drop 8)
  rw [packBytes_of_ne_nil hnil, bytesBits, List.flatMap_cons, ← bytesBits, hhead, hrest, List.length_drop]
  rcases Nat.le_total bs.length 8 with hshort | hlong
  · have hpad : 8 * ((bs.length + 7) / 8) - bs.length = 8 - bs.length := by omega
    simp [List.take_of_length_le hshort, List.drop_of_length_le hshort, hpad, Nat.sub_eq_zero_of_le hshort]
  · have hpad : 8 * ((bs.length - 8 + 7) / 8) - (bs.length - 8) = 8 * ((bs.length + 7) / 8) - bs.length := by omega
    rw [hpad, Nat.sub_eq_zero_of_le hlong, List.replicate_zero, List.append_nil, ← List.append_assoc,
      List.take_append_drop]
termination_by bs.length
decreasing_by simp only [List.length_drop]; omega

/-- Settles O9: unpacking undoes packing byte by byte, and a number is the value of its bits. -/
theorem packedBitsUnpackAndCodesKeepTheirValue : Obligations.PackedBitsUnpackAndCodesKeepTheirValue :=
  ⟨bytesBits_packBytes, fun w v hv => ⟨bitsValue_valueBits hv, valueBits_length w v⟩⟩

end Sys2Proof
end

section
/-! PROOF. Encoder and decoder of records, codes and header bytes, each the other's inverse (R70 to R80, R87): settles O6, O7, O8 and O10. -/

namespace Sys2Proof

/-! ## The value of the bits of a code (R53) -/

theorem bitsValue_lt (bs : List Bool) : bitsValue bs < 2 ^ bs.length := by
  induction bs with
  | nil => decide
  | cons b bs ih =>
    have hb := b.toNat_le
    rw [bitsValue, List.length_cons, Nat.pow_succ']
    omega

theorem bitsValue_take_lt (w : Nat) (bs : List Bool) : bitsValue (bs.take w) < 2 ^ w :=
  (bitsValue_lt _).trans_le (Nat.pow_le_pow_right two_pos (List.length_take_le w bs))

/-- The value of the first `w` bits of a stream, written out as the sum of R53. -/
theorem bitsValue_take (w : Nat) (bs : List Bool) :
    bitsValue (bs.take w) = ((List.range w).map fun k => (bs[k]?.getD false).toNat * 2 ^ k).sum := by
  induction w generalizing bs with
  | zero => rfl
  | succ w ih =>
    cases bs with
    | nil => simp [bitsValue]
    | cons b bs =>
      have hshift : ((List.range w).map fun k => (bs[k]?.getD false).toNat * 2 ^ (k + 1)).sum =
          2 * bitsValue (bs.take w) := by
        rw [ih, ← List.sum_map_mul_left]
        simp only [Nat.pow_succ', Nat.mul_left_comm]
      rw [List.take_succ_cons, bitsValue, List.range_succ_eq_map, List.map_cons, List.map_map, List.sum_cons, ← hshift]
      simp [Function.comp_def]

/-! ## Codes (R73, R75) -/

/-- The five ordered tests, each with the instruction it selects. -/
theorem codeInstr_eq (n tlen v : Nat) : codeInstr n tlen v =
    if v = n then .clear else if v = n + 1 then .eoi else if v < tlen then .known v
      else if v = tlen then .kwkwk v else .corrupt v := by
  unfold codeInstr classify
  split_ifs <;> rfl

/-- A code context holds exactly the instructions the code map gives to the values that fit in its width. -/
theorem wfIn_code_iff {cw n tlen : Nat} {i : Instr} :
    i.wfIn (.code cw n tlen) = true ↔ ∃ v, v < 2 ^ cw ∧ i = codeInstr n tlen v := by
  constructor
  · intro h
    cases i with
    | clear => exact ⟨n, of_decide_eq_true h, by simp [codeInstr_eq]⟩
    | eoi => exact ⟨n + 1, of_decide_eq_true h, by simp [codeInstr_eq]⟩
    | known c =>
      obtain ⟨hclr, heoi, hlt, hfit⟩ := of_decide_eq_true h
      exact ⟨c, hfit, by simp [codeInstr_eq, hclr, heoi, hlt]⟩
    | kwkwk c =>
      obtain ⟨hclr, heoi, rfl, hfit⟩ := of_decide_eq_true h
      exact ⟨c, hfit, by simp [codeInstr_eq, hclr, heoi]⟩
    | corrupt c =>
      obtain ⟨hclr, heoi, hlt, hfit⟩ := of_decide_eq_true h
      exact ⟨c, hfit, by simp [codeInstr_eq, hclr, heoi, hlt.not_gt, hlt.ne']⟩
    | data | term | pk10 | pk9 | sep | mcs | rd8 | rd16le | rdbits | assemble | decode | run | parseHeader | extractGct
    | locateImage | buildGrid | decodeFile => cases h
  · rintro ⟨v, hv, rfl⟩
    rw [codeInstr_eq]
    split_ifs with hclr heoi hlt heq
    · exact decide_eq_true (hclr ▸ hv)
    · exact decide_eq_true (heoi ▸ hv)
    · exact decide_eq_true ⟨hclr, heoi, hlt, hv⟩
    · exact decide_eq_true ⟨hclr, heoi, heq, hv⟩
    · exact decide_eq_true ⟨hclr, heoi, by omega, hv⟩

/-- Whatever its class, a code is encoded as the bits of its value. -/
theorem encode_codeInstr {cw n tlen v : Nat} (hv : v < 2 ^ cw) :
    encode (.code cw n tlen) (codeInstr n tlen v) = .ok (.bits (valueBits cw v)) := by
  have hwf : (codeInstr n tlen v).wfIn (.code cw n tlen) = true := wfIn_code_iff.mpr ⟨v, hv, rfl⟩
  rw [codeInstr_eq] at hwf ⊢
  split_ifs at hwf ⊢ with hclr heoi hlt heq
  · rw [hclr]; exact if_pos hwf
  · rw [heoi]; exact if_pos hwf
  · exact if_pos hwf
  · exact if_pos hwf
  · exact if_pos hwf

theorem decodeCode_of_le {cw n tlen : Nat} {bs : List Bool} (h : cw ≤ bs.length) :
    decodeCode cw n tlen bs = .ok (codeInstr n tlen (bitsValue (bs.take cw))) := if_neg (Nat.not_lt.mpr h)

/-- The decoder of codes looks at the first `cw` bits alone. -/
theorem decodeCode_take (cw n tlen : Nat) (bs : List Bool) :
    decodeCode cw n tlen (bs.take cw) = decodeCode cw n tlen bs := by
  simp [decodeCode, List.take_take]

theorem decodeCode_valueBits_append {cw n tlen v : Nat} (hv : v < 2 ^ cw) (rest : List Bool) :
    decodeCode cw n tlen (valueBits cw v ++ rest) = .ok (codeInstr n tlen v) := by
  rw [decodeCode_of_le (by simp), List.take_left' (valueBits_length cw v), bitsValue_valueBits hv]

/-- The code at the head of a stream is encoded as the bits it was read from. -/
theorem encode_codeInstr_take {cw n tlen : Nat} {bs : List Bool} (h : cw ≤ bs.length) :
    encode (.code cw n tlen) (codeInstr n tlen (bitsValue (bs.take cw))) = .ok (.bits (bs.take cw)) := by
  have hlen : (bs.take cw).length = cw := List.length_take_of_le h
  rw [encode_codeInstr (bitsValue_take_lt cw bs), valueBits_bitsValue hlen.le, hlen]
  simp

/-! ## Records (R71, R72) -/

theorem decodeRecord_zero (rest : List Byte) : decodeRecord (0 :: rest) = .ok .term := rfl

theorem decodeRecord_of_le {n : Byte} {rest : List Byte} (hn : n ≠ 0) (h : n.toNat ≤ rest.length) :
    decodeRecord (n :: rest) = .ok (.data (rest.take n.toNat)) := by
  rw [decodeRecord, if_neg hn, if_neg (Nat.not_lt.mpr h)]

theorem legalPayload_iff {payload : List Byte} :
    legalPayload payload = true ↔ 1 ≤ payload.length ∧ payload.length ≤ 255 := decide_eq_true_iff

/-- A length byte that is not 0 is the length of a legal payload. -/
theorem legalPayload_of_length_eq {n : Byte} {payload : List Byte} (hn : n ≠ 0) (h : payload.length = n.toNat) :
    legalPayload payload = true := by
  have hpos : n.toNat ≠ 0 := fun h0 => hn (BitVec.eq_of_toNat_eq h0)
  have hlt := n.isLt
  exact legalPayload_iff.mpr (by omega)

theorem encode_data {payload : List Byte} (h : legalPayload payload = true) :
    encode .record (.data payload) = .ok (.bytes (recordBytes payload)) := if_pos h

theorem decodeRecord_recordBytes_append {payload : List Byte} (h : legalPayload payload = true) (rest : List Byte) :
    decodeRecord (recordBytes payload ++ rest) = .ok (.data payload) := by
  obtain ⟨hpos, hmax⟩ := legalPayload_iff.mp h
  have hlen : (BitVec.ofNat 8 payload.length).toNat = payload.length := Nat.mod_eq_of_lt (by omega)
  have hne : BitVec.ofNat 8 payload.length ≠ 0 := fun h0 => by simp [h0] at hlen; omega
  rw [recordBytes, List.cons_append, decodeRecord_of_le hne (by simp [hlen]), hlen, List.take_left]

/-! ## Header bytes (R77 to R80) -/

theorem encode_pk10 (g : BitVec 1) (r : BitVec 3) (st : BitVec 1) (e : BitVec 3) :
    encode (.header .pk10) (.pk10 g r st e) = .ok (.bytes [pk10Byte g r st e]) := rfl

theorem encode_pk9 (lct il st : BitVec 1) (rs : BitVec 2) (e : BitVec 3) :
    encode (.header .pk9) (.pk9 lct il st rs e) = .ok (.bytes [pk9Byte lct il st rs e]) := rfl

theorem decodeHeader_pk10Byte (g : BitVec 1) (r : BitVec 3) (st : BitVec 1) (e : BitVec 3) :
    decodeHeader .pk10 (pk10Byte g r st e) = .ok (.pk10 g r st e) := by
  have hg := g.isLt
  have hr := r.isLt
  have hst := st.isLt
  have he := e.isLt
  have hbyte : (pk10Byte g r st e).toNat = 128 * g.toNat + 16 * r.toNat + 8 * st.toNat + e.toNat :=
    Nat.mod_eq_of_lt (by omega)
  have hg' : byteField (pk10Byte g r st e) 0 1 = g.toNat := by rw [byteField, hbyte]; omega
  have hr' : byteField (pk10Byte g r st e) 1 3 = r.toNat := by rw [byteField, hbyte]; omega
  have hst' : byteField (pk10Byte g r st e) 4 1 = st.toNat := by rw [byteField, hbyte]; omega
  have he' : byteField (pk10Byte g r st e) 5 3 = e.toNat := by rw [byteField, hbyte]; omega
  simp [decodeHeader, hg', hr', hst', he']

theorem decodeHeader_pk9Byte (lct il st : BitVec 1) (rs : BitVec 2) (e : BitVec 3) :
    decodeHeader .pk9 (pk9Byte lct il st rs e) = .ok (.pk9 lct il st rs e) := by
  have hlct := lct.isLt
  have hil := il.isLt
  have hst := st.isLt
  have hrs := rs.isLt
  have he := e.isLt
  have hbyte : (pk9Byte lct il st rs e).toNat =
      128 * lct.toNat + 64 * il.toNat + 32 * st.toNat + 8 * rs.toNat + e.toNat := Nat.mod_eq_of_lt (by omega)
  have hlct' : byteField (pk9Byte lct il st rs e) 0 1 = lct.toNat := by rw [byteField, hbyte]; omega
  have hil' : byteField (pk9Byte lct il st rs e) 1 1 = il.toNat := by rw [byteField, hbyte]; omega
  have hst' : byteField (pk9Byte lct il st rs e) 2 1 = st.toNat := by rw [byteField, hbyte]; omega
  have hrs' : byteField (pk9Byte lct il st rs e) 3 2 = rs.toNat := by rw [byteField, hbyte]; omega
  have he' : byteField (pk9Byte lct il st rs e) 5 3 = e.toNat := by rw [byteField, hbyte]; omega
  simp [decodeHeader, hlct', hil', hst', hrs', he']

/-- A bit field of a byte, as a word of its width, is that number. -/
theorem toNat_ofNat_byteField (b : Byte) (st n : Nat) :
    (BitVec.ofNat n (byteField b st n)).toNat = byteField b st n := by
  rw [BitVec.toNat_ofNat, byteField, Nat.mod_mod]

/-- The four fields of `GRRRSEEE` are the whole byte. -/
theorem pk10Byte_byteField (b : Byte) :
    pk10Byte (.ofNat 1 (byteField b 0 1)) (.ofNat 3 (byteField b 1 3)) (.ofNat 1 (byteField b 4 1))
      (.ofNat 3 (byteField b 5 3)) = b := by
  have hb := b.isLt
  have hsum : 128 * byteField b 0 1 + 16 * byteField b 1 3 + 8 * byteField b 4 1 + byteField b 5 3 = b.toNat := by
    simp only [byteField]; omega
  simp only [pk10Byte, toNat_ofNat_byteField, hsum, BitVec.ofNat_toNat, BitVec.setWidth_eq]

/-- The five fields of `LISrrEEE` are the whole byte. -/
theorem pk9Byte_byteField (b : Byte) :
    pk9Byte (.ofNat 1 (byteField b 0 1)) (.ofNat 1 (byteField b 1 1)) (.ofNat 1 (byteField b 2 1))
      (.ofNat 2 (byteField b 3 2)) (.ofNat 3 (byteField b 5 3)) = b := by
  have hb := b.isLt
  have hsum : 128 * byteField b 0 1 + 64 * byteField b 1 1 + 32 * byteField b 2 1 + 8 * byteField b 3 2 +
      byteField b 5 3 = b.toNat := by
    simp only [byteField]; omega
  simp only [pk9Byte, toNat_ofNat_byteField, hsum, BitVec.ofNat_toNat, BitVec.setWidth_eq]

/-! ## What a context holds, encoded and read back -/

theorem record_encode_decode {i : Instr} (h : i.wfIn .record = true) :
    ∃ bs, encode .record i = .ok (.bytes bs) ∧ ∀ rest, decodeRecord (bs ++ rest) = .ok i := by
  cases i with
  | data payload => exact ⟨recordBytes payload, encode_data h, decodeRecord_recordBytes_append h⟩
  | term => exact ⟨[0], rfl, decodeRecord_zero⟩
  | clear | eoi | known | kwkwk | corrupt | pk10 | pk9 | sep | mcs | rd8 | rd16le | rdbits | assemble | decode | run
  | parseHeader | extractGct | locateImage | buildGrid | decodeFile => cases h

theorem code_encode_decode {cw n tlen : Nat} {i : Instr} (h : i.wfIn (.code cw n tlen) = true) :
    ∃ bs, encode (.code cw n tlen) i = .ok (.bits bs) ∧ ∀ rest, decodeCode cw n tlen (bs ++ rest) = .ok i := by
  obtain ⟨v, hv, rfl⟩ := wfIn_code_iff.mp h
  exact ⟨valueBits cw v, encode_codeInstr hv, decodeCode_valueBits_append hv⟩

theorem header_encode_decode {k : HeaderKind} {i : Instr} (h : i.wfIn (.header k) = true) :
    ∃ b, encode (.header k) i = .ok (.bytes [b]) ∧ decodeHeader k b = .ok i := by
  cases i with
  | pk10 g r st e =>
    cases k with
    | pk10 => exact ⟨_, encode_pk10 g r st e, decodeHeader_pk10Byte g r st e⟩
    | pk9 | sep | mcs => cases h
  | pk9 lct il st rs e =>
    cases k with
    | pk9 => exact ⟨_, encode_pk9 lct il st rs e, decodeHeader_pk9Byte lct il st rs e⟩
    | pk10 | sep | mcs => cases h
  | sep =>
    cases k with
    | sep => exact ⟨Config.separator, rfl, rfl⟩
    | pk10 | pk9 | mcs => cases h
  | mcs m =>
    cases k with
    | mcs => exact ⟨m, rfl, rfl⟩
    | pk10 | pk9 | sep => cases h
  | clear | eoi | known | kwkwk | corrupt | data | term | rd8 | rd16le | rdbits | assemble | decode | run | parseHeader
  | extractGct | locateImage | buildGrid | decodeFile => cases k <;> cases h

theorem Item.bytes_followedBy (bs : List Byte) (y : Item) :
    ∃ rest, (Item.bytes bs).followedBy y = .bytes (bs ++ rest) := by
  cases y with
  | bytes ys => exact ⟨ys, rfl⟩
  | bits _ => exact ⟨[], by rw [List.append_nil]; rfl⟩

theorem Item.bits_followedBy (bs : List Bool) (y : Item) :
    ∃ rest, (Item.bits bs).followedBy y = .bits (bs ++ rest) := by
  cases y with
  | bytes _ => exact ⟨[], by rw [List.append_nil]; rfl⟩
  | bits ys => exact ⟨ys, rfl⟩

/-- Reading an item back whatever follows it includes nothing following it. -/
theorem decode_of_followedBy {c : Ctx} {x : Item} {i : Instr} (h : ∀ y : Item, decode c (x.followedBy y) = .ok i) :
    decode c x = .ok i := by
  cases x with
  | bytes bs => exact h (.bits [])
  | bits bs => exact h (.bytes [])

/-- Settles O6: context by context, the reader finds the encoded instruction at the head of any continuation. -/
theorem decodeOfEncodeIsTheInstruction : Obligations.DecodeOfEncodeIsTheInstruction := by
  intro c i h
  suffices hx : ∃ x : Item, encode c i = .ok x ∧ ∀ y : Item, decode c (x.followedBy y) = .ok i from
    hx.imp fun _ hx => ⟨hx.1, decode_of_followedBy hx.2, hx.2⟩
  cases c with
  | record =>
    obtain ⟨bs, henc, hdec⟩ := record_encode_decode h
    refine ⟨.bytes bs, henc, fun y => ?_⟩
    obtain ⟨rest, hrest⟩ := Item.bytes_followedBy bs y
    rw [hrest]
    exact hdec rest
  | code cw n tlen =>
    obtain ⟨bs, henc, hdec⟩ := code_encode_decode h
    refine ⟨.bits bs, henc, fun y => ?_⟩
    obtain ⟨rest, hrest⟩ := Item.bits_followedBy bs y
    rw [hrest]
    exact hdec rest
  | header k =>
    obtain ⟨b, henc, hdec⟩ := header_encode_decode h
    refine ⟨.bytes [b], henc, fun y => ?_⟩
    obtain ⟨rest, hrest⟩ := Item.bytes_followedBy [b] y
    rw [hrest]
    exact hdec

/-! ## Every item decodes and encodes back -/

/-- Settles O7: the value of the first `cw` bits goes through the code map, and its bits are the bits read. -/
theorem everyCodeDecodesAndEncodesBack : Obligations.EveryCodeDecodesAndEncodesBack := by
  refine ⟨fun cw n tlen bs h => ?_, fun s hd hbits => ?_⟩
  · have hlt := bitsValue_take_lt cw bs
    exact ⟨bitsValue (bs.take cw), codeInstr n tlen (bitsValue (bs.take cw)), decodeCode_of_le h, bitsValue_take cw bs,
      hlt, codeInstr_eq _ _ _, fun _ _ => by omega, wfIn_code_iff.mpr ⟨_, hlt, rfl⟩, encode_codeInstr_take h⟩
  · have hlen : s.cw ≤ (s.BS.drop s.bp).length := List.length_drop ▸ Nat.le_sub_of_add_le' hbits
    have hdec := decodeCode_of_le (n := s.N) (tlen := s.T.length) hlen
    have hfetch := Machine.fetchCode_of_decode ((decodeCode_take _ _ _ _).trans hdec)
    exact ⟨_, hdec, Machine.step_of_run ((Machine.fetch_of_decoding hd).trans hfetch)⟩

/-- A DATA record cut out behind its length byte is encoded as that byte and the bytes cut out. -/
theorem encode_data_take {n : Byte} {rest : List Byte} (hn : n ≠ 0) (h : n.toNat ≤ rest.length) :
    encode .record (.data (rest.take n.toNat)) = .ok (.bytes (n :: rest.take n.toNat)) := by
  have hlen : (rest.take n.toNat).length = n.toNat := List.length_take_of_le h
  rw [encode_data (legalPayload_of_length_eq hn hlen), recordBytes, hlen, BitVec.ofNat_toNat, BitVec.setWidth_eq]

/-- Settles O8: a length byte is 0 or begins a legal payload, and a header byte is put together again from its fields. -/
theorem everyRecordAndHeaderByteDecodesAndEncodesBack : Obligations.EveryRecordAndHeaderByteDecodesAndEncodesBack := by
  refine ⟨fun n rest h => ?_, fun k b hsep => ?_, fun b hb => if_neg hb⟩
  · by_cases hn : n = 0
    · subst hn
      exact ⟨.term, decodeRecord_zero rest, rfl, rfl, fun _ => rfl, fun h0 => absurd rfl h0⟩
    · exact ⟨.data (rest.take n.toNat), decodeRecord_of_le hn h,
        legalPayload_of_length_eq hn (List.length_take_of_le h), encode_data_take hn h, fun h0 => absurd h0 hn,
        fun _ => rfl⟩
  · cases k with
    | pk10 => exact ⟨_, rfl, (encode_pk10 ..).trans (by rw [pk10Byte_byteField])⟩
    | pk9 => exact ⟨_, rfl, (encode_pk9 ..).trans (by rw [pk9Byte_byteField])⟩
    | sep => rw [hsep rfl]; exact ⟨.sep, rfl, rfl⟩
    | mcs => exact ⟨.mcs b, rfl, rfl⟩

/-- Settles O10: the decoder computes on the eleven words. -/
theorem decodesSpecWords : Obligations.DecodesSpecWords :=
  ⟨rfl, rfl, rfl, rfl, rfl, rfl, rfl, rfl, rfl, rfl, rfl⟩

end Sys2Proof
end

section
/-! PROOF. The width a counted code is read at (R76, R135): settles O33. -/

namespace Sys2Proof.Machine

/-- Settles O33: the count is `cnt` above `2^(cw-1) - 2^mcs`, with `cnt` below `2^(cw-1)`; a counted code raises it by
one, at the same width or at the next. -/
theorem widthFollowsCountedCodes : Obligations.WidthFollowsCountedCodes := by
  intro s h hd
  refine ⟨?_, fun c t hstep ht => ?_, fun t hstep ht => ?_⟩
  · have hcount : s.cnt < 2 ^ (s.cw - 1) := h.count
    have hpow := h.pow_mcs_le
    have hlow : s.mcs.toNat + 1 ≤ s.cw := h.widthLow
    have hdouble : 2 ^ s.cw = 2 * 2 ^ (s.cw - 1) := by rw [← Nat.pow_succ']; congr 1; omega
    unfold State.counted
    omega
  · obtain hk | hk := hstep
    · obtain ⟨_, ⟨_, _, rfl⟩ | ⟨_, _, _, _, _, _, _, _, _, hc, rfl⟩⟩ := known_next hk
      · cases ht
      · obtain ⟨_, _, _, hnext⟩ := h.counted_next hc
        exact hnext
    · obtain ⟨_, ⟨_, _, rfl⟩ | ⟨_, _, _, _, _, _, _, _, _, _, hc, rfl⟩⟩ := kwkwk_next hk
      · cases ht
      · obtain ⟨_, _, _, hnext⟩ := h.counted_next hc
        exact hnext
  · obtain ⟨_, ⟨_, _, rfl⟩ | ⟨_, rfl⟩⟩ := clear_next hstep
    · cases ht
    · simp [State.counted]

end Sys2Proof.Machine
end

section
/-! PROOF. What a DATA record and the header bytes do, run alone (R112, R77 to R80, R33, R156): settles O15 and O35. -/

namespace Sys2Proof.Machine

/-! ## The record at the cursor (R112) -/

/-- A DATA record that fits in the buffer: its bits are appended, and the cursor stands past it. -/
theorem exec_data_of_fits {s : State} {payload : List Byte} (ha : s.status = .assembling)
    (hp : legalPayload payload = true) (hfits : s.ap + (1 + payload.length) ≤ s.L) :
    exec (.data payload) s = .next { s with
      BS := s.BS ++ bytesBits payload, ap := s.ap + (1 + payload.length) } := by
  rw [exec, execData, if_pos hp, State.aStep_of_enabled ha hfits, commit_ok]

/-- The payload that stands in the buffer behind the length byte at `ap` (R71). -/
def State.payloadAt (s : State) : List Byte :=
  (List.range (s.BUF.read s.ap).toNat).map fun k => s.BUF.read (s.ap + 1 + k)

@[simp] theorem State.payloadAt_length (s : State) : s.payloadAt.length = (s.BUF.read s.ap).toNat := by
  simp [State.payloadAt]

theorem State.bytesBits_payloadAt (s : State) : bytesBits s.payloadAt =
    (List.range (s.BUF.read s.ap).toNat).flatMap fun k => byteBits (s.BUF.read (s.ap + 1 + k)) :=
  List.flatMap_map ..

/-- The fetch finds the record that the length byte at `ap` begins. -/
theorem decodeRecord_eq_payloadAt {s : State} (h : s.BUF.read s.ap ≠ 0)
    (hfits : s.ap + 1 + (s.BUF.read s.ap).toNat ≤ s.L) :
    decodeRecord (s.bytesAt s.ap 256) = .ok (.data s.payloadAt) := by
  rcases decodeRecord_cases s with ⟨hL, _⟩ | ⟨_, h0, _⟩ | ⟨_, _, hL, _⟩ | ⟨_, _, hdec⟩
  · omega
  · exact absurd h0 h
  · omega
  · exact hdec

/-- Settles O15: the step runs the DATA record decoded at `ap`. -/
theorem stepConsumesRecordOfTheBuffer : Obligations.StepConsumesRecordOfTheBuffer := by
  intro s ha _ h0 hfits
  have hfetch : fetch s = .run (.data s.payloadAt) s :=
    (fetch_of_assembling ha).trans (fetchRecord_of_decode (decodeRecord_eq_payloadAt h0 hfits))
  have hfits' : s.ap + (1 + s.payloadAt.length) ≤ s.L := by rw [State.payloadAt_length]; omega
  rw [step_of_run hfetch, exec_data_of_fits ha (legalPayload_of_length_eq h0 s.payloadAt_length) hfits',
    State.bytesBits_payloadAt, State.payloadAt_length, Nat.add_assoc]

/-! ## The header bytes (R77 to R80) -/

theorem State.findSeparator_eq_some {s : State} {start a : Nat} (hstart : start ≤ a) (hlt : a < s.L)
    (ha : s.BUF.read a = 0x2C) (hleast : ∀ k, start ≤ k → k < a → s.BUF.read k ≠ 0x2C) :
    s.findSeparator start = some a :=
  Memory.findSeparator_eq_some.mpr ⟨hstart, by omega, ha, hleast⟩

theorem State.findSeparator_eq_none {s : State} {start : Nat}
    (h : ∀ k, start ≤ k → k < s.L → s.BUF.read k ≠ 0x2C) : s.findSeparator start = none :=
  Memory.findSeparator_eq_none.mpr fun k hk hlt => h k hk (by omega)

theorem exec_sep_of_some {s : State} {a : Nat} (h : s.findSeparator (13 + s.host.G) = some a) :
    exec .sep s = .next { s with host := { s.host with S := a, reply := .value a } } := by
  simp only [exec, execSep, Config.headerLength, h]
  rfl

theorem exec_sep_of_none {s : State} (h : s.findSeparator (13 + s.host.G) = none) :
    exec .sep s = .next (s.hostFail .imageDescriptorNotFound) := by
  simp only [exec, execSep, Config.headerLength, h]
  rfl

/-- Settles O35: PK10 and PK9 write their fields, SEP what its scan finds, MCS its register outside a run. -/
theorem headerBytesFillRegisters : Obligations.HeaderBytesFillRegisters := by
  intro s
  refine ⟨fun g r st e => rfl, fun lct il st rs e => rfl, fun a hstart hlt ha hleast => ?_, fun hnone => ?_,
    fun m hm => ?_, fun m hm => ?_⟩
  · exact exec_sep_of_some (State.findSeparator_eq_some hstart hlt ha hleast)
  · exact exec_sep_of_none (State.findSeparator_eq_none hnone)
  · rw [exec, execMcs, State.whenNotRunning_of_not hm]; rfl
  · rw [exec, execMcs, State.whenNotRunning_of_running hm]; rfl

end Sys2Proof.Machine
end

section
/-! PROOF. The Field Reader: its answers from `BUF`, `L` and the operands alone, the bit fields of a byte, and a header byte asked for beyond the buffer (R100 to R105, R156): settles O1 to O5 and O36. -/

namespace Sys2Proof

/-! ## The bit fields of a byte (R103, R105) -/

@[simp] theorem byteField_zero_right (b : Byte) (st : Nat) : byteField b st 0 = 0 := by
  rw [byteField, Nat.pow_zero, Nat.mod_one]

/-- The range of all 8 bits is the byte. -/
theorem byteField_zero_eight (b : Byte) : byteField b 0 8 = b.toNat := by
  have hb := b.isLt
  simp only [byteField]
  omega

/-- A range of one bit is that bit. -/
theorem byteField_one (b : Byte) (st : Nat) : byteField b st 1 = (fbit b st).toNat := by
  rw [byteField, fbit, Nat.pow_one, show 8 - st - 1 = 7 - st by omega]
  rcases Nat.mod_two_eq_zero_or_one (b.toNat / 2 ^ (7 - st)) with h | h <;> simp [h]

/-- The split law: a range is its first `n` bits above its last `m`. -/
theorem byteField_add (b : Byte) {st n m : Nat} (h : st + n + m ≤ 8) :
    byteField b st (n + m) = byteField b st n * 2 ^ m + byteField b (st + n) m := by
  have hhigh : b.toNat / 2 ^ (8 - st - n) = b.toNat / 2 ^ (8 - (st + n) - m) / 2 ^ m := by
    rw [Nat.div_div_eq_div_mul, ← Nat.pow_add, show 8 - st - n = 8 - (st + n) - m + m by omega]
  rw [byteField, byteField, byteField, hhigh, show 8 - st - (n + m) = 8 - (st + n) - m by omega, Nat.add_comm n m,
    Nat.pow_add, Nat.mod_mul, Nat.mul_comm, Nat.add_comm]

/-- A range as the sum of its bits, the lower-numbered the more significant (R103). -/
theorem byteField_eq_sum (b : Byte) {st n : Nat} (h : st + n ≤ 8) :
    byteField b st n = ((List.range n).map fun i => (fbit b (st + i)).toNat * 2 ^ (n - 1 - i)).sum := by
  induction n generalizing st with
  | zero => simp
  | succ n ih =>
    have hrest : ∀ i, (fbit b (st + (i + 1))).toNat * 2 ^ (n - (i + 1)) =
        (fbit b (st + 1 + i)).toNat * 2 ^ (n - 1 - i) := fun i => by
      rw [show st + (i + 1) = st + 1 + i by omega, show n - (i + 1) = n - 1 - i by omega]
    rw [Nat.add_comm n 1, byteField_add b (by omega), byteField_one, ih (by omega), Nat.add_comm 1 n,
      List.range_succ_eq_map]
    simp [Function.comp_def, hrest]

/-- The PK10 fields make up the byte (R77). -/
theorem toNat_eq_pk10Fields (b : Byte) :
    b.toNat = 128 * byteField b 0 1 + 16 * byteField b 1 3 + 8 * byteField b 4 1 + byteField b 5 3 := by
  have h1 : byteField b 0 8 = byteField b 0 1 * 2 ^ 7 + byteField b 1 7 :=
    byteField_add b (n := 1) (m := 7) (by decide)
  have h3 : byteField b 1 7 = byteField b 1 3 * 2 ^ 4 + byteField b 4 4 :=
    byteField_add b (n := 3) (m := 4) (by decide)
  have h4 : byteField b 4 4 = byteField b 4 1 * 2 ^ 3 + byteField b 5 3 :=
    byteField_add b (n := 1) (m := 3) (by decide)
  have h8 := byteField_zero_eight b
  omega

/-- The PK9 fields make up the byte (R78). -/
theorem toNat_eq_pk9Fields (b : Byte) :
    b.toNat = 128 * byteField b 0 1 + 64 * byteField b 1 1 + 32 * byteField b 2 1 + 8 * byteField b 3 2 +
      byteField b 5 3 := by
  have h1 : byteField b 0 8 = byteField b 0 1 * 2 ^ 7 + byteField b 1 7 :=
    byteField_add b (n := 1) (m := 7) (by decide)
  have h2 : byteField b 1 7 = byteField b 1 1 * 2 ^ 6 + byteField b 2 6 :=
    byteField_add b (n := 1) (m := 6) (by decide)
  have h3 : byteField b 2 6 = byteField b 2 1 * 2 ^ 5 + byteField b 3 5 :=
    byteField_add b (n := 1) (m := 5) (by decide)
  have h5 : byteField b 3 5 = byteField b 3 2 * 2 ^ 3 + byteField b 5 3 :=
    byteField_add b (n := 2) (m := 3) (by decide)
  have h8 := byteField_zero_eight b
  omega

/-- Settles O4: the whole byte, and the split law, which gives both partitions. -/
theorem fieldReaderReadsAgree : Obligations.FieldReaderReadsAgree := fun b _ =>
  ⟨rfl, byteField_zero_eight b, fun _ _ _ h => byteField_add b h, toNat_eq_pk10Fields b, toNat_eq_pk9Fields b⟩

end Sys2Proof

namespace Sys2Proof.Machine

/-! ## The three reads (R101 to R103) -/

theorem State.readByte_of_lt {s : State} {a : Nat} (h : a < s.L) : s.readByte a = .ok (s.BUF.read a) :=
  if_neg (Nat.not_le.mpr h)

theorem State.readByte_of_le {s : State} {a : Nat} (h : s.L ≤ a) : s.readByte a = .error .malformedHeader := if_pos h

theorem State.readWord_of_le {s : State} {a : Nat} (h : a + 2 ≤ s.L) :
    s.readWord a = .ok (le16 (s.BUF.read a) (s.BUF.read (a + 1))) := if_neg (Nat.not_le.mpr h)

theorem State.readWord_of_lt {s : State} {a : Nat} (h : s.L < a + 2) : s.readWord a = .error .malformedHeader :=
  if_pos (Nat.le_of_lt_succ h)

theorem State.readField_of_lt {s : State} {a : Nat} (st n : Nat) (h : a < s.L) :
    s.readField a st n = .ok (byteField (s.BUF.read a) st n) := if_neg (Nat.not_le.mpr h)

theorem State.readField_of_le {s : State} {a : Nat} (st n : Nat) (h : s.L ≤ a) :
    s.readField a st n = .error .malformedHeader := if_pos h

/-! ## The commands (R100, R104) -/

theorem exec_rd8 (a : Nat) (s : State) :
    exec (.rd8 a) s = commit s (s.replyValue ((s.readByte a).map BitVec.toNat)) := rfl

theorem exec_rd16le (a : Nat) (s : State) : exec (.rd16le a) s = commit s (s.replyValue (s.readWord a)) := rfl

theorem exec_rdbits_of_legal {st n : Nat} (h : legalRange st n = true) (a : Nat) (s : State) :
    exec (.rdbits a st n) s = commit s (s.replyValue (s.readField a st n)) := by
  rw [exec, execRdbits, if_pos h]

theorem exec_rdbits_of_illegal {st n : Nat} (h : legalRange st n = false) (a : Nat) (s : State) :
    exec (.rdbits a st n) s = .refused .rangeNotACommand := by
  rw [exec, execRdbits, h]; rfl

/-- Settles O1: the read has a value exactly below `L`, and the command hands over what the read gives. -/
theorem rd8GivesByteOrMalformedHeader : Obligations.Rd8GivesByteOrMalformedHeader := by
  refine fun s a => ⟨fun h => ?_, fun h => ?_⟩
  · rw [exec_rd8, State.readByte_of_lt h]; rfl
  · rw [exec_rd8, State.readByte_of_le h]; rfl

/-- Settles O2: the read has a value exactly when its second byte is below `L` too. -/
theorem rd16leGivesWordOrMalformedHeader : Obligations.Rd16leGivesWordOrMalformedHeader := by
  refine fun s a => ⟨fun h => ?_, fun h => ?_⟩
  · rw [exec_rd16le, State.readWord_of_le h]; rfl
  · rw [exec_rd16le, State.readWord_of_lt h]; rfl

/-- Settles O3: the value is the byte's field, which is the sum of its bits. -/
theorem rdbitsGivesFieldOrMalformedHeader : Obligations.RdbitsGivesFieldOrMalformedHeader := by
  refine fun s a st n => ⟨fun hn hst h => ⟨byteField (s.BUF.read a) st n, ?_, rfl, byteField_eq_sum _ hst⟩,
    fun hn hst h => ?_, fun h => ?_⟩
  · rw [exec_rdbits_of_legal (decide_eq_true ⟨hn, hst⟩), State.readField_of_lt st n h]; rfl
  · rw [exec_rdbits_of_legal (decide_eq_true ⟨hn, hst⟩), State.readField_of_le st n h]; rfl
  · exact exec_rdbits_of_illegal (decide_eq_false (by omega)) a s

/-- A Field Reader command that answers hands the host one result, the same in every state with this `BUF` and `L`. -/
theorem exec_fieldReader_of_next {i : Instr} {s t : State}
    (hi : (∃ a, i = .rd8 a) ∨ (∃ a, i = .rd16le a) ∨ ∃ a st n, i = .rdbits a st n) (h : exec i s = .next t) :
    ∃ x : Except Reason Nat, ∀ s' : State, s'.BUF = s.BUF → s'.L = s.L → exec i s' = commit s' (s'.replyValue x) := by
  obtain ⟨a, rfl⟩ | ⟨a, rfl⟩ | ⟨a, st, n, rfl⟩ := hi
  · refine ⟨(s.readByte a).map BitVec.toNat, fun s' hbuf hlen => ?_⟩
    rw [exec_rd8, State.readByte, State.readByte, hbuf, hlen]
  · refine ⟨s.readWord a, fun s' hbuf hlen => ?_⟩
    rw [exec_rd16le, State.readWord, State.readWord, hbuf, hlen]
  · refine ⟨s.readField a st n, fun s' hbuf hlen => ?_⟩
    cases hlegal : legalRange st n with
    | false => rw [exec_rdbits_of_illegal hlegal] at h; cases h
    | true => rw [exec_rdbits_of_legal hlegal, State.readField, State.readField, hbuf, hlen]

/-- Settles O5: what the command hands over is the same in both states, and handing it over touches the host's reply
and job alone. -/
theorem fieldReaderIsPure : Obligations.FieldReaderIsPure := by
  intro i s t hi ht
  obtain ⟨x, hx⟩ := exec_fieldReader_of_next hi ht
  obtain ⟨v, rfl, rfl⟩ | ⟨r, rfl, rfl⟩ := replyValue_next ((hx s rfl rfl).symm.trans ht)
  · exact ⟨rfl, fun _ => rfl, fun s' hbuf hlen => ⟨s'.replyWith (.value v), hx s' hbuf hlen, rfl⟩⟩
  · exact ⟨rfl, fun _ => rfl, fun s' hbuf hlen => ⟨s'.hostFail (.block r), hx s' hbuf hlen, rfl⟩⟩

/-! ## A header byte that is not there (R101, R104, R156) -/

theorem State.bytesAt_of_le {s : State} {a : Nat} (h : s.L ≤ a) (n : Nat) : s.bytesAt a n = [] :=
  List.eq_nil_of_length_eq_zero (by rw [State.bytesAt_length]; omega)

theorem fetchHeader_of_beyond {s : State} {k : HeaderKind} {a : Nat} (ha : s.headerOffset k = some a) (h : s.L ≤ a) :
    fetchHeader k s = .done (s.hostFail (.block .malformedHeader)) := by
  simp only [fetchHeader, ha, State.bytesAt_of_le h, decode]

theorem fetchHeader_of_no_offset {s : State} {k : HeaderKind} (h : s.headerOffset k = none) :
    fetchHeader k s = .done (s.hostFail .imageDescriptorNotFound) := by
  simp only [fetchHeader, h]

/-- Settles O36: PK10, PK9 and MCS have their offset at or above `L`, SEP has none; popping the request changes neither
`L`, the buffer, `S` nor `G`. -/
theorem headerRequestBeyondBufferFails : Obligations.HeaderRequestBeyondBufferFails := by
  intro s k q hr hj hq
  have hfetch : fetch s = fetchHeader k s.popQueue := fetch_of_request hr hj hq
  have hpop := State.popQueue_eq hq
  refine ⟨fun h => ?_, fun hk hnone => ?_⟩
  · have hoff : ∃ a, s.popQueue.headerOffset k = some a ∧ s.popQueue.L ≤ a := by
      obtain ⟨rfl, h⟩ | ⟨rfl, h⟩ | ⟨rfl, h⟩ := h <;> exact ⟨_, rfl, h⟩
    obtain ⟨a, ha, hL⟩ := hoff
    rw [step_of_done (hfetch.trans (fetchHeader_of_beyond ha hL)), hpop]; rfl
  · have hoff : s.popQueue.headerOffset k = none := by subst hk; exact State.findSeparator_eq_none hnone
    rw [step_of_done (hfetch.trans (fetchHeader_of_no_offset hoff)), hpop]; rfl

end Sys2Proof.Machine
end

section
/-! PROOF. The Sub-block Assembler: its start, its records and their failures, one by one (R111 to R114, R121), and a chain of records as one payload (R65, R116): settles O13, O14, O16, O17, O48 and O18. -/

namespace Sys2Proof

@[simp] theorem chainBytes_nil : chainBytes [] = [0] := rfl

theorem chainBytes_cons (r : List Byte) (rs : List (List Byte)) :
    chainBytes (r :: rs) = recordBytes r ++ chainBytes rs := by
  simp [chainBytes]

@[simp] theorem recordBytes_length (payload : List Byte) : (recordBytes payload).length = 1 + payload.length :=
  Nat.add_comm _ _

theorem bytesBits_append (xs ys : List Byte) : bytesBits (xs ++ ys) = bytesBits xs ++ bytesBits ys :=
  List.flatMap_append

end Sys2Proof

namespace Sys2Proof.Machine

/-! ## The start (R111) -/

/-- Settles O13: ASSEMBLE is a start command, and its start looks at no byte. -/
theorem assembleStartsAtOperand : Obligations.AssembleStartsAtOperand := by
  refine fun s p => ⟨fun h => ?_, fun h => ?_⟩
  · rw [exec, execAssemble, State.whenNotRunning_of_not h]; rfl
  · rw [exec, execAssemble, State.whenNotRunning_of_running h]; rfl

/-! ## DATA (R112, R113) -/

theorem exec_data_of_truncated {s : State} {payload : List Byte} (ha : s.status = .assembling)
    (hp : legalPayload payload = true) (hL : s.L < s.ap + (1 + payload.length)) :
    exec (.data payload) s = .next (s.raise .truncatedStream) := by
  rw [exec, execData, if_pos hp, commit_aStep_eq_next]
  exact .inl ⟨ha, hL, rfl⟩

/-- Settles O14: the payload's bits are `bytesBits`, and the record is `1 + n` bytes long. -/
theorem dataAppendsPayloadBits : Obligations.DataAppendsPayloadBits := by
  intro s payload ha hpos hmax
  have hp := legalPayload_iff.mpr ⟨hpos, hmax⟩
  refine ⟨fun hfits => ?_, fun hL => ?_⟩
  · rw [Nat.add_assoc] at hfits ⊢
    exact exec_data_of_fits ha hp hfits
  · rw [Nat.add_assoc] at hL
    exact exec_data_of_truncated ha hp hL

theorem step_of_no_record {s : State} {e : Reject} (ha : s.status = .assembling)
    (h : decodeRecord (s.bytesAt s.ap 256) = .error e) : step s = .next (s.raise .truncatedStream) := by
  rcases fetchRecord_cases s with ⟨i, hi, _⟩ | ⟨_, hfetch⟩
  · rw [hi] at h; cases h
  · exact step_of_done ((fetch_of_assembling ha).trans hfetch)

/-- Settles O16: in both cases the fetch finds no record at `ap`. -/
theorem truncatedRecordRaises : Obligations.TruncatedRecordRaises := by
  intro s ha hcut
  rcases decodeRecord_cases s with ⟨_, hnone⟩ | ⟨hlt, h0, _⟩ | ⟨_, _, _, hnone⟩ | ⟨_, hfits, _⟩
  · exact step_of_no_record ha hnone
  · exact hcut.elim (fun hL => absurd hlt (Nat.not_lt.mpr hL)) (fun hne => absurd h0 hne.1)
  · exact step_of_no_record ha hnone
  · omega

/-! ## TERM (R114, R121) -/

theorem exec_term_of_enabled {s : State} (ha : s.status = .assembling) (hL : s.ap + 1 ≤ s.L) :
    exec .term s = commit s (State.finishAssemble { s with ap := s.ap + 1 }) := by
  rw [exec, execTerm, State.aStep_of_enabled ha hL]

/-- Settles O17: with the terminator in the buffer TERM starts the decoder, or hands the bits to the host. -/
theorem termEndsAssembly : Obligations.TermEndsAssembly := by
  intro s ha hL
  rw [exec_term_of_enabled ha hL, State.finishAssemble]
  refine ⟨fun hr hmax => ?_, fun hr hmax => ?_, fun hr => ?_⟩
  · rw [if_pos hr, State.startDecode, if_neg (Nat.not_lt.mpr hmax)]; rfl
  · rw [if_pos hr, State.startDecode, if_pos hmax]; rfl
  · rw [if_neg (Bool.eq_false_iff.mp hr)]; rfl

/-! ## The frame of the records (R110) -/

/-- Settles O48: by what DATA and TERM do when they answer a next state. -/
theorem recordStepsFrame : Obligations.RecordStepsFrame := by
  intro i s t hi h
  have hkept : ∃ more, s.BS = s.BS ++ more := ⟨[], (List.append_nil _).symm⟩
  obtain ⟨p, rfl⟩ | rfl := hi
  · obtain ⟨_, _, ⟨r, rfl⟩ | ⟨_, rfl⟩⟩ := data_next h
    · exact ⟨fun _ => rfl, hkept, fun _ => rfl, nofun, nofun⟩
    · exact ⟨fun _ => rfl, ⟨bytesBits p, rfl⟩, fun _ => rfl, nofun, nofun⟩
  · obtain ⟨_, ⟨r, rfl⟩ | ⟨_, ⟨hr, _, rfl⟩ | ⟨_, rfl⟩⟩⟩ := term_next h
    · exact ⟨fun _ => rfl, hkept, nofun, fun _ => ⟨rfl, rfl⟩, fun _ _ => rfl⟩
    · exact ⟨fun _ => rfl, hkept, nofun, fun _ => ⟨rfl, rfl⟩,
        fun _ hbare => by simp [hr] at hbare⟩
    · exact ⟨fun _ => rfl, hkept, nofun, fun _ => ⟨rfl, rfl⟩, fun _ _ => rfl⟩

/-! ## The bytes at a cursor -/

/-- The bytes from an offset on, cut in two; what lies at or above `L` is missing from either part. -/
theorem State.bytesAt_add (s : State) (a m n : Nat) :
    s.bytesAt a (m + n) = s.bytesAt a m ++ s.bytesAt (a + m) n := by
  by_cases hm : m ≤ s.L - a
  · have hmin : min (m + n) (s.L - a) = m + min n (s.L - (a + m)) := by omega
    simp only [State.bytesAt, hmin, Nat.min_eq_left hm, List.range_add, List.map_append, List.map_map,
      Function.comp_def, Nat.add_assoc]
  · have hend : s.bytesAt (a + m) n = [] := s.bytesAt_of_le (by omega) n
    rw [hend, List.append_nil, State.bytesAt, State.bytesAt, Nat.min_eq_right (by omega),
      Nat.min_eq_right (Nat.le_of_not_le hm)]

/-- The buffer holds these bytes, all of them below `L`, from offset `a` on. -/
def State.HoldsAt (s : State) (a : Nat) (bs : List Byte) : Prop := s.bytesAt a bs.length = bs

theorem State.HoldsAt.length_le {s : State} {a : Nat} {bs : List Byte} (h : s.HoldsAt a bs) :
    bs.length ≤ s.L - a := by
  have hlen := s.bytesAt_length a bs.length
  rw [h] at hlen
  omega

theorem State.HoldsAt.split {s : State} {a : Nat} {xs ys : List Byte} (h : s.HoldsAt a (xs ++ ys)) :
    s.HoldsAt a xs ∧ s.HoldsAt (a + xs.length) ys := by
  have hlen := h.length_le
  rw [List.length_append] at hlen
  rw [State.HoldsAt, List.length_append, State.bytesAt_add] at h
  exact List.append_inj h (by rw [State.bytesAt_length]; omega)

/-- The record that stands at `ap` is the next A-step, whatever stands behind it (R71, R72). -/
theorem step_of_holdsAt {s : State} {xs : List Byte} {i : Instr} (ha : s.status = .assembling)
    (h : s.HoldsAt s.ap xs) (hlen : xs.length ≤ 256) (hdec : ∀ rest, decodeRecord (xs ++ rest) = .ok i) :
    step s = exec i s := by
  have hwindow : s.bytesAt s.ap 256 = xs ++ s.bytesAt (s.ap + xs.length) (256 - xs.length) := by
    conv_lhs => rw [← Nat.add_sub_of_le hlen, State.bytesAt_add, h]
  refine step_of_run ((fetch_of_assembling ha).trans (fetchRecord_of_decode ?_))
  rw [hwindow]
  exact hdec _

/-! ## A chain of records (R65, R116) -/

/-- The state in which the assembler has taken in these records: one length byte each, and their payloads. -/
def State.pastRecords (s : State) (records : List (List Byte)) : State :=
  { s with ap := s.ap + records.length + records.flatten.length, BS := s.BS ++ bytesBits records.flatten }

@[simp] theorem State.pastRecords_nil (s : State) : s.pastRecords [] = s := by
  simp [State.pastRecords, bytesBits]

theorem State.pastRecords_cons (s : State) (r : List Byte) (rs : List (List Byte)) :
    s.pastRecords (r :: rs) = State.pastRecords
      { s with BS := s.BS ++ bytesBits r, ap := s.ap + (1 + r.length) } rs := by
  have hap : s.ap + (rs.length + 1) + (r.length + rs.flatten.length) =
      s.ap + (1 + r.length) + rs.length + rs.flatten.length := by omega
  simp only [State.pastRecords, List.length_cons, List.flatten_cons, List.length_append, bytesBits_append,
    List.append_assoc, hap]

theorem core_run_one_eq_step (s : State) : Sys2Proof.core.run 1 s = step s := by
  cases h : step s with
  | next t => exact core_run_one h
  | fault f => exact core_run_succ_fault 0 h
  | refused r => exact core_run_succ_refused 0 h

/-- A chain of records is taken in record by record; its last step is the TERM behind them, on the state in which all
payloads have been appended. -/
theorem core_run_chain (records : List (List Byte)) {s : State} (hlegal : ∀ r ∈ records, legalPayload r = true)
    (ha : s.status = .assembling) (h : s.HoldsAt s.ap (chainBytes records)) :
    Sys2Proof.core.run (records.length + 1) s = exec .term (s.pastRecords records) ∧
      (s.pastRecords records).ap + 1 ≤ s.L := by
  induction records generalizing s with
  | nil =>
    have hL : 1 ≤ s.L - s.ap := h.length_le
    rw [State.pastRecords_nil]
    exact ⟨(core_run_one_eq_step s).trans (step_of_holdsAt ha h (by decide) decodeRecord_zero), by omega⟩
  | cons r rs ih =>
    obtain ⟨hr, hrs⟩ := List.forall_mem_cons.mp hlegal
    rw [chainBytes_cons] at h
    obtain ⟨hrecord, hrest⟩ := h.split
    rw [recordBytes_length] at hrest
    have hlen := hrecord.length_le
    rw [recordBytes_length] at hlen
    have hmax := (legalPayload_iff.mp hr).2
    have hstep : step s = .next { s with BS := s.BS ++ bytesBits r, ap := s.ap + (1 + r.length) } :=
      (step_of_holdsAt ha hrecord (by rw [recordBytes_length]; omega) (decodeRecord_recordBytes_append hr)).trans
        (exec_data_of_fits ha hr (by omega))
    rw [List.length_cons, core_run_succ _ hstep, State.pastRecords_cons]
    exact ih hrs ha hrest

/-- Settles O18: TERM, run on the state past the records, ends the phase. -/
theorem assembleConcatenatesChain : Obligations.AssembleConcatenatesChain := by
  intro records s hlegal ha h
  obtain ⟨hrun, hL⟩ := core_run_chain records (fun r hr => legalPayload_iff.mpr (hlegal r hr)) ha h
  obtain ⟨hstart, _, hbare⟩ := termEndsAssembly (s.pastRecords records) ha hL
  rw [hrun, Nat.add_right_comm (s.ap + records.length) 1 records.flatten.length]
  exact ⟨hbare, hstart⟩

end Sys2Proof.Machine
end

section
/-! PROOF. Every run ends (R115, R134, R204): a running step always answers a next state, and the bound on the steps left falls with it: settles O57. -/

namespace Sys2Proof.Machine

/-! ## A step of a run answers a next state (R26, R134) -/

/-- A code below the table's length that is no sentinel names a color entry (R37, R124). -/
theorem State.tableOk.exists_color {s : State} (h : s.tableOk) {c : Nat} (hlt : c < s.T.length) (hclr : c ≠ s.N)
    (heoi : c ≠ s.N + 1) : ∃ x xs, s.T[c]? = some (.color (x :: xs)) := by
  obtain ⟨ext, hT, hext⟩ := h
  by_cases hinit : c < s.N
  · refine ⟨c, [], ?_⟩
    rw [hT, List.getElem?_append_left (by rw [initialTable_length]; omega), initialTable_color hinit]
  · rw [hT, List.length_append, initialTable_length, List.length_map] at hlt
    have hidx : c - (s.N + 2) < ext.length := by omega
    have hentry : s.T[c]? = some (.color ext[c - (s.N + 2)]) := by
      rw [hT, List.getElem?_append_right (by rw [initialTable_length]; omega), initialTable_length,
        List.getElem?_map, List.getElem?_eq_getElem hidx, Option.map_some]
    obtain ⟨x, xs, hx⟩ := List.exists_cons_of_length_pos
      (show 0 < ext[c - (s.N + 2)].length by have := (hext _ (List.getElem_mem hidx)).1; omega)
    exact ⟨x, xs, by rw [hentry, hx]⟩

/-- The previous code, where it is read, names a color entry (R26). -/
theorem State.DecoderInv.exists_prev_color {s : State} (h : s.DecoderInv) (hf : s.first = false) :
    ∃ p x xs, s.prev = some p ∧ s.T[p]? = some (.color (x :: xs)) := by
  obtain ⟨p, hp, hlt, hclr, heoi⟩ := h.previous hf
  obtain ⟨x, xs, hx⟩ := h.table.exists_color hlt hclr heoi
  exact ⟨p, x, xs, hp, hx⟩

theorem State.DecoderInv.one_le_cw {s : State} (h : s.DecoderInv) : 1 ≤ s.cw :=
  (Nat.le_add_left 1 s.mcs.toNat).trans h.widthLow

theorem exists_next_tail (s u : State) (c : Nat) : ∃ t, commit s (u.tail c) = .next t := by
  rcases State.tail_cases (s := u) (code := c) rfl with ⟨_, e⟩ | ⟨_, _, e⟩ | ⟨_, _, e⟩ <;> rw [e] <;> exact ⟨_, rfl⟩

/-- The class rule of KNOWN reads color entries alone (R127). -/
theorem exists_next_knownStep (s : State) {u : State} {c : Nat} (htable : u.tableOk)
    (hc : classify u.N u.T.length c = .known)
    (hprev : u.first = false → ∃ p x xs, u.prev = some p ∧ u.T[p]? = some (.color (x :: xs))) :
    ∃ t, commit s (u.knownStep c) = .next t := by
  obtain ⟨hclr, heoi, hlt⟩ := ne_sentinels_of_known hc
  obtain ⟨x, xs, hx⟩ := htable.exists_color hlt hclr heoi
  cases hf : u.first with
  | true => rw [State.knownStep_first hx hf]; exact exists_next_tail ..
  | false =>
    obtain ⟨p, y, ys, hp, hy⟩ := hprev hf
    rw [State.knownStep_next hx hf hp hy]; exact exists_next_tail ..

/-- The class rule of KWKWK reads the previous code's color entry, or raises (R129, D4). -/
theorem exists_next_kwkwkStep (s : State) {u : State} (c : Nat)
    (hprev : u.first = false → ∃ p x xs, u.prev = some p ∧ u.T[p]? = some (.color (x :: xs))) :
    ∃ t, commit s (u.kwkwkStep c) = .next t := by
  cases hf : u.first with
  | true => rw [State.kwkwkStep_first hf]; exact ⟨_, rfl⟩
  | false =>
    obtain ⟨p, x, xs, hp, hx⟩ := hprev hf
    rw [State.kwkwkStep_next hf hp hx]; exact exists_next_tail ..

@[simp] theorem classify_self (n tlen : Nat) : classify n tlen n = .clear := if_pos rfl

@[simp] theorem classify_succ_self (n tlen : Nat) : classify n tlen (n + 1) = .eoi := by
  rw [classify, if_neg (Nat.succ_ne_self n), if_pos rfl]

/-- A code that the stream has bits for, in the class that the code map gives it, has a next state. -/
theorem exists_next_codeInstr {s : State} (hd : s.status = .decoding) (hinv : s.DecoderInv)
    (hbits : s.bp + s.cw ≤ s.BL) (c : Nat) : ∃ t, exec (codeInstr s.N s.T.length c) s = .next t := by
  unfold codeInstr
  cases hc : classify s.N s.T.length c with
  | clear => exact ⟨_, commit_dStep_eq_next.mpr (.inr ⟨hd, hbits, classify_self .., rfl⟩)⟩
  | eoi => exact ⟨_, commit_dStep_eq_next.mpr (.inr ⟨hd, hbits, classify_succ_self .., rfl⟩)⟩
  | known =>
    obtain ⟨t, ht⟩ := exists_next_knownStep s (u := { s with bp := s.bp + s.cw }) hinv.table hc hinv.exists_prev_color
    exact ⟨t, commit_dStep_eq_next.mpr (.inr ⟨hd, hbits, hc, ht⟩)⟩
  | kwkwk =>
    obtain ⟨t, ht⟩ := exists_next_kwkwkStep s c (u := { s with bp := s.bp + s.cw }) hinv.exists_prev_color
    exact ⟨t, commit_dStep_eq_next.mpr (.inr ⟨hd, hbits, hc, ht⟩)⟩
  | corrupt => exact ⟨_, commit_dStep_eq_next.mpr (.inr ⟨hd, hbits, hc, rfl⟩)⟩

/-- The terminator has a next state: the decoder's start, its fault, or the end of a bare ASSEMBLE (R114). -/
theorem exists_next_term {s : State} (ha : s.status = .assembling) (hL : s.ap + 1 ≤ s.L) :
    ∃ t, exec .term s = .next t := by
  obtain ⟨hstart, hraise, hbare⟩ := termEndsAssembly s ha hL
  cases hr : s.inRun with
  | false => exact ⟨_, hbare hr⟩
  | true =>
    rcases Nat.lt_or_ge s.MAXW (s.mcs.toNat + 1) with hmax | hmax
    · exact ⟨_, hraise hr hmax⟩
    · exact ⟨_, hstart hr hmax⟩

theorem exists_step_assembling {s : State} (ha : s.status = .assembling) : ∃ t, step s = .next t := by
  rcases decodeRecord_cases s with ⟨_, hnone⟩ | ⟨hlt, _, hdec⟩ | ⟨_, _, _, hnone⟩ | ⟨h0, hfits, _⟩
  · exact ⟨_, step_of_no_record ha hnone⟩
  · obtain ⟨t, ht⟩ := exists_next_term ha hlt
    exact ⟨t, (step_of_run ((fetch_of_assembling ha).trans (fetchRecord_of_decode hdec))).trans ht⟩
  · exact ⟨_, step_of_no_record ha hnone⟩
  · exact ⟨_, stepConsumesRecordOfTheBuffer s ha (by omega) h0 hfits⟩

theorem exists_step_decoding {s : State} (hd : s.status = .decoding) (hinv : s.DecoderInv) :
    ∃ t, step s = .next t := by
  rcases fetchCode_cases s with ⟨hlen, e⟩ | ⟨_, e⟩ <;> rw [← fetch_of_decoding hd] at e
  · rw [State.bitsAt_length] at hlen
    have hcw := hinv.one_le_cw
    obtain ⟨t, ht⟩ := exists_next_codeInstr hd hinv (by omega) (bitsValue ((s.bitsAt s.bp s.cw).take s.cw))
    exact ⟨t, (step_of_run e).trans ht⟩
  · exact ⟨_, step_of_done e⟩

/-- A run meets no stop of the model's own (R9, R134). -/
theorem exists_step_running {s : State} (hs : s.Inv) (hr : s.status.running = true) : ∃ t, step s = .next t := by
  rcases Status.running_iff.mp hr with ha | hd
  · exact exists_step_assembling ha
  · exact exists_step_decoding hd (hs.decoder hd)

/-! ## The bound on the steps left (R115, R134, R204) -/

theorem State.stepsLeft_of_assembling {s : State} (h : s.status = .assembling) :
    s.stepsLeft = s.L - s.ap + 1 + (s.BS.length + 8 * (s.L - s.ap) + 1) := by
  simp only [State.stepsLeft, h, State.aStepsLeft]

theorem State.stepsLeft_of_decoding {s : State} (h : s.status = .decoding) :
    s.stepsLeft = s.BS.length - s.bp + 1 := by
  simp only [State.stepsLeft, h]

theorem State.stepsLeft_of_not_running {s : State} (h : s.status.running = false) : s.stepsLeft = 0 := by
  unfold State.stepsLeft
  cases hst : s.status with
  | idle | done | fault => rfl
  | assembling | decoding => simp [hst, Status.running] at h

theorem State.stepsLeft_pos {s : State} (h : s.status.running = true) : 0 < s.stepsLeft := by
  rcases Status.running_iff.mp h with ha | hd
  · rw [State.stepsLeft_of_assembling ha]; omega
  · rw [State.stepsLeft_of_decoding hd]; omega

/-- A state that has left the run has no step left, one of the run at least one. -/
theorem State.stepsLeft_lt_of_ended {s t : State} (hs : s.status.running = true) (ht : t.status.running = false) :
    t.stepsLeft < s.stepsLeft := by
  rw [State.stepsLeft_of_not_running ht]
  exact State.stepsLeft_pos hs

/-- A D-step that goes on has taken at least one bit of the stream (R134). -/
theorem State.stepsLeft_lt_of_fetch {s t : State} (hd : s.status = .decoding) (ht : t.status = .decoding)
    (hBS : t.BS = s.BS) (hbp : t.bp = s.bp + s.cw) (hcw : 1 ≤ s.cw) (hbits : s.bp + s.cw ≤ s.BS.length) :
    t.stepsLeft < s.stepsLeft := by
  rw [State.stepsLeft_of_decoding hd, State.stepsLeft_of_decoding ht, hBS, hbp]
  omega

/-- An A-step that goes on has taken a length byte and `n` payload bytes of the buffer, and appended `8 n` bits (R115). -/
theorem State.stepsLeft_lt_of_record {s t : State} {n : Nat} (ha : s.status = .assembling)
    (ht : t.status = .assembling) (hL : t.L = s.L) (hap : t.ap = s.ap + (1 + n))
    (hBS : t.BS.length = s.BS.length + 8 * n) (hfits : s.ap + (1 + n) ≤ s.L) : t.stepsLeft < s.stepsLeft := by
  rw [State.stepsLeft_of_assembling ha, State.stepsLeft_of_assembling ht, hL, hap, hBS]
  omega

theorem stepsLeft_lt_of_data {s t : State} {p : List Byte} (h : exec (.data p) s = .next t) :
    t.stepsLeft < s.stepsLeft := by
  obtain ⟨ha, _, ⟨r, rfl⟩ | ⟨hfits, rfl⟩⟩ := data_next h
  · exact State.stepsLeft_lt_of_ended (running_of_assembling ha) rfl
  · exact State.stepsLeft_lt_of_record ha ha rfl rfl (by rw [List.length_append, bytesBits_length]) hfits

theorem stepsLeft_lt_of_term {s t : State} (h : exec .term s = .next t) : t.stepsLeft < s.stepsLeft := by
  obtain ⟨ha, ⟨r, rfl⟩ | ⟨_, ⟨_, _, rfl⟩ | ⟨_, rfl⟩⟩⟩ := term_next h
  · exact State.stepsLeft_lt_of_ended (running_of_assembling ha) rfl
  · rw [State.stepsLeft_of_assembling ha, State.stepsLeft_of_decoding rfl]
    dsimp only
    omega
  · exact State.stepsLeft_lt_of_ended (running_of_assembling ha) rfl

/-- Every A-step and every D-step uses up a part of the bound. -/
theorem stepsLeft_lt_of_blockStep {i : Instr} {s t : State} (hs : s.Inv) (hi : i.isBlockStep = true)
    (h : exec i s = .next t) : t.stepsLeft < s.stepsLeft := by
  have hended {r : Reason} (hd : s.status = .decoding) : (s.raise r).stepsLeft < s.stepsLeft :=
    State.stepsLeft_lt_of_ended (running_of_decoding hd) rfl
  have hcw (hd : s.status = .decoding) := (hs.decoder hd).one_le_cw
  cases i with
  | data p => exact stepsLeft_lt_of_data h
  | term => exact stepsLeft_lt_of_term h
  | clear =>
    obtain ⟨hd, ⟨r, _, rfl⟩ | ⟨hbits, rfl⟩⟩ := clear_next h
    · exact hended hd
    · exact State.stepsLeft_lt_of_fetch hd hd rfl rfl (hcw hd) hbits
  | eoi =>
    obtain ⟨hd, ⟨r, _, rfl⟩ | ⟨_, rfl⟩⟩ := eoi_next h
    · exact hended hd
    · exact State.stepsLeft_lt_of_ended (running_of_decoding hd) rfl
  | known c =>
    obtain ⟨hd, ⟨r, _, rfl⟩ | ⟨hbits, _, _, _, _, _, _, _, _, _, rfl⟩⟩ := known_next h
    · exact hended hd
    · exact State.stepsLeft_lt_of_fetch hd hd rfl rfl (hcw hd) hbits
  | kwkwk c =>
    obtain ⟨hd, ⟨r, _, rfl⟩ | ⟨hbits, _, _, _, _, _, _, _, _, _, _, rfl⟩⟩ := kwkwk_next h
    · exact hended hd
    · exact State.stepsLeft_lt_of_fetch hd hd rfl rfl (hcw hd) hbits
  | corrupt c =>
    obtain ⟨hd, r, _, rfl⟩ := corrupt_next h
    exact hended hd
  | _ => cases hi

theorem stepsLeft_lt_of_step {s t : State} (hs : s.Inv) (hr : s.status.running = true) (h : step s = .next t) :
    t.stepsLeft < s.stepsLeft := by
  rcases step_running hr h with ⟨i, hi, he⟩ | rfl
  · exact stepsLeft_lt_of_blockStep hs hi he
  · exact State.stepsLeft_lt_of_ended hr rfl

/-- A machine with at most `n` steps of a run left is out of the run after at most `n`, by induction on `n`. -/
theorem exists_end_of_stepsLeft_le (n : Nat) {s : State} (hs : s.Inv) (hn : s.stepsLeft ≤ n) :
    ∃ (k : Nat) (t : State), k ≤ n ∧ Sys2Proof.core.run k s = .next t ∧ t.status.running = false := by
  cases hr : s.status.running with
  | false => exact ⟨0, s, Nat.zero_le n, core_run_zero s, hr⟩
  | true =>
    obtain ⟨u, hu⟩ := exists_step_running hs hr
    have hlt := stepsLeft_lt_of_step hs hr hu
    cases n with
    | zero => omega
    | succ n =>
      obtain ⟨k, t, hk, hrun, ht⟩ :=
        exists_end_of_stepsLeft_le n (everyStepKeepsInvariant s u hs hu) (by omega)
      exact ⟨k + 1, t, Nat.succ_le_succ hk, (core_run_succ k hu).trans hrun, ht⟩

/-- Settles O57: every step of a run has a next state and falls below the bound of the state before it. -/
theorem everyRunEnds : Obligations.EveryRunEnds := fun _ hs _ => exists_end_of_stepsLeft_le _ hs le_rfl

end Sys2Proof.Machine
end

section
/-! PROOF. The LZW Decoder: its starts (R121, R133), its code classes one by one (R123 to R131), their frame, and how a run of it goes on and ends (R126, R134): settles O19, O20, O21, O22, O23, O24, O25, O26, O27, O28, O29, O47 and O54. -/

namespace Sys2Proof.Machine

/-! ## The starts (R121, R133) -/

theorem legalColorCount_iff {n : Nat} : legalColorCount n = true ↔ 1 ≤ n := decide_eq_true_iff

theorem State.startDecode_of_le {s : State} (h : s.mcs.toNat + 1 ≤ s.MAXW) :
    s.startDecode = .ok { s.resetTable with status := .decoding, prev := none, bp := 0, out := [] } :=
  if_neg (Nat.not_lt.mpr h)

theorem State.startDecode_of_lt {s : State} (h : s.MAXW < s.mcs.toNat + 1) :
    s.startDecode = .error (.raise .codeWidthOverflow) := if_pos h

/-- Settles O19: DECODE is a start command of a legal color count, and its start is the width check and RESET_TABLE. -/
theorem decodeCreatesDecoderState : Obligations.DecodeCreatesDecoderState := by
  intro s bits m n
  rw [exec, execDecode]
  refine ⟨fun hr hn hmax => ?_, fun hr hn hmax => ?_, fun hr hn => ?_, fun hr => ?_⟩
  · rw [State.whenNotRunning_of_not hr, if_pos (legalColorCount_iff.mpr hn), State.startDecode_of_le]
    exacts [rfl, hmax]
  · rw [State.whenNotRunning_of_not hr, if_pos (legalColorCount_iff.mpr hn), State.startDecode_of_lt]
    exacts [rfl, hmax]
  · rw [State.whenNotRunning_of_not hr, hn]; rfl
  · rw [State.whenNotRunning_of_running hr]; rfl

/-- Settles O20: RUN is a start command of a legal color count, and its start is a byte read and the assembler's start. -/
theorem runLatchesInputsAndStartsAssembler : Obligations.RunLatchesInputsAndStartsAssembler := by
  intro s sp n
  rw [exec, execRun]
  refine ⟨fun hr hn hlt => ?_, fun hr hn hle => ?_, fun hr hn => ?_, fun hr => ?_⟩
  · rw [State.whenNotRunning_of_not hr, if_pos (legalColorCount_iff.mpr hn), State.startRun,
      State.readByte_of_lt hlt]
    rfl
  · rw [State.whenNotRunning_of_not hr, if_pos (legalColorCount_iff.mpr hn), State.startRun,
      State.readByte_of_le hle]
    rfl
  · rw [State.whenNotRunning_of_not hr, hn]; rfl
  · rw [State.whenNotRunning_of_running hr]; rfl

/-! ## The code map (R75, R124) -/

theorem classify_of_lt {n tlen c : Nat} (hclr : c ≠ n) (heoi : c ≠ n + 1) (hlt : c < tlen) :
    classify n tlen c = .known := by
  rw [classify, if_neg hclr, if_neg heoi, if_pos hlt]

theorem classify_length {n tlen : Nat} (h : n + 2 ≤ tlen) : classify n tlen tlen = .kwkwk := by
  rw [classify, if_neg (by omega), if_neg (by omega), if_neg (Nat.lt_irrefl tlen), if_pos rfl]

theorem classify_of_gt {n tlen c : Nat} (h : n + 2 ≤ tlen) (hgt : tlen < c) : classify n tlen c = .corrupt := by
  rw [classify, if_neg (by omega), if_neg (by omega), if_neg (by omega), if_neg (by omega)]

/-! ## The tail (R131) -/

/-- The tail where the width does not overflow: the count goes on, or the width grows. -/
theorem State.tail_of_room {s : State} (c : Nat) (h : s.cnt + 1 = 2 ^ (s.cw - 1) → s.cw ≠ s.MAXW) :
    s.tail c = .ok { s with
      prev := some c, cnt := if s.cnt + 1 = 2 ^ (s.cw - 1) then 0 else s.cnt + 1,
      cw := if s.cnt + 1 = 2 ^ (s.cw - 1) then s.cw + 1 else s.cw } := by
  rw [State.tail, State.threshold]
  by_cases hgrow : s.cnt + 1 = 2 ^ (s.cw - 1)
  · simp only [if_pos hgrow, if_neg (h hgrow)]
  · simp only [if_neg hgrow]

theorem State.tail_of_overflow {s : State} (c : Nat) (hgrow : s.cnt + 1 = 2 ^ (s.cw - 1)) (hmax : s.cw = s.MAXW) :
    s.tail c = .error (.raise .codeWidthOverflow) := by
  rw [State.tail, State.threshold, if_pos hgrow, if_pos hmax]

/-! ## The code classes, one by one (R125 to R130) -/

section Enabled

variable {s : State} (hd : s.status = .decoding) (hbits : s.bp + s.cw ≤ s.BL)
include hd hbits

theorem exec_clear_of_enabled : exec .clear s = .next { s with
    bp := s.bp + s.cw, T := initialTable s.N, cw := s.mcs.toNat + 1, cnt := 0, first := true } := by
  rw [exec, execClear, State.dStep_of_enabled hd hbits (classify_self ..)]
  rfl

theorem exec_eoi_of_enabled : exec .eoi s = .next { s with bp := s.bp + s.cw, status := .done } := by
  rw [exec, execEoi, State.dStep_of_enabled hd hbits (classify_succ_self ..)]
  rfl

theorem exec_known_of_enabled {c : Nat} (hclr : c ≠ s.N) (heoi : c ≠ s.N + 1) {e : Entry} (hc : s.T[c]? = some e) :
    exec (.known c) s = commit s (State.knownStep c { s with bp := s.bp + s.cw }) := by
  have hlt : c < s.T.length := (List.getElem?_eq_some_iff.mp hc).1
  rw [exec, execKnown, State.dStep_of_enabled hd hbits (classify_of_lt hclr heoi hlt)]

theorem exec_known_first {c x : Nat} {xs : List Nat} (hclr : c ≠ s.N) (heoi : c ≠ s.N + 1)
    (hx : s.T[c]? = some (.color (x :: xs))) (hf : s.first = true) :
    exec (.known c) s =
      commit s (State.tail { s with bp := s.bp + s.cw, out := s.out ++ x :: xs, first := false } c) := by
  rw [exec_known_of_enabled hd hbits hclr heoi hx, State.knownStep_first (t := { s with bp := s.bp + s.cw }) hx hf]

theorem exec_known_later {c x p y : Nat} {xs ys : List Nat} (hclr : c ≠ s.N) (heoi : c ≠ s.N + 1)
    (hx : s.T[c]? = some (.color (x :: xs))) (hf : s.first = false) (hp : s.prev = some p)
    (hy : s.T[p]? = some (.color (y :: ys))) :
    exec (.known c) s = commit s (State.tail { s with
      bp := s.bp + s.cw, out := s.out ++ x :: xs, T := s.T ++ [.color (y :: ys ++ [x])] } c) := by
  rw [exec_known_of_enabled hd hbits hclr heoi hx, State.knownStep_next (t := { s with bp := s.bp + s.cw }) hx hf hp hy]

theorem exec_kwkwk_of_enabled (hlen : s.N + 2 ≤ s.T.length) :
    exec (.kwkwk s.T.length) s = commit s (State.kwkwkStep s.T.length { s with bp := s.bp + s.cw }) := by
  rw [exec, execKwkwk, State.dStep_of_enabled hd hbits (classify_length hlen)]

theorem exec_kwkwk_first (hlen : s.N + 2 ≤ s.T.length) (hf : s.first = true) :
    exec (.kwkwk s.T.length) s = .next (s.raise .corruptCodeStream) := by
  rw [exec_kwkwk_of_enabled hd hbits hlen, State.kwkwkStep_first (t := { s with bp := s.bp + s.cw }) hf, commit_raise]

theorem exec_kwkwk_later {p x : Nat} {xs : List Nat} (hlen : s.N + 2 ≤ s.T.length) (hf : s.first = false)
    (hp : s.prev = some p) (hx : s.T[p]? = some (.color (x :: xs))) :
    exec (.kwkwk s.T.length) s = commit s (State.tail { s with
      bp := s.bp + s.cw, out := s.out ++ (x :: xs ++ [x]), T := s.T ++ [.color (x :: xs ++ [x])] } s.T.length) := by
  rw [exec_kwkwk_of_enabled hd hbits hlen, State.kwkwkStep_next (t := { s with bp := s.bp + s.cw }) hf hp hx]

theorem exec_corrupt_of_enabled (hlen : s.N + 2 ≤ s.T.length) {c : Nat} (hgt : s.T.length < c) :
    exec (.corrupt c) s = .next (s.raise .corruptCodeStream) := by
  rw [exec, execCorrupt, State.dStep_of_enabled hd hbits (classify_of_gt hlen hgt), commit_raise]

end Enabled

/-- Settles O21: CLEAR enabled is RESET_TABLE past the fetch. -/
theorem clearResetsTableAndWidth : Obligations.ClearResetsTableAndWidth := fun _ hd hbits =>
  exec_clear_of_enabled hd hbits

/-- Settles O22: the invariant's table begins with the initial one, so CLEAR's table is its first `N + 2` entries. -/
theorem clearTruncatesTable : Obligations.ClearTruncatesTable := by
  intro s t hs h ht
  obtain ⟨_, ⟨r, _, rfl⟩ | ⟨_, rfl⟩⟩ := clear_next h
  · cases ht
  · obtain ⟨ext, hT, _⟩ := hs.table
    have hcut : s.T.take (s.N + 2) = initialTable s.N := by rw [hT, List.take_left' (initialTable_length s.N)]
    exact ⟨hcut.symm, initialTable_length s.N, rfl, rfl⟩

/-- Settles O24: the class rule of a first KNOWN, then the tail. -/
theorem knownFirstEmitsWithoutExtending : Obligations.KnownFirstEmitsWithoutExtending := by
  intro s c x xs hd hbits hclr heoi hx hf hroom
  rw [exec_known_first hd hbits hclr heoi hx hf, State.tail_of_room]
  exacts [rfl, hroom]

/-- Settles O25: the class rule of a later KNOWN, then the tail. -/
theorem knownEmitsAndExtends : Obligations.KnownEmitsAndExtends := by
  intro s c x p y xs ys hd hbits hclr heoi hx hf hp hy hroom
  rw [exec_known_later hd hbits hclr heoi hx hf hp hy, State.tail_of_room]
  exacts [rfl, hroom]

/-- Settles O26: the class rule of KWKWK, then the tail; the entry appended stands at the old table's length. -/
theorem kwkwkEmitsAndAppendsSameSequence : Obligations.KwkwkEmitsAndAppendsSameSequence := by
  intro s p x xs hd hbits hlen hf hp hx hroom
  rw [exec_kwkwk_later hd hbits hlen hf hp hx, State.tail_of_room]
  exacts [⟨_, rfl, List.getElem?_concat_length, rfl⟩, hroom]

/-- Settles O27: CORRUPT's class rule, and KWKWK's under the flag (D4). -/
theorem corruptCodesRaise : Obligations.CorruptCodesRaise := fun _ hd hbits hlen =>
  ⟨fun _ hgt => exec_corrupt_of_enabled hd hbits hlen hgt, fun hf => exec_kwkwk_first hd hbits hlen hf⟩

/-- Settles O28: every path of a counted code ends in the tail, which raises. -/
theorem tailRaisesCodeWidthOverflow : Obligations.TailRaisesCodeWidthOverflow := by
  intro s p y ys hd hbits hgrow hmax hp hy
  refine ⟨fun c x xs hclr heoi hx => ?_, fun hf hlen => ?_⟩
  · rcases Bool.eq_false_or_eq_true s.first with hf | hf
    · rw [exec_known_first hd hbits hclr heoi hx hf, State.tail_of_overflow]
      exacts [rfl, hgrow, hmax]
    · rw [exec_known_later hd hbits hclr heoi hx hf (hp hf) hy, State.tail_of_overflow]
      exacts [rfl, hgrow, hmax]
  · rw [exec_kwkwk_later hd hbits hlen hf (hp hf) hy, State.tail_of_overflow]
    exacts [rfl, hgrow, hmax]

/-! ## The frame of the code classes (R120) -/

/-- Settles O47: by what each class does when it answers a next state. -/
theorem codeStepsFrame : Obligations.CodeStepsFrame := by
  intro i s t hi h
  have hsame {α : Type} (xs : List α) : ∃ e, xs = xs ++ e := ⟨[], (List.append_nil xs).symm⟩
  have hnone : ∃ e, s.T = s.T ++ e ∧ e.length ≤ 1 := ⟨[], (List.append_nil _).symm, Nat.zero_le 1⟩
  have hone (e : Entry) : ∃ es, s.T ++ [e] = s.T ++ es ∧ es.length ≤ 1 := ⟨[e], rfl, le_rfl⟩
  obtain rfl | rfl | ⟨c, rfl⟩ | ⟨c, rfl⟩ | ⟨c, rfl⟩ := hi
  · obtain ⟨_, ⟨r, _, rfl⟩ | ⟨_, rfl⟩⟩ := clear_next h
    · exact ⟨rfl, fun _ => rfl, rfl, fun _ => ⟨rfl, rfl⟩, nofun, fun hne => absurd rfl hne, nofun⟩
    · exact ⟨rfl, fun _ => rfl, rfl, fun _ => ⟨rfl, rfl⟩, nofun, fun hne => absurd rfl hne, nofun⟩
  · obtain ⟨_, ⟨r, _, rfl⟩ | ⟨_, rfl⟩⟩ := eoi_next h
    · exact ⟨rfl, fun _ => rfl, rfl, nofun, fun _ => rfl, fun _ => ⟨hnone, hsame _⟩, nofun⟩
    · exact ⟨rfl, fun _ => rfl, rfl, nofun, fun _ => rfl, fun _ => ⟨hnone, hsame _⟩, nofun⟩
  · obtain ⟨_, ⟨r, _, rfl⟩ | ⟨_, _, x, xs, _, T', hT, _, _, _, rfl⟩⟩ := known_next h
    · exact ⟨rfl, fun _ => rfl, rfl, nofun, nofun, fun _ => ⟨hnone, hsame _⟩, nofun⟩
    · refine ⟨rfl, fun _ => rfl, rfl, nofun, nofun, fun _ => ⟨?_, _, rfl⟩, nofun⟩
      obtain ⟨_, rfl⟩ | ⟨_, p, y, ys, _, _, rfl⟩ := hT
      · exact hnone
      · exact hone _
  · obtain ⟨_, ⟨r, _, rfl⟩ | ⟨_, _, _, p, x, xs, _, _, _, _, _, rfl⟩⟩ := kwkwk_next h
    · exact ⟨rfl, fun _ => rfl, rfl, nofun, nofun, fun _ => ⟨hnone, hsame _⟩, nofun⟩
    · exact ⟨rfl, fun _ => rfl, rfl, nofun, nofun, fun _ => ⟨hone _, _, rfl⟩, nofun⟩
  · obtain ⟨_, r, _, rfl⟩ := corrupt_next h
    exact ⟨rfl, fun _ => rfl, rfl, nofun, nofun, fun _ => ⟨hnone, hsame _⟩, fun _ => rfl⟩

/-! ## The fetch of a code (R123, R124) -/

/-- The number that the `cw` bits at `bp` are: the sum of R53, in which a bit beyond the stream counts 0. -/
def State.codeValue (s : State) : Nat :=
  ((List.range s.cw).map fun k => (s.BS[s.bp + k]?.getD false).toNat * 2 ^ k).sum

theorem State.bitsValue_bitsAt (s : State) : bitsValue ((s.bitsAt s.bp s.cw).take s.cw) = s.codeValue := by
  rw [State.bitsAt, List.take_take, Nat.min_self, bitsValue_take]
  simp only [List.getElem?_drop, State.codeValue]

theorem fetch_code {s : State} (hd : s.status = .decoding) (hbits : s.bp + s.cw ≤ s.BL) :
    fetch s = .run (codeInstr s.N s.T.length s.codeValue) s := by
  rw [fetch_of_decoding hd]
  rcases fetchCode_cases s with ⟨_, hrun⟩ | ⟨hlen, _⟩
  · rw [hrun, State.bitsValue_bitsAt]
  · rw [State.bitsAt_length] at hlen; omega

theorem codeInstr_eq_eoi_iff {n tlen c : Nat} : codeInstr n tlen c = .eoi ↔ c = n + 1 := by
  rw [codeInstr_eq]
  refine ⟨fun h => ?_, fun h => ?_⟩
  · split_ifs at h with _ heoi
    exact heoi
  · rw [if_neg (by omega), if_pos h]

/-- A code of any class raises where its bits do not suffice: the width is checked before the class (R123). -/
theorem exec_codeInstr_of_truncated {s : State} (hd : s.status = .decoding) (hshort : s.BL < s.bp + s.cw) (c : Nat) :
    exec (codeInstr s.N s.T.length c) s = .next (s.raise .truncatedStream) := by
  have hraise (cls : CodeClass) (code : Nat) (body : State → Except Stop State) :
      commit s (s.dStep cls code body) = .next (s.raise .truncatedStream) :=
    commit_dStep_eq_next.mpr (.inl ⟨hd, hshort, rfl⟩)
  unfold codeInstr
  cases classify s.N s.T.length c with
  | clear | eoi | known | kwkwk | corrupt => exact hraise ..

theorem step_of_truncated {s : State} (hd : s.status = .decoding) (hshort : s.BL < s.bp + s.cw) :
    step s = .next (s.raise .truncatedStream) := by
  rcases fetchCode_cases s with ⟨_, hfetch⟩ | ⟨_, hfetch⟩ <;> rw [← fetch_of_decoding hd] at hfetch
  · rw [step_of_run hfetch, exec_codeInstr_of_truncated hd hshort]
  · exact step_of_done hfetch

/-- Settles O29: the fetch raises, or the width check of the class it found does. -/
theorem fetchBeyondStreamRaises : Obligations.FetchBeyondStreamRaises := fun _ hd hshort => step_of_truncated hd hshort

/-! ## How the decoder goes on and ends (R126, R134) -/

/-- Settles O54: in each phase the record or the code that the fetch finds has a next state, and so has a fetch that
finds none. -/
theorem runningStepAlwaysHasNext : Obligations.RunningStepAlwaysHasNext := fun _ hs hr => exists_step_running hs hr

/-- The four statuses the decoder can end in (R126). -/
def Status.EndsDecoder (st : Status) : Prop :=
  st = .done ∨ st = .fault .truncatedStream ∨ st = .fault .corruptCodeStream ∨ st = .fault .codeWidthOverflow

theorem Status.endsDecoder_fault {r : Reason} (h : r ≠ .malformedHeader) : (Status.fault r).EndsDecoder := by
  cases r with
  | malformedHeader => exact absurd rfl h
  | truncatedStream => exact .inr (.inl rfl)
  | corruptCodeStream => exact .inr (.inr (.inl rfl))
  | codeWidthOverflow => exact .inr (.inr (.inr rfl))

/-- A D-step leaves the decoder at work or ends it: no class rule raises MalformedHeader. -/
theorem step_decoding_status {s t : State} (hd : s.status = .decoding) (h : step s = .next t) :
    t.status = .decoding ∨ t.status.EndsDecoder := by
  obtain ⟨i, hi, he⟩ | rfl := step_running (running_of_decoding hd) h
  · cases i with
    | clear =>
      obtain ⟨_, ⟨r, hr, rfl⟩ | ⟨_, rfl⟩⟩ := clear_next he
      · exact .inr (Status.endsDecoder_fault hr)
      · exact .inl hd
    | eoi =>
      obtain ⟨_, ⟨r, hr, rfl⟩ | ⟨_, rfl⟩⟩ := eoi_next he
      · exact .inr (Status.endsDecoder_fault hr)
      · exact .inr (.inl rfl)
    | known c =>
      obtain ⟨_, ⟨r, hr, rfl⟩ | ⟨_, _, _, _, _, _, _, _, _, _, rfl⟩⟩ := known_next he
      · exact .inr (Status.endsDecoder_fault hr)
      · exact .inl hd
    | kwkwk c =>
      obtain ⟨_, ⟨r, hr, rfl⟩ | ⟨_, _, _, _, _, _, _, _, _, _, _, rfl⟩⟩ := kwkwk_next he
      · exact .inr (Status.endsDecoder_fault hr)
      · exact .inl hd
    | corrupt c =>
      obtain ⟨_, r, hr, rfl⟩ := corrupt_next he
      exact .inr (Status.endsDecoder_fault hr)
    | data p => rw [(data_next he).1] at hd; cases hd
    | term => rw [(term_next he).1] at hd; cases hd
    | _ => cases hi
  · exact .inr (Status.endsDecoder_fault nofun)

/-- DONE is reached from DECODING alone: by the edges of the status register, no move of the host among them (R35). -/
theorem decoding_of_step_done {s t : State} (h : step s = .next t) (ht : t.status = .done) (hs : s.status ≠ .done) :
    s.status = .decoding := by
  have hexec {i : Instr} {u : State} (hu : u.status = s.status) (he : exec i u = .next t) :
      s.status = .decoding := by
    obtain ⟨hdone, _, _⟩ := phasesChangeOnlyInOrder i u t he
    rw [hu] at hdone
    exact ((hdone ht).resolve_left hs).2
  obtain ⟨_, ⟨i, he⟩ | rfl⟩ | ⟨_, ⟨_, hdone, _⟩ | ⟨r, _, _, rfl⟩ | ⟨_, ⟨e, rfl⟩ | ⟨i, he⟩ | ⟨f, q, _, rfl⟩⟩⟩ := step_next h
  · exact hexec (u := s) rfl he
  · cases ht
  · exact absurd hdone hs
  · exact absurd ht hs
  · exact absurd ht hs
  · exact hexec (u := s.popQueue) rfl he
  · exact absurd ht hs

/-- The step to DONE has run EOI, so the code at `bp` is `N + 1`. -/
theorem codeValue_of_step_done {s t : State} (hd : s.status = .decoding) (h : step s = .next t)
    (ht : t.status = .done) : s.codeValue = s.N + 1 := by
  rcases Nat.lt_or_ge s.BL (s.bp + s.cw) with hshort | hbits
  · rw [step_of_truncated hd hshort] at h
    cases h
    cases ht
  · rw [step_of_run (fetch_code hd hbits)] at h
    obtain ⟨hdone, _, _⟩ := phasesChangeOnlyInOrder _ s t h
    obtain hold | ⟨heoi, _⟩ := hdone ht
    · rw [hd] at hold; cases hold
    · exact codeInstr_eq_eoi_iff.mp heoi

/-- A decoder with at most `n` steps left has ended after at most `n`, by induction on `n`. -/
theorem exists_decoderEnd_of_stepsLeft_le (n : Nat) {s : State} (hs : s.Inv) (hd : s.status = .decoding)
    (hn : s.stepsLeft ≤ n) :
    ∃ (k : Nat) (t : State), k ≤ n ∧ Sys2Proof.core.run k s = .next t ∧ t.status.EndsDecoder := by
  have hr := running_of_decoding hd
  obtain ⟨u, hu⟩ := exists_step_running hs hr
  have hlt := stepsLeft_lt_of_step hs hr hu
  cases n with
  | zero => omega
  | succ n =>
    rcases step_decoding_status hd hu with hgo | hend
    · obtain ⟨k, t, hk, hrun, ht⟩ :=
        exists_decoderEnd_of_stepsLeft_le n (everyStepKeepsInvariant s u hs hu) hgo (by omega)
      exact ⟨k + 1, t, Nat.succ_le_succ hk, (core_run_succ k hu).trans hrun, ht⟩
    · exact ⟨1, u, Nat.le_add_left 1 n, core_run_one hu, hend⟩

/-- Settles O23: what EOI does, that it is the code of every step to DONE, what else a D-step can end in, and the bound. -/
theorem eoiEndsRun : Obligations.EoiEndsRun := by
  refine ⟨fun s hd hbits => ⟨exec_eoi_of_enabled hd hbits, fun hval => ?_⟩, fun s t h ht hs => ?_,
    fun s t hd h => step_decoding_status hd h, fun s hs hd => ?_⟩
  · have hfetch : fetch s = .run .eoi s := by
      rw [fetch_code hd hbits, codeInstr_eq_eoi_iff.mpr (show s.codeValue = s.N + 1 from hval)]
    exact (step_of_run hfetch).trans (exec_eoi_of_enabled hd hbits)
  · have hd := decoding_of_step_done h ht hs
    exact ⟨hd, codeValue_of_step_done hd h ht⟩
  · exact exists_decoderEnd_of_stepsLeft_le _ hs hd (State.stepsLeft_of_decoding hd).le

end Sys2Proof.Machine
end

section
/-! PROOF. The host's stages one by one, from the buffer's bytes to the host's registers, and the load of a file (R151 to R162): settles O37, O38, O40, O41, O46 and O50. -/

namespace Sys2Proof.Machine

/-! ## What a stage answers -/

theorem commit_stageDone_ok (s u : State) : commit s (stageDone (.ok u)) = .next (u.replyWith .stageDone) := rfl

theorem commit_stageDone_hostFail (s : State) (e : HostError) :
    commit s (stageDone (.error (.hostFail e))) = .next (s.hostFail e) := rfl

theorem exec_parseHeader (s : State) : exec .parseHeader s = commit s (stageDone s.parseHeader) := rfl

theorem exec_extractGct (e : BitVec 3) (s : State) : exec (.extractGct e) s = commit s (stageDone (s.extractGct e)) := rfl

theorem exec_locateImage (g : Nat) (s : State) : exec (.locateImage g) s = commit s (stageDone (s.locateImage g)) := rfl

theorem exec_buildGrid (o : List Nat) (w : Nat) (s : State) :
    exec (.buildGrid o w) s = commit s (stageDone (s.buildGrid o w)) := rfl

/-! ## PARSE_HEADER (R151 to R153) -/

/-- The six bytes of the signature (R151). -/
def State.signature (s : State) : List Byte :=
  [s.BUF.read 0, s.BUF.read 1, s.BUF.read 2, s.BUF.read 3, s.BUF.read 4, s.BUF.read 5]

/-- The screen descriptor that the buffer's bytes 6 to 12 give (R152, R77). -/
def State.screenDescriptor (s : State) : Screen where
  width := s.BUF.read 7 ++ s.BUF.read 6
  height := s.BUF.read 9 ++ s.BUF.read 8
  gctFlag := (s.BUF.read 10).extractLsb' 7 1
  colorRes := (s.BUF.read 10).extractLsb' 4 3
  sortFlag := (s.BUF.read 10).extractLsb' 3 1
  e := (s.BUF.read 10).extractLsb' 0 3
  background := s.BUF.read 11
  aspect := s.BUF.read 12

theorem State.bytesAt_signature {s : State} (h : 13 ≤ s.L) : s.bytesAt 0 6 = s.signature := by
  rw [State.bytesAt, Nat.min_eq_left (by omega)]; rfl

/-- The signature is ASCII when each of its six bytes is at most `0x7F` (D18). -/
theorem asciiBytes_signature_iff (s : State) : asciiBytes s.signature = true ↔ ∀ k < 6, (s.BUF.read k).toNat ≤ 0x7F := by
  have hmap : s.signature = (List.range 6).map s.BUF.read := rfl
  rw [asciiBytes, hmap]
  simp only [List.all_eq_true, List.forall_mem_map, List.mem_range, decide_eq_true_eq]

theorem State.parseHeader_of_wellFormed {s : State} (hL : 13 ≤ s.L) (hsig : ∀ k < 6, (s.BUF.read k).toNat ≤ 0x7F) :
    s.parseHeader = .ok { s with host := { s.host with sig := s.signature, screen := s.screenDescriptor } } := by
  rw [State.parseHeader, if_neg (Nat.not_lt.mpr hL), State.bytesAt_signature hL,
    if_pos ((asciiBytes_signature_iff s).mpr hsig), State.readScreen_ok hL]
  rfl

theorem State.parseHeader_of_malformed {s : State} (h : s.L < 13 ∨ ∃ k < 6, 0x7F < (s.BUF.read k).toNat) :
    s.parseHeader = .error (.hostFail headerError) := by
  by_cases hL : s.L < 13
  · exact if_pos hL
  · obtain ⟨k, hk, hbyte⟩ := h.resolve_left hL
    have hsig : ¬ asciiBytes s.signature = true := fun hascii =>
      Nat.not_lt.mpr ((asciiBytes_signature_iff s).mp hascii k hk) hbyte
    rw [State.parseHeader, if_neg hL, State.bytesAt_signature (Nat.not_lt.mp hL), if_neg hsig]

/-- Settles O37: the stage gives its registers from the bytes at their offsets, or MalformedHeader. -/
theorem parseHeaderReadsDescriptor : Obligations.ParseHeaderReadsDescriptor := by
  refine fun s => ⟨fun hL hsig => ?_, fun h => ?_⟩
  · rw [exec_parseHeader, State.parseHeader_of_wellFormed hL hsig]; rfl
  · rw [exec_parseHeader, State.parseHeader_of_malformed h]; rfl

/-! ## EXTRACT_GCT (R154, R155) -/

theorem State.extractGct_of_le {s : State} {e : BitVec 3} (h : 13 + 3 * colorCount e ≤ s.L) :
    s.extractGct e = .ok { s with host := { s.host with
      N := colorCount e, G := 3 * colorCount e, gct := s.triples (colorCount e) } } := if_neg (Nat.not_lt.mpr h)

theorem State.extractGct_of_lt {s : State} {e : BitVec 3} (h : s.L < 13 + 3 * colorCount e) :
    s.extractGct e = .error (.hostFail .invalidColorTableSize) := if_pos h

theorem State.triples_getElem? (s : State) {n i : Nat} (h : i < n) : (s.triples n)[i]? =
    some ⟨s.BUF.read (13 + 3 * i), s.BUF.read (13 + 3 * i + 1), s.BUF.read (13 + 3 * i + 2)⟩ := by
  simp only [State.triples, List.getElem?_map, List.getElem?_range h, Option.map_some, Config.headerLength]

/-- Settles O38: the table is the list of triples from offset 13 on. -/
theorem extractGctTakesTriples : Obligations.ExtractGctTakesTriples := by
  refine fun s e =>
    ⟨fun h => ⟨s.triples (colorCount e), ?_, s.triples_length _, fun i => s.triples_getElem?⟩, fun h => ?_⟩
  · rw [exec_extractGct, State.extractGct_of_le h]; rfl
  · rw [exec_extractGct, State.extractGct_of_lt h]; rfl

/-! ## LOCATE_IMAGE (R156, R157) -/

/-- The image descriptor that the nine bytes behind a separator at `a` give (R157, R78). -/
def State.imageDescriptor (s : State) (a : Nat) : Image where
  left := s.BUF.read (a + 2) ++ s.BUF.read (a + 1)
  top := s.BUF.read (a + 4) ++ s.BUF.read (a + 3)
  width := s.BUF.read (a + 6) ++ s.BUF.read (a + 5)
  height := s.BUF.read (a + 8) ++ s.BUF.read (a + 7)
  lctFlag := (s.BUF.read (a + 9)).extractLsb' 7 1
  interlace := (s.BUF.read (a + 9)).extractLsb' 6 1
  sortFlag := (s.BUF.read (a + 9)).extractLsb' 5 1
  reserved := (s.BUF.read (a + 9)).extractLsb' 3 2
  lctExp := (s.BUF.read (a + 9)).extractLsb' 0 3

/-- A sequence of reads that can fail with `e` alone, and fails in what follows its first read, fails with `e`. -/
theorem bind_eq_error {α β : Type} {e : Stop} {x : Except Stop α} {f : α → Except Stop β}
    (hx : ∀ d, x = .error d → d = e) (hf : ∀ a, f a = .error e) : (x >>= f) = .error e := by
  cases x with
  | error d => rw [hx d rfl]; rfl
  | ok a => exact hf a

theorem State.hostField_of_le {s : State} {a : Nat} (w st : Nat) (h : s.L ≤ a) :
    s.hostField w a st = .error (.hostFail headerError) := by
  rw [State.hostField, State.readField_of_le st w h]; rfl

/-- A descriptor that runs past the buffer: the read of its last byte fails, if none before it does (R104, R157). -/
theorem State.readImage_of_le {s : State} {a : Nat} (h : s.L ≤ a + 9) :
    s.readImage a = .error (.hostFail headerError) := by
  unfold State.readImage
  refine bind_eq_error hostWord_error fun _ => bind_eq_error hostWord_error fun _ =>
    bind_eq_error hostWord_error fun _ => bind_eq_error hostWord_error fun _ => ?_
  rw [State.hostField_of_le 1 0 h]
  rfl

theorem State.locateImage_of_fits {s : State} {g a : Nat} (ha : s.findSeparator (13 + g) = some a) (h : a + 9 < s.L) :
    s.locateImage g = .ok { s with host := { s.host with S := a, image := s.imageDescriptor a } } := by
  simp only [State.locateImage, Config.headerLength, ha, State.readImage_ok h]; rfl

theorem State.locateImage_of_truncated {s : State} {g a : Nat} (ha : s.findSeparator (13 + g) = some a)
    (h : s.L ≤ a + 9) : s.locateImage g = .error (.hostFail headerError) := by
  simp only [State.locateImage, Config.headerLength, ha, State.readImage_of_le h]; rfl

theorem State.locateImage_of_none {s : State} {g : Nat} (h : s.findSeparator (13 + g) = none) :
    s.locateImage g = .error (.hostFail .imageDescriptorNotFound) := by
  simp only [State.locateImage, Config.headerLength, h]

/-- Settles O40: the scan gives the least separator, and the reads of the descriptor end at `a + 9`. -/
theorem locateImageFindsFirstSeparator : Obligations.LocateImageFindsFirstSeparator := by
  refine fun s g => ⟨fun a hstart hlt ha hleast => ?_, fun hnone => ?_⟩
  · have hfind := State.findSeparator_eq_some hstart hlt ha hleast
    refine ⟨fun hfits => ?_, fun htrunc => ?_⟩
    · rw [exec_locateImage, State.locateImage_of_fits hfind hfits]; rfl
    · rw [exec_locateImage, State.locateImage_of_truncated hfind htrunc]; rfl
  · rw [exec_locateImage, State.locateImage_of_none (State.findSeparator_eq_none hnone)]; rfl

/-! ## BUILD_GRID (R159, R160) -/

theorem exec_buildGrid_of_dvd {o : List Nat} {w : Nat} (hw : w ≠ 0) (ho : o.length % w = 0) (s : State) :
    exec (.buildGrid o w) s = .next { s with host := { s.host with grid := gridRows o w, reply := .stageDone } } := by
  rw [exec_buildGrid, State.buildGrid, if_neg (by tauto)]; rfl

theorem exec_buildGrid_of_not_dvd {o : List Nat} {w : Nat} (h : w = 0 ∨ o.length % w ≠ 0) (s : State) :
    exec (.buildGrid o w) s = .next (s.hostFail .dimensionMismatch) := by
  rw [exec_buildGrid, State.buildGrid, if_pos h]; rfl

theorem gridRows_length (o : List Nat) (w : Nat) : (gridRows o w).length = o.length / w := by simp [gridRows]

theorem gridRows_getElem? {o : List Nat} {w r : Nat} (h : r < o.length / w) :
    (gridRows o w)[r]? = some ((o.drop (r * w)).take w) := by
  simp only [gridRows, List.getElem?_map, List.getElem?_range h, Option.map_some]

/-- Row `r` ends at `(r + 1) * w`, which is within the sequence. -/
theorem gridRows_row_length {o row : List Nat} {w : Nat} (h : row ∈ gridRows o w) : row.length = w := by
  simp only [gridRows, List.mem_map, List.mem_range] at h
  obtain ⟨r, hr, rfl⟩ := h
  have hend : r * w + w ≤ o.length :=
    Nat.succ_mul r w ▸ (Nat.mul_le_mul_right w hr).trans (Nat.div_mul_le_self _ _)
  rw [List.length_take, List.length_drop]
  omega

/-- The first `n` rows joined are the first `n * w` colors. -/
theorem flatten_rows (o : List Nat) (w n : Nat) :
    ((List.range n).map fun r => (o.drop (r * w)).take w).flatten = o.take (n * w) := by
  induction n with
  | zero => simp
  | succ n ih =>
    rw [List.range_succ, List.map_append, List.flatten_append, ih, Nat.succ_mul, List.take_add]
    simp

theorem gridRows_flatten {o : List Nat} {w : Nat} (h : o.length % w = 0) : (gridRows o w).flatten = o := by
  rw [gridRows, flatten_rows, Nat.div_mul_cancel (Nat.dvd_of_mod_eq_zero h), List.take_length]

/-- Settles O41: the rows are consecutive slices of `w` colors. -/
theorem buildGridReshapesRows : Obligations.BuildGridReshapesRows := by
  refine fun s o w => ⟨fun hw ho => ⟨gridRows o w, exec_buildGrid_of_dvd hw ho s, gridRows_length o w,
    fun row => gridRows_row_length, gridRows_flatten ho, fun r hr c hc => ?_⟩, fun h => exec_buildGrid_of_not_dvd h s⟩
  rw [gridRows_getElem? hr, Option.bind_some, List.getElem?_take_of_lt hc, List.getElem?_drop]

/-! ## The load of a file (R162, R194) -/

/-- Settles O46: the step takes the request off the script and loads the file, or reports that there is none. -/
theorem loadSuppliesWholeFile : Obligations.LoadSuppliesWholeFile := by
  refine fun s q hr hj => ⟨fun file hq => ⟨Memory.ofBytes 0 file, ?_, Memory.ofBytes_wf 0 file, fun c hc => ?_,
    fun k hk => ?_⟩, fun hq => ?_⟩
  · rw [step_of_done (fetch_of_request hr hj hq), State.popQueue_eq hq]; rfl
  · simpa using (Memory.ofBytes_mem hc).2
  · have hread := Memory.ofBytes_read 0 file k
    rw [Nat.zero_add, List.getElem?_eq_getElem hk, Option.getD_some] at hread
    rw [List.getElem?_eq_getElem hk, hread]
  · rw [step_of_done (fetch_of_request hr hj hq), State.popQueue_eq hq, State.hostFail, ← hj]

/-! ## The frame of the host's stages and header bytes (R150) -/

/-- Settles O50: by what each stage and each header byte does when it answers a next state. -/
theorem hostStagesFrame : Obligations.HostStagesFrame := by
  intro i s t hi h
  obtain rfl | ⟨e, rfl⟩ | ⟨g, rfl⟩ | ⟨o, w, rfl⟩ | ⟨g, r, st, e, rfl⟩ | ⟨lct, il, st, rs, e, rfl⟩ | rfl | ⟨m, rfl⟩ := hi
  · obtain ⟨sg, d, _, rfl⟩ | ⟨_, rfl⟩ := parseHeader_next h
    · exact ⟨rfl, fun _ => rfl, fun _ => rfl, rfl, fun _ => rfl, nofun, nofun, nofun⟩
    · exact ⟨rfl, fun _ => rfl, fun _ => rfl, rfl, fun _ => rfl, nofun, nofun, nofun⟩
  · obtain ⟨_, rfl⟩ | ⟨_, rfl⟩ := extractGct_next h
    · exact ⟨rfl, fun _ => rfl, fun _ => rfl, rfl, nofun, fun _ => rfl, nofun, nofun⟩
    · exact ⟨rfl, fun _ => rfl, fun _ => rfl, rfl, nofun, fun _ => rfl, nofun, nofun⟩
  · obtain ⟨a, d, _, rfl⟩ | ⟨_, _, _, rfl⟩ := locateImage_next h
    · exact ⟨rfl, fun _ => rfl, fun _ => rfl, rfl, nofun, nofun, fun _ => rfl, nofun⟩
    · exact ⟨rfl, fun _ => rfl, fun _ => rfl, rfl, nofun, nofun, fun _ => rfl, nofun⟩
  · obtain ⟨_, _, rfl⟩ | ⟨_, rfl⟩ := buildGrid_next h
    · exact ⟨rfl, fun _ => rfl, fun _ => rfl, rfl, nofun, nofun, nofun, fun _ => rfl⟩
    · exact ⟨rfl, fun _ => rfl, fun _ => rfl, rfl, nofun, nofun, nofun, fun _ => rfl⟩
  · cases h
    exact ⟨rfl, fun _ => rfl, fun _ => rfl, rfl, nofun, nofun, nofun, nofun⟩
  · cases h
    exact ⟨rfl, fun _ => rfl, fun _ => rfl, rfl, nofun, nofun, nofun, nofun⟩
  · obtain ⟨a, rfl⟩ | rfl := sep_next h
    · exact ⟨rfl, fun _ => rfl, fun _ => rfl, rfl, nofun, nofun, nofun, nofun⟩
    · exact ⟨rfl, fun _ => rfl, fun _ => rfl, rfl, nofun, nofun, nofun, nofun⟩
  · obtain ⟨_, rfl⟩ := mcs_next h
    exact ⟨rfl, fun _ => rfl, fun hm => absurd rfl (hm m), rfl, nofun, nofun, nofun, nofun⟩

end Sys2Proof.Machine
end

section
/-! PROOF. What an instruction writes to the host's reply (R100, R150, R195), and which of them report InvalidColorTableSize (R155): settles O39. -/

namespace Sys2Proof.Machine

/-- A step of the block writes no register of the host but the reply, with the bits of a bare ASSEMBLE (R195). -/
theorem blockStep_host {i : Instr} {s t : State} (hi : i.isBlockStep = true) (h : exec i s = .next t) :
    t.host = s.host ∨ (s.status = .assembling ∧ s.inRun = false ∧ t.host = { s.host with reply := .bits s.BS }) := by
  cases i with
  | clear => obtain ⟨_, ⟨_, _, rfl⟩ | ⟨_, rfl⟩⟩ := clear_next h <;> exact .inl rfl
  | eoi => obtain ⟨_, ⟨_, _, rfl⟩ | ⟨_, rfl⟩⟩ := eoi_next h <;> exact .inl rfl
  | known c => obtain ⟨_, ⟨_, _, rfl⟩ | ⟨_, _, _, _, _, _, _, _, _, _, rfl⟩⟩ := known_next h <;> exact .inl rfl
  | kwkwk c => obtain ⟨_, ⟨_, _, rfl⟩ | ⟨_, _, _, _, _, _, _, _, _, _, _, rfl⟩⟩ := kwkwk_next h <;> exact .inl rfl
  | corrupt c => obtain ⟨_, _, _, rfl⟩ := corrupt_next h; exact .inl rfl
  | data p => obtain ⟨_, _, ⟨_, rfl⟩ | ⟨_, rfl⟩⟩ := data_next h <;> exact .inl rfl
  | term =>
    obtain ⟨ha, ⟨_, rfl⟩ | ⟨_, ⟨_, _, rfl⟩ | ⟨hbare, rfl⟩⟩⟩ := term_next h
    · exact .inl rfl
    · exact .inl rfl
    · exact .inr ⟨ha, hbare, rfl⟩
  | _ => cases hi

/-- A Field Reader command tells the host a value, or the reason of its failed read (R100). -/
theorem fieldReader_next {i : Instr} {s t : State}
    (hi : (∃ a, i = .rd8 a) ∨ (∃ a, i = .rd16le a) ∨ ∃ a st n, i = .rdbits a st n) (h : exec i s = .next t) :
    (∃ v, t = s.replyWith (.value v)) ∨ ∃ r, t = s.hostFail (.block r) := by
  obtain ⟨x, hx⟩ := exec_fieldReader_of_next hi h
  obtain ⟨v, _, ht⟩ | ⟨r, _, ht⟩ := replyValue_next ((hx s rfl rfl).symm.trans h)
  · exact .inl ⟨v, ht⟩
  · exact .inr ⟨r, ht⟩

/-- RUN issued by DECODE_FILE empties the reply, whether it starts or faults (R158). -/
theorem State.issueRun_reply (s : State) : s.issueRun.host.reply = .none := by
  rcases issueRun_cases s with ⟨_, e⟩ | ⟨_, e⟩ <;> rw [e] <;> rfl

/-- Where InvalidColorTableSize can come from when it is newly reported (R155, R161). -/
theorem exec_invalidColorTableSize {i : Instr} {s t : State} (h : exec i s = .next t)
    (ht : t.host.reply = .error .invalidColorTableSize) (hs : s.host.reply ≠ .error .invalidColorTableSize) :
    (∃ e : BitVec 3, i = .extractGct e ∧ s.L < 13 + 3 * colorCount e) ∨
      (i = .decodeFile ∧ s.L < 13 + 3 * 2 ^ ((s.BUF.read 10).toNat % 8 + 1)) := by
  cases hb : i.isBlockStep with
  | true =>
    obtain e | ⟨_, _, e⟩ := blockStep_host hb h <;> rw [e] at ht
    · exact absurd ht hs
    · cases ht
  | false =>
    cases i with
    | clear | eoi | known | kwkwk | corrupt | data | term => cases hb
    | pk10 | pk9 => cases h; cases ht
    | sep => obtain ⟨_, rfl⟩ | rfl := sep_next h <;> cases ht
    | mcs m => obtain ⟨_, rfl⟩ := mcs_next h; cases ht
    | rd8 a => obtain ⟨_, rfl⟩ | ⟨_, rfl⟩ := fieldReader_next (.inl ⟨a, rfl⟩) h <;> cases ht
    | rd16le a => obtain ⟨_, rfl⟩ | ⟨_, rfl⟩ := fieldReader_next (.inr (.inl ⟨a, rfl⟩)) h <;> cases ht
    | rdbits a st n => obtain ⟨_, rfl⟩ | ⟨_, rfl⟩ := fieldReader_next (.inr (.inr ⟨a, st, n, rfl⟩)) h <;> cases ht
    | assemble p => obtain ⟨_, rfl⟩ := assemble_next h; cases ht
    | decode b m n =>
      obtain ⟨_, _, ⟨_, rfl⟩ | ⟨_, rfl⟩⟩ := decode_next h
      · exact absurd ht hs
      · cases ht
    | run sp n =>
      obtain ⟨_, _, ⟨_, rfl⟩ | ⟨_, rfl⟩⟩ := run_next h
      · exact absurd ht hs
      · cases ht
    | parseHeader => obtain ⟨_, _, _, rfl⟩ | ⟨_, rfl⟩ := parseHeader_next h <;> cases ht
    | locateImage g => obtain ⟨_, _, _, rfl⟩ | ⟨_, _, rfl | rfl, rfl⟩ := locateImage_next h <;> cases ht
    | buildGrid o w => obtain ⟨_, _, rfl⟩ | ⟨_, rfl⟩ := buildGrid_next h <;> cases ht
    | extractGct e =>
      obtain ⟨_, rfl⟩ | ⟨hL, rfl⟩ := extractGct_next h
      · cases ht
      · exact .inl ⟨e, rfl, hL⟩
    | decodeFile =>
      obtain ⟨_, ⟨u, _, rfl⟩ | ⟨e, _, he, rfl⟩⟩ := decodeFile_next h
      · exact absurd (u.issueRun_reply.symm.trans ht) nofun
      · obtain rfl : e = .invalidColorTableSize := Reply.error.inj ht
        obtain he | he | ⟨_, hL⟩ := he
        · cases he
        · cases he
        · exact .inr ⟨rfl, hL⟩

/-- Settles O39: EXTRACT_GCT by its two answers, every other instruction by what it tells the host. -/
theorem invalidColorTableSizeOnlyWhenTooShort : Obligations.InvalidColorTableSizeOnlyWhenTooShort := by
  refine ⟨fun s e => ?_, fun i s t h ht hs => exec_invalidColorTableSize h ht hs⟩
  rcases Nat.lt_or_ge s.L (13 + 3 * colorCount e) with hshort | hfits
  · refine ⟨s.hostFail .invalidColorTableSize, ?_, fun _ => hshort, fun _ => rfl⟩
    rw [exec_extractGct, State.extractGct_of_lt hshort, commit_stageDone_hostFail]
  · refine ⟨_, (exec_extractGct e s).trans (by rw [State.extractGct_of_le hfits, commit_stageDone_ok]),
      fun hreply => ?_, fun hshort => absurd hfits (Nat.not_le.mpr hshort)⟩
    cases hreply

end Sys2Proof.Machine
end

section
/-! PROOF. DECODE_FILE's own step: its stages in order, each as its own instruction would do it, and RUN behind them (R158, R161): settles O42 and O43. -/

namespace Sys2Proof.Machine

/-! ## DECODE_FILE past its stages -/

/-- DECODE_FILE once its stages have succeeded: RUN is issued, and the host waits for its end (R158). -/
def State.issued (u : State) : State := { u.issueRun with host := { u.issueRun.host with job := .awaitRun } }

theorem exec_decodeFile_of_stages {s u : State} (hr : s.status.running = false) (h : s.fileStages = .ok u) :
    exec .decodeFile s = .next u.issued := by
  rw [exec, execDecodeFile, State.whenNotRunning_of_not hr, h]; rfl

theorem exec_decodeFile_of_failed {s : State} {e : HostError} (hr : s.status.running = false)
    (h : s.fileStages = .error (.hostFail e)) : exec .decodeFile s = .next (s.hostFail e) := by
  rw [exec, execDecodeFile, State.whenNotRunning_of_not hr, h]; rfl

/-- The stages write the host's registers alone, and the color table has `N` triples, at least one (R41, R154). -/
theorem fileStages_frame {s u : State} (h : s.fileStages = .ok u) :
    u = { s with host := u.host } ∧ 1 ≤ u.host.N ∧ u.host.gct.length = u.host.N := by
  rcases fileStages_cases s with ⟨sg, d, a, im, e⟩ | ⟨_, e, _⟩ <;> rw [e] at h <;> cases h
  exact ⟨rfl, colorCount_pos d.e, s.triples_length _⟩

/-! ## The stages in order (R161) -/

section Order

variable {s s1 s2 : State} {x : Stop}

theorem fileStages_of_header_error (h : s.parseHeader = .error x) : s.fileStages = .error x := by
  simp only [State.fileStages, h]

variable (h1 : s.parseHeader = .ok s1)
include h1

theorem fileStages_of_gct_error (h2 : s1.extractGct s1.host.screen.e = .error x) : s.fileStages = .error x := by
  simp only [State.fileStages, h1, h2]

theorem fileStages_of_gct (h2 : s1.extractGct s1.host.screen.e = .ok s2) :
    s.fileStages = s2.locateImage s2.host.G := by
  simp only [State.fileStages, h1, h2]

end Order

/-! ## A stage as an instruction and as a part of DECODE_FILE

As an instruction it ends with a reply, which the next stage, run as an instruction too, finds in the state and does not
read. -/

theorem map_eq_ok {α β : Type} {x : Except Stop α} {f : α → β} {b : β} (h : x.map f = .ok b) :
    ∃ a, x = .ok a ∧ f a = b := by
  cases x with
  | ok a => exact ⟨a, rfl, Except.ok.inj h⟩
  | error e => cases h

theorem map_eq_error {α β : Type} {x : Except Stop α} {f : α → β} {e : Stop} (h : x.map f = .error e) :
    x = .error e := by
  cases x with
  | ok a => cases h
  | error d => exact congrArg Except.error (Except.error.inj h)

theorem State.extractGct_replyWith (s : State) (r : Reply) (e : BitVec 3) :
    (s.replyWith r).extractGct e = (s.extractGct e).map (·.replyWith r) := by
  rcases extractGct_cases s e with ⟨hL, h⟩ | ⟨hL, h⟩ <;> rw [h]
  · exact State.extractGct_of_le hL
  · exact State.extractGct_of_lt hL

theorem State.locateImage_replyWith (s : State) (r : Reply) (g : Nat) :
    (s.replyWith r).locateImage g = (s.locateImage g).map (·.replyWith r) := by
  rw [State.replyWith, State.locateImage_withHost]
  cases hf : s.findSeparator (13 + g) with
  | none => rw [State.locateImage_of_none hf]; rfl
  | some a => simp only [State.locateImage, Config.headerLength, hf]; cases s.readImage a <;> rfl

section Stage

variable {s t : State} {x : Except Stop State} (hx : ∀ r, x ≠ .error (.raise r))
  (h : commit s (stageDone x) = .next t)
include hx h

theorem stage_of_done (hdone : t.host.reply = .stageDone) : ∃ u, x = .ok u ∧ t = u.replyWith .stageDone := by
  obtain hok | ⟨r, e, _⟩ | ⟨_, _, rfl⟩ := stage_next h
  · exact hok
  · exact absurd e (hx r)
  · cases hdone

theorem stage_of_error {e : HostError} (he : t.host.reply = .error e) : x = .error (.hostFail e) := by
  obtain ⟨_, _, rfl⟩ | ⟨r, e, _⟩ | ⟨f, hfail, rfl⟩ := stage_next h
  · cases he
  · exact absurd e (hx r)
  · rw [hfail, Reply.error.inj he]

end Stage

theorem parseHeader_ne_raise (s : State) (r : Reason) : s.parseHeader ≠ .error (.raise r) := by
  rcases parseHeader_cases s with ⟨_, _, e⟩ | e <;> rw [e] <;> exact nofun

theorem extractGct_ne_raise (s : State) (e : BitVec 3) (r : Reason) : s.extractGct e ≠ .error (.raise r) := by
  rcases extractGct_cases s e with ⟨_, e⟩ | ⟨_, e⟩ <;> rw [e] <;> exact nofun

theorem locateImage_ne_raise (s : State) (g : Nat) (r : Reason) : s.locateImage g ≠ .error (.raise r) := by
  rcases locateImage_cases s g with ⟨_, _, _, e⟩ | ⟨_, e, _⟩ <;> rw [e] <;> exact nofun

/-! The three stages as instructions, the second and the third on a state with the reply of the stage before. -/

theorem parseHeader_of_done {s t : State} (h : exec .parseHeader s = .next t) (hdone : t.host.reply = .stageDone) :
    ∃ u, s.parseHeader = .ok u ∧ t = u.replyWith .stageDone := stage_of_done (parseHeader_ne_raise s) h hdone

theorem parseHeader_of_error {s t : State} {e : HostError} (h : exec .parseHeader s = .next t)
    (he : t.host.reply = .error e) : s.parseHeader = .error (.hostFail e) := stage_of_error (parseHeader_ne_raise s) h he

section Replied

variable {s t : State} {r : Reply}

theorem extractGct_of_done {e : BitVec 3} (h : exec (.extractGct e) (s.replyWith r) = .next t)
    (hdone : t.host.reply = .stageDone) : ∃ u, s.extractGct e = .ok u ∧ t = u.replyWith .stageDone := by
  obtain ⟨_, hreplied, rfl⟩ := stage_of_done (extractGct_ne_raise _ e) h hdone
  obtain ⟨u, hu, rfl⟩ := map_eq_ok ((s.extractGct_replyWith r _).symm.trans hreplied)
  exact ⟨u, hu, rfl⟩

theorem extractGct_of_error {e : BitVec 3} {f : HostError} (h : exec (.extractGct e) (s.replyWith r) = .next t)
    (hf : t.host.reply = .error f) : s.extractGct e = .error (.hostFail f) :=
  map_eq_error ((s.extractGct_replyWith r e).symm.trans (stage_of_error (extractGct_ne_raise _ e) h hf))

theorem locateImage_of_done {g : Nat} (h : exec (.locateImage g) (s.replyWith r) = .next t)
    (hdone : t.host.reply = .stageDone) : ∃ u, s.locateImage g = .ok u ∧ t = u.replyWith .stageDone := by
  obtain ⟨_, hreplied, rfl⟩ := stage_of_done (locateImage_ne_raise _ g) h hdone
  obtain ⟨u, hu, rfl⟩ := map_eq_ok ((s.locateImage_replyWith r _).symm.trans hreplied)
  exact ⟨u, hu, rfl⟩

theorem locateImage_of_error {g : Nat} {f : HostError} (h : exec (.locateImage g) (s.replyWith r) = .next t)
    (hf : t.host.reply = .error f) : s.locateImage g = .error (.hostFail f) :=
  map_eq_error ((s.locateImage_replyWith r g).symm.trans (stage_of_error (locateImage_ne_raise _ g) h hf))

end Replied

/-- RUN as an instruction, on the operands that DECODE_FILE issues it with: it does the same, but for the job, and for the
reply, which a faulting start leaves (R158). -/
theorem exec_run_issued {u : State} (hr : u.status.running = false) (hN : 1 ≤ u.host.N) (r : Reply) :
    ∃ t, exec (.run u.host.S u.host.N) (u.replyWith r) = .next t ∧
      u.issued = { t with host := { t.host with job := .awaitRun, reply := .none } } := by
  obtain ⟨hfits, htrunc, _, _⟩ := runLatchesInputsAndStartsAssembler (u.replyWith r) u.host.S u.host.N
  obtain ⟨hL, e⟩ | ⟨hL, e⟩ := issueRun_cases u
  · exact ⟨_, htrunc hr hN hL, by rw [State.issued, e]; rfl⟩
  · exact ⟨_, hfits hr hN hL, by rw [State.issued, e]; rfl⟩

/-- Settles O42: what each stage's own `exec` answers says what the stage gives inside DECODE_FILE. -/
theorem decodeFileRunsStagesInOrder : Obligations.DecodeFileRunsStagesInOrder := by
  refine fun s => ⟨fun hr => ?_, fun hr => ⟨fun t e hexec he => ?_, fun t1 hexec1 hdone1 => ?_⟩⟩
  · rw [exec, execDecodeFile, State.whenNotRunning_of_running hr]; rfl
  · exact exec_decodeFile_of_failed hr (fileStages_of_header_error (parseHeader_of_error hexec he))
  obtain ⟨s1, h1, rfl⟩ := parseHeader_of_done hexec1 hdone1
  refine ⟨fun t e hexec he => ?_, fun t2 hexec2 hdone2 => ?_⟩
  · exact exec_decodeFile_of_failed hr (fileStages_of_gct_error h1 (extractGct_of_error hexec he))
  obtain ⟨s2, h2, rfl⟩ := extractGct_of_done hexec2 hdone2
  have hstages := fileStages_of_gct h1 h2
  refine ⟨fun t e hexec he => ?_, fun t3 hexec3 hdone3 => ?_⟩
  · exact exec_decodeFile_of_failed hr (hstages.trans (locateImage_of_error hexec he))
  obtain ⟨u, h3, rfl⟩ := locateImage_of_done hexec3 hdone3
  have hu := hstages.trans h3
  obtain ⟨hframe, hN, _⟩ := fileStages_frame hu
  have hru : u.status.running = false := by rw [hframe]; exact hr
  obtain ⟨t4, hrun, hissued⟩ := exec_run_issued hru hN .stageDone
  exact ⟨t4, hrun, (exec_decodeFile_of_stages hr hu).trans (congrArg _ hissued)⟩

/-! ## A well-formed file (R151 to R158) -/

/-- The exponent in the buffer's byte 10 is its low three bits (R77). -/
theorem colorCount_screenDescriptor (s : State) :
    colorCount s.screenDescriptor.e = 2 ^ ((s.BUF.read 10).toNat % 8 + 1) := by
  simp [colorCount, State.screenDescriptor]

/-- The host's registers once the stages have succeeded on a file with its separator at `a`. -/
def State.hostPastStages (s : State) (a : Nat) : HostState :=
  { s.host with
    sig := s.signature, screen := s.screenDescriptor, N := colorCount s.screenDescriptor.e,
    G := 3 * colorCount s.screenDescriptor.e, gct := s.triples (colorCount s.screenDescriptor.e), S := a,
    image := s.imageDescriptor a }

theorem fileStages_of_wellFormed {s : State} {a : Nat} (hsig : ∀ k < 6, (s.BUF.read k).toNat ≤ 0x7F)
    (hstart : 13 + 3 * colorCount s.screenDescriptor.e ≤ a)
    (hfind : s.findSeparator (13 + 3 * colorCount s.screenDescriptor.e) = some a) (hL : a + 9 < s.L) :
    s.fileStages = .ok { s with host := s.hostPastStages a } :=
  (fileStages_of_gct (State.parseHeader_of_wellFormed (by omega) hsig)
    (State.extractGct_of_le (hstart.trans (by dsimp only; omega)))).trans (State.locateImage_of_fits hfind hL)

/-- Settles O43: the stages succeed, and RUN finds its `mcs` byte in the buffer. -/
theorem decodeFileStartsRunOnWellFormedFile : Obligations.DecodeFileStartsRunOnWellFormedFile := by
  intro s a hr hsig hstart ha hleast hL
  rw [← colorCount_screenDescriptor] at hstart hleast ⊢
  have hstages := fileStages_of_wellFormed hsig hstart
    (State.findSeparator_eq_some hstart (by omega) ha hleast) (by omega)
  refine ⟨{ s.hostPastStages a with reply := .none, job := .awaitRun }, ?_, rfl, rfl, rfl, rfl, rfl⟩
  rw [exec_decodeFile_of_stages hr hstages, State.issued]
  obtain ⟨hshort, _⟩ | ⟨_, e⟩ := issueRun_cases { s with host := s.hostPastStages a }
  · exact absurd hL (Nat.not_lt.mpr hshort)
  · rw [e]; rfl

end Sys2Proof.Machine
end

section
/-! PROOF. DECODE_FILE's wait for its run (R158, R161, R163): the run's invariant and what its steps leave of the host's registers, the step that ends the wait, and that it comes within the run's bound: settles O58, O44 and O45. -/

namespace Sys2Proof.Machine

/-! ## The run that is issued -/

/-- The run has the host's `N`, and the host's color table as many triples (R154, R158). -/
theorem State.Inv.issued_of_fileStages {s u : State} (hs : s.Inv) (h : s.fileStages = .ok u) : u.issued.Inv := by
  obtain ⟨hBUF, hL, hMAXW⟩ := (State.sameInput_of_fileStages h).trans u.sameInput_issueRun
  have hin : s.SameInput u.issued := ⟨hBUF, hL, hMAXW⟩
  obtain ⟨_, hN, hg⟩ := fileStages_frame h
  rw [State.issued] at hin ⊢
  obtain ⟨_, e⟩ | ⟨_, e⟩ := issueRun_cases u <;> rw [e] at hin ⊢
  · exact hs.fault hin hg rfl
  · exact hs.assembling hin hg rfl rfl (fun _ => hN) (fun _ => ⟨rfl, rfl⟩)

/-- A run that the host waits for is no bare ASSEMBLE, so its steps leave the host's registers as they are. -/
theorem step_running_host {s t : State} (hs : s.Inv) (hj : s.host.job = .awaitRun) (hr : s.status.running = true)
    (h : step s = .next t) : t.host = s.host := by
  obtain ⟨i, hi, he⟩ | rfl := step_running hr h
  · rcases blockStep_host hi he with hsame | ⟨ha, hbare, _⟩
    · exact hsame
    · obtain ⟨_, hrun, _⟩ := hs.waiting hj
      rw [hrun ha] at hbare; cases hbare
  · rfl

/-! ## The step that ends the wait (R158 to R160) -/

section Ended

variable {s : State} (hj : s.host.job = .awaitRun)
include hj

theorem step_of_wait_done (hd : s.status = .done) :
    step s = exec (.buildGrid s.out s.host.image.width.toNat) s.endJob := by
  refine step_of_run ?_
  rw [fetch_of_not_running (by rw [hd]; rfl), fetchHost, hj, hd]

theorem step_of_wait_fault {r : Reason} (hf : s.status = .fault r) : step s = .next (s.hostFail (.block r)) := by
  refine step_of_done ?_
  rw [fetch_of_not_running (by rw [hf]; rfl), fetchHost, hj, hf]

end Ended

/-- Settles O44: the two moves of a host whose run has ended. -/
theorem decodeFileEndsWithItsRun : Obligations.DecodeFileEndsWithItsRun := fun _ hj =>
  ⟨fun hd => step_of_wait_done hj hd, fun _ hf => step_of_wait_fault hj hf⟩

/-- What a host with the registers `h` comes to when the run it waits for has ended: the grid of `out`,
DimensionMismatch, or the run's fault (R158 to R161). -/
def HostState.AnsweredBy (h : HostState) (u : State) : Prop :=
  u.host.job = .none ∧
    ((u.status = .done ∧ u.host.reply = .stageDone ∧ h.image.width.toNat ≠ 0 ∧
        u.out.length % h.image.width.toNat = 0 ∧ u.host.grid = gridRows u.out h.image.width.toNat ∧
        colorsBelow u.host.N u.out ∧ u.host.gct = h.gct ∧ u.host.N = h.N) ∨
      (u.status = .done ∧ u.host.reply = .error .dimensionMismatch ∧
        (h.image.width.toNat = 0 ∨ u.out.length % h.image.width.toNat ≠ 0)) ∨
      ∃ r, u.status = .fault r ∧ u.host.reply = .error (.block r))

/-- The step that ends the wait gives the host its answer. -/
theorem exists_answer_of_ended {s : State} (hs : s.Inv) (hj : s.host.job = .awaitRun)
    (hr : s.status.running = false) : ∃ u, step s = .next u ∧ s.host.AnsweredBy u := by
  cases hst : s.status with
  | idle => exact absurd hst (hs.waiting hj).1
  | done =>
    have hout : colorsBelow s.host.N s.out := hs.issued (by rw [hst]; rfl) hj ▸ hs.result hst
    rw [step_of_wait_done hj hst]
    by_cases hw : s.host.image.width.toNat ≠ 0 ∧ s.out.length % s.host.image.width.toNat = 0
    · exact ⟨_, exec_buildGrid_of_dvd hw.1 hw.2 _, rfl, .inl ⟨hst, rfl, hw.1, hw.2, rfl, hout, rfl, rfl⟩⟩
    · have hw' : s.host.image.width.toNat = 0 ∨ s.out.length % s.host.image.width.toNat ≠ 0 := by tauto
      exact ⟨_, exec_buildGrid_of_not_dvd hw' _, rfl, .inr (.inl ⟨hst, rfl, hw'⟩)⟩
  | fault r => exact ⟨_, step_of_wait_fault hj hst, rfl, .inr (.inr ⟨r, hst, rfl⟩)⟩
  | assembling | decoding => rw [hst] at hr; cases hr

/-- A host that waits for a run with at most `n` steps left has its answer after at most `n + 1`, by induction on `n`. -/
theorem exists_answer_of_stepsLeft_le (n : Nat) {s : State} (hs : s.Inv) (hj : s.host.job = .awaitRun)
    (hn : s.stepsLeft ≤ n) :
    ∃ (k : Nat) (u : State), k ≤ n + 1 ∧ Sys2Proof.core.run k s = .next u ∧ s.host.AnsweredBy u := by
  cases hr : s.status.running with
  | false =>
    obtain ⟨u, hu, hans⟩ := exists_answer_of_ended hs hj hr
    exact ⟨1, u, Nat.le_add_left 1 n, core_run_one hu, hans⟩
  | true =>
    obtain ⟨v, hv⟩ := exists_step_running hs hr
    have hlt := stepsLeft_lt_of_step hs hr hv
    have hhost := step_running_host hs hj hr hv
    cases n with
    | zero => omega
    | succ n =>
      obtain ⟨k, u, hk, hrun, hans⟩ :=
        exists_answer_of_stepsLeft_le n (everyStepKeepsInvariant s v hs hv) (hhost ▸ hj) (by omega)
      exact ⟨k + 1, u, Nat.succ_le_succ hk, (core_run_succ k hv).trans hrun, hhost ▸ hans⟩

/-- Settles O58: either a stage fails at once, or the host waits for the run it issued, and the wait ends. -/
theorem decodeFileEndsWithGridOrError : Obligations.DecodeFileEndsWithGridOrError := by
  intro s t hs hr h
  rcases (decodeFile_next h).2 with ⟨u, hu, rfl⟩ | ⟨e, _, he, rfl⟩
  · obtain ⟨k, v, hk, hrun, hjob, hgrid | hdim | hfault⟩ :=
      exists_answer_of_stepsLeft_le _ (hs.issued_of_fileStages hu) rfl le_rfl
    · exact ⟨k, v, hk, hrun, hjob, .inl hgrid⟩
    · exact ⟨k, v, hk, hrun, hjob, .inr (.inl hdim)⟩
    · exact ⟨k, v, hk, hrun, hjob, .inr (.inr (.inl hfault))⟩
  · refine ⟨0, s.hostFail e, Nat.zero_le _, core_run_zero _, rfl, .inr (.inr (.inr ⟨rfl, ?_⟩))⟩
    obtain rfl | rfl | ⟨rfl, hL⟩ := he
    · exact .inl rfl
    · exact .inr (.inl rfl)
    · exact .inr (.inr ⟨rfl, hL⟩)

/-! ## Resolving the grid (R163) -/

/-- Settles O45: the grid's colors are those of `out`, below `N`, and the color table has `N` triples. -/
theorem resolvedColorsAreInRange : Obligations.ResolvedColorsAreInRange := by
  intro s t hs hj hd h hdone
  have hsize := hs.tableSize
  have hout : colorsBelow s.host.N s.out := hs.issued (by rw [hd]; rfl) hj ▸ hs.result hd
  rw [step_of_wait_done hj hd] at h
  obtain ⟨_, _, rfl⟩ | ⟨_, rfl⟩ := buildGrid_next h
  · have hrows : ∀ row ∈ gridRows s.out s.host.image.width.toNat, ∀ i ∈ row, i < s.host.N :=
      fun row hrow i hi => hout i (gridRows_mem hrow hi)
    exact ⟨hsize, hrows, HostState.resolveRows_of_lt fun row hrow i hi => hsize.symm ▸ hrows row hrow i hi⟩
  · cases hdone

end Sys2Proof.Machine
end

section
/-! PROOF. A fault of a run discards the step (R178, R56): settles O53. -/

namespace Sys2Proof.Machine

theorem Status.isFault_of_running {st : Status} (h : st.running = true) : st.isFault = false := by
  obtain rfl | rfl := Status.running_iff.1 h <;> rfl

/-- A step of the block that ends in no fault leaves the run in progress, or ends it in DONE (R126) or, for a bare
ASSEMBLE, in IDLE (R195); its only way to a fault is to raise on the state before the step (R178). -/
theorem blockStep_raise_or_not_fault {i : Instr} {s t : State} (hi : i.isBlockStep = true)
    (hr : s.status.running = true) (h : exec i s = .next t) :
    (∃ r, t = s.raise r) ∨ t.status.isFault = false := by
  have hstill : s.status.isFault = false := Status.isFault_of_running hr
  cases i with
  | clear =>
    obtain ⟨_, ⟨r, _, ht⟩ | ⟨_, rfl⟩⟩ := clear_next h
    · exact .inl ⟨r, ht⟩
    · exact .inr hstill
  | eoi =>
    obtain ⟨_, ⟨r, _, ht⟩ | ⟨_, rfl⟩⟩ := eoi_next h
    · exact .inl ⟨r, ht⟩
    · exact .inr rfl
  | known c =>
    obtain ⟨_, ⟨r, _, ht⟩ | ⟨_, _, _, _, _, _, _, _, _, _, rfl⟩⟩ := known_next h
    · exact .inl ⟨r, ht⟩
    · exact .inr hstill
  | kwkwk c =>
    obtain ⟨_, ⟨r, _, ht⟩ | ⟨_, _, _, _, _, _, _, _, _, _, _, rfl⟩⟩ := kwkwk_next h
    · exact .inl ⟨r, ht⟩
    · exact .inr hstill
  | corrupt c =>
    obtain ⟨_, r, _, ht⟩ := corrupt_next h
    exact .inl ⟨r, ht⟩
  | data p =>
    obtain ⟨_, _, hraise | ⟨_, rfl⟩⟩ := data_next h
    · exact .inl hraise
    · exact .inr hstill
  | term =>
    obtain ⟨_, hraise | ⟨_, ⟨_, _, rfl⟩ | ⟨_, rfl⟩⟩⟩ := term_next h
    · exact .inl hraise
    · exact .inr rfl
    · exact .inr rfl
  | _ => cases hi

/-- In a run the step ends in no fault, or it is the raise of one, by the fetch or by the instruction (R178). -/
theorem step_running_raise_or_not_fault {s t : State} (hr : s.status.running = true) (h : step s = .next t) :
    (∃ r, t = s.raise r) ∨ t.status.isFault = false := by
  obtain ⟨i, hi, he⟩ | rfl := step_running hr h
  · exact blockStep_raise_or_not_fault hi hr he
  · exact .inl ⟨.truncatedStream, rfl⟩

/-- Settles O53: the step is the raise of a fault on the state before it, and the status names the fault raised. -/
theorem faultDiscardsTheStep : Obligations.FaultDiscardsTheStep := by
  intro s t r hr h hfault
  obtain ⟨r', rfl⟩ | hno := step_running_raise_or_not_fault hr h
  · obtain rfl : r' = r := Status.fault.inj hfault
    rfl
  · rw [hfault] at hno
    cases hno

end Sys2Proof.Machine
end

section
/-! PROOF. What a start leaves of the state before it (R45, R190 to R193, R202): a stale `prev` is not read after a reset, CLEAR forgets the table, the counter and the flag, and a start command writes only what it creates anew: settles O30, O31 and O49. -/

namespace Sys2Proof.Machine

/-! ## What the decoder forgets (R193, R202) -/

/-- A counted code that does not raise has room for its width to grow (R131). -/
theorem State.CountedTo.room {s : State} {cnt' cw' : Nat} (h : s.CountedTo cnt' cw') :
    s.cnt + 1 = 2 ^ (s.cw - 1) → s.cw ≠ s.MAXW := by
  obtain ⟨hne, _, _⟩ | ⟨_, hmax, _, _⟩ := h
  · exact fun hgrow => absurd hgrow hne
  · exact fun _ => hmax

/-- Settles O30: the result that O24 gives a first KNOWN overwrites `prev` and has no other mention of it. -/
theorem stalePrevIsNeverRead : Obligations.StalePrevIsNeverRead := by
  intro s t c q hf h ht
  obtain ⟨hd, ⟨r, _, rfl⟩ | ⟨hbits, hclass, x, xs, hx, _, _, _, _, hcount, _⟩⟩ := known_next h
  · cases ht
  · obtain ⟨hclr, heoi, _⟩ := ne_sentinels_of_known hclass
    have hroom := State.CountedTo.room hcount
    have hstale := knownFirstEmitsWithoutExtending { s with prev := q } c x xs hd hbits hclr heoi hx hf hroom
    have hs := knownFirstEmitsWithoutExtending s c x xs hd hbits hclr heoi hx hf hroom
    exact hstale.trans (hs.symm.trans h)

/-- Settles O31: the result of an enabled CLEAR overwrites the table, the counter and the flag. -/
theorem clearForgetsStartState : Obligations.ClearForgetsStartState := by
  intro s t n f tab h ht
  obtain ⟨hd, ⟨r, _, rfl⟩ | ⟨hbits, rfl⟩⟩ := clear_next h
  · cases ht
  · exact exec_clear_of_enabled (s := { s with cnt := n, first := f, T := tab }) hd hbits

/-! ## The frame of the start commands (R190, R191) -/

/-- Settles O49: each start command raises on the state before it, or makes the state its run starts from. -/
theorem startCommandsFrame : Obligations.StartCommandsFrame := by
  intro i s t hi h
  refine ⟨fun a => by rw [(exec_sameInput h).BUF], ?_⟩
  obtain ⟨p, rfl⟩ | ⟨b, m, n, rfl⟩ | ⟨sp, n, rfl⟩ := hi
  · obtain ⟨_, rfl⟩ := assemble_next h
    exact ⟨fun _ => rfl, nofun, nofun⟩
  · obtain ⟨_, _, ⟨_, rfl⟩ | ⟨_, rfl⟩⟩ := decode_next h
    · exact ⟨nofun, nofun, fun _ => rfl⟩
    · exact ⟨nofun, nofun, fun _ => rfl⟩
  · obtain ⟨_, _, ⟨_, rfl⟩ | ⟨_, rfl⟩⟩ := run_next h
    · exact ⟨nofun, fun _ => rfl, nofun⟩
    · exact ⟨nofun, fun _ => rfl, nofun⟩

end Sys2Proof.Machine
end
